-- ==== Sys2Proof/Word.lean ====
section
/-! DEFINITION. The widths of the machine's values (spec/00_scope.md R4, R6; spec/30_encoding.md R54). -/

namespace Sys2Proof

/-- A register or a memory cell: 8 bits, unsigned (R6, R13, R36). -/
abbrev Byte := BitVec 8

/-- An instruction word, and the width of `I` and `PC`: 16 bits (R15, R16, R53). -/
abbrev Word := BitVec 16

/-- The operand field `nnn`: 12 bits (R54). -/
abbrev Addr := BitVec 12

/-- A register index, the fields `x` and `y`: 4 bits that index `V` directly (R54). -/
abbrev Reg := BitVec 4

/-- The operand field `n`, the sprite height: 4 bits (R54). -/
abbrev Nibble := BitVec 4

/-- The flag register `VF` is `V[15]` (R4 `FLAG_REG`, R14). -/
abbrev flagReg : Reg := 0xF#4

end Sys2Proof
end

