-- ==== Sys2Proof/Syntax.lean ====
section
/-! DEFINITION. The instruction set: one constructor for each of the 34 rows of spec/opcode_table.json
(spec/30_encoding.md R56), in the table's order, each with the operand fields its format has (R54, R55). -/

namespace Sys2Proof

/-- The instructions of the opcode map (R56). `SHR` and `SHL` keep the field `y`, which is part of their
encoding (R61) and the shift source when `SHIFT_SRC = Y` (R92, R94).
`LD Vx,ST` (R112) has no row and so no constructor (notes/assumptions/13.md). -/
inductive Instr where
  /-- `CLS`, 00E0 (R75). -/
  | cls
  /-- `RET`, 00EE (R76). -/
  | ret
  /-- `JP nnn`, 1nnn (R77). -/
  | jp (nnn : Addr)
  /-- `CALL nnn`, 2nnn (R78). -/
  | call (nnn : Addr)
  /-- `SE Vx,nn`, 3xnn (R79). -/
  | seImm (x : Reg) (nn : Byte)
  /-- `SNE Vx,nn`, 4xnn (R80). -/
  | sneImm (x : Reg) (nn : Byte)
  /-- `SE Vx,Vy`, 5xy0 (R81). -/
  | seReg (x y : Reg)
  /-- `LD Vx,nn`, 6xnn (R83). -/
  | ldImm (x : Reg) (nn : Byte)
  /-- `ADD Vx,nn`, 7xnn (R84). -/
  | addImm (x : Reg) (nn : Byte)
  /-- `LD Vx,Vy`, 8xy0 (R86). -/
  | ldReg (x y : Reg)
  /-- `OR Vx,Vy`, 8xy1 (R87). -/
  | orReg (x y : Reg)
  /-- `AND Vx,Vy`, 8xy2 (R88). -/
  | andReg (x y : Reg)
  /-- `XOR Vx,Vy`, 8xy3 (R89). -/
  | xorReg (x y : Reg)
  /-- `ADD Vx,Vy`, 8xy4 (R90). -/
  | addReg (x y : Reg)
  /-- `SUB Vx,Vy`, 8xy5 (R91). -/
  | subReg (x y : Reg)
  /-- `SHR Vx`, 8xy6 (R92). -/
  | shr (x y : Reg)
  /-- `SUBN Vx,Vy`, 8xy7 (R93). -/
  | subnReg (x y : Reg)
  /-- `SHL Vx`, 8xyE (R94). -/
  | shl (x y : Reg)
  /-- `SNE Vx,Vy`, 9xy0 (R82). -/
  | sneReg (x y : Reg)
  /-- `LD I,nnn`, Annn (R95). -/
  | ldI (nnn : Addr)
  /-- `JP V0,nnn`, Bnnn (R96). -/
  | jpV0 (nnn : Addr)
  /-- `RND Vx,nn`, Cxnn (R97). -/
  | rnd (x : Reg) (nn : Byte)
  /-- `DRW Vx,Vy,n`, Dxyn (R99). -/
  | drw (x y : Reg) (n : Nibble)
  /-- `SKP Vx`, Ex9E (R101). -/
  | skp (x : Reg)
  /-- `SKNP Vx`, ExA1 (R102). -/
  | sknp (x : Reg)
  /-- `LD Vx,DT`, Fx07 (R103). -/
  | ldVxDT (x : Reg)
  /-- `LD Vx,K`, Fx0A (R104). -/
  | ldVxK (x : Reg)
  /-- `LD DT,Vx`, Fx15 (R105). -/
  | ldDTVx (x : Reg)
  /-- `LD ST,Vx`, Fx18 (R106). -/
  | ldSTVx (x : Reg)
  /-- `ADD I,Vx`, Fx1E (R107). -/
  | addI (x : Reg)
  /-- `LD F,Vx`, Fx29 (R108). -/
  | ldF (x : Reg)
  /-- `LD B,Vx`, Fx33 (R109). -/
  | ldB (x : Reg)
  /-- `LD [I],Vx`, Fx55 (R110). -/
  | storeRegs (x : Reg)
  /-- `LD Vx,[I]`, Fx65 (R111). -/
  | loadRegs (x : Reg)
deriving DecidableEq, Repr

/-- Is this the wait-for-key instruction, the only one that can stall (R65, R104)? -/
def Instr.waitsForKey : Instr → Bool
  | .ldVxK _ => true
  | _ => false

end Sys2Proof
end

