-- ==== Sys2Proof/Config.lean ====
section
/-! DEFINITION. What an implementation fixes: the parameters of spec/00_scope.md R5 as one record of plain
data, and the two free values of the machine (a random byte, an arbitrary key choice). The defaults stand in
Machine/Defaults.lean. -/

namespace Sys2Proof

/-- `TIMER_MODE` (R5, D2): a tick follows every executed step, or ticks are events of their own. -/
inductive TimerMode where
  | perStep
  | external
deriving DecidableEq, Repr

/-- `VF_ORDER` (R5, D9): the order of the two register writes of a flag-writing family-8 instruction. -/
inductive VfOrder where
  | flagThenResult
  | resultThenFlag
deriving DecidableEq, Repr

/-- `SHIFT_SRC` (R5, D10): the register whose value the shift instructions shift. -/
inductive ShiftSrc where
  | x
  | y
deriving DecidableEq, Repr

/-- `BORROW_FLAG` (R5, D11): the flag is 1 when no borrow occurs, or 1 when a borrow occurs. -/
inductive BorrowFlag where
  | notBorrow
  | borrow
deriving DecidableEq, Repr

/-- `KEY_PICK` (R5, D12): the lowest set index, or any other choice of a pressed key.
State is plain data, so the second alternative names the opaque function `Config.keyChoice` instead of
holding a function (notes/assumptions/4.md). -/
inductive KeyPick where
  | lowest
  | arbitrary
deriving DecidableEq, Repr

/-- The configuration record of R5. It is fixed for a machine: no event changes it
(notes/assumptions/1.md says why the state carries it). -/
structure Config where
  /-- `TIMER_MODE`. -/
  timerMode : TimerMode
  /-- `STALL_TICKS`: does a stalled wait-for-key step tick the timers (D3). -/
  stallTicks : Bool
  /-- `STRICT_DECODE`: is an unknown opcode a halting fault (D5). -/
  strictDecode : Bool
  /-- `VF_ORDER`. -/
  vfOrder : VfOrder
  /-- `SHIFT_SRC`. -/
  shiftSrc : ShiftSrc
  /-- `BORROW_FLAG`. -/
  borrowFlag : BorrowFlag
  /-- `KEY_PICK`. -/
  keyPick : KeyPick
  /-- `RDST_SEL`: the low byte that selects `LD Vx,ST`, or absent (D13, R112). -/
  rdstSel : Option Byte
  /-- `GLYPHS`: the 80 bytes of memory 0x000 to 0x04F (R38, D16). -/
  glyphs : List Byte
  /-- `MEM_INIT` (R133, D18): the bytes of 0x050 to 0xFFF at reset, as cells at rising addresses; an
  address that is not listed holds 0 (notes/assumptions/5.md). -/
  memInit : List Host.Cell
deriving DecidableEq, Repr

/-- The free value of R25: the byte on the `rnd` input at the k-th sample, under no law
(notes/assumptions/3.md). -/
opaque Config.rnd : Nat → Byte

/-- The free function of R5's `KEY_PICK` (D12): any function from a key latch to an index; the machine uses
it only where it names a pressed key (notes/assumptions/4.md). -/
opaque Config.keyChoice : Word → Reg

end Sys2Proof
end

