-- ==== Sys2Proof/WellFormed.lean ====
section
/-! DEFINITION. Well-formedness. An instruction's operands have exactly the widths of their fields
(spec/30_encoding.md R54), so the check of an instruction restates those ranges and every term passes it
(Sys2Proof/Laws/PerInstr.lean proves so). A configuration has relations between its parts that types do not
say; each is a check of its own here (R5, R37, R38, R57). -/

namespace Sys2Proof

/-- The ranges of the operand fields (R54): `x`, `y`, `n` below 16, `nn` below 256, `nnn` below 4096. -/
def Instr.wf : Instr → Bool
  | .cls | .ret => true
  | .jp nnn | .call nnn | .ldI nnn | .jpV0 nnn => nnn.toNat < 4096
  | .seImm x nn | .sneImm x nn | .ldImm x nn | .addImm x nn | .rnd x nn => x.toNat < 16 && nn.toNat < 256
  | .seReg x y | .sneReg x y | .ldReg x y | .orReg x y | .andReg x y | .xorReg x y | .addReg x y
  | .subReg x y | .shr x y | .subnReg x y | .shl x y => x.toNat < 16 && y.toNat < 16
  | .drw x y n => x.toNat < 16 && y.toNat < 16 && n.toNat < 16
  | .skp x | .sknp x | .ldVxDT x | .ldVxK x | .ldDTVx x | .ldSTVx x | .addI x | .ldF x | .ldB x
  | .storeRegs x | .loadRegs x => x.toNat < 16

/-- The nine family-F selectors that have a row (R57). -/
def familyFSelectors : List Byte := [0x07, 0x0A, 0x15, 0x18, 0x1E, 0x29, 0x33, 0x55, 0x65]

/-- `RDST_SEL`, when present, differs from the nine selectors that have a row (R57). -/
def Config.rdstSelFree (c : Config) : Bool :=
  match c.rdstSel with
  | none => true
  | some s => !familyFSelectors.contains s

/-- `GLYPHS` has 80 bytes (R5, R38). -/
def Config.glyphsFit (c : Config) : Bool := c.glyphs.length == 80

/-- The cells of `MEM_INIT` lie at rising addresses (one byte an address, in one written form). -/
def Config.memInitRising (c : Config) : Bool := decide (c.memInit.Pairwise fun a b => a.1 < b.1)

/-- The cells of `MEM_INIT` lie in 0x050 to 0xFFF (R5, R37). -/
def Config.memInitInRange (c : Config) : Bool := c.memInit.all fun a => 0x50 ≤ a.1 && a.1 < 0x1000

/-- The cells of `MEM_INIT` that are listed are not zero (one written form). -/
def Config.memInitListed (c : Config) : Bool := c.memInit.all fun a => a.2 != 0

/-- A configuration whose parts fit together. -/
def Config.wf (c : Config) : Bool :=
  c.rdstSelFree && c.glyphsFit && c.memInitRising && c.memInitInRange && c.memInitListed

end Sys2Proof
end

