-- ==== Sys2Proof/Decode.lean ====
section
/-! DEFINITION. From bits to instructions and back: the fields of spec/30_encoding.md R54, the decoder of R56
and R57 (rejecting by the family of R60), the encoder, and the opcode map R56 as a table of rows. -/

namespace Sys2Proof

/-- Why a word is no instruction: the families of R60 that hold unknown words, or a byte missing. -/
inductive DecodeError where
  /-- Fewer than two bytes were given (R53: every instruction has two). -/
  | truncated
  /-- A family-0 word other than 0x00E0 and 0x00EE (R60). -/
  | unknown0
  /-- 5xyk with k ≠ 0 (R60). -/
  | unknown5
  /-- 8xyk with k in 8, 9, A, B, C, D, F (R60). -/
  | unknown8
  /-- 9xyk with k ≠ 0 (R60). -/
  | unknown9
  /-- Exkk with kk other than 0x9E, 0xA1 (R60). -/
  | unknownE
  /-- Fxkk with kk none of the nine selectors (R60). -/
  | unknownF
deriving DecidableEq, Repr

/-- `op = w[15:12]` (R54). -/
def fieldOp (w : Word) : BitVec 4 := w.extractLsb' 12 4
/-- `nnn = w[11:0]` (R54). -/
def fieldNNN (w : Word) : Addr := w.extractLsb' 0 12
/-- `x = w[11:8]` (R54). -/
def fieldX (w : Word) : Reg := w.extractLsb' 8 4
/-- `y = w[7:4]` (R54). -/
def fieldY (w : Word) : Reg := w.extractLsb' 4 4
/-- `nn = sel8 = w[7:0]` (R54). -/
def fieldNN (w : Word) : Byte := w.extractLsb' 0 8
/-- `n = w[3:0]`, also the selector of families 5, 8 and 9 (R54). -/
def fieldN (w : Word) : Nibble := w.extractLsb' 0 4

/-- Family 0 fixes the whole word (R56, R60). -/
def decodeFamily0 (w : Word) : Except DecodeError Instr :=
  if w = 0x00E0#16 then .ok .cls
  else if w = 0x00EE#16 then .ok .ret
  else .error .unknown0

/-- Family 8: nine sub-operations selected by `w[3:0]` (R56). -/
def decodeFamily8 (x y : Reg) (sel : Nibble) : Except DecodeError Instr :=
  if sel = 0x0#4 then .ok (.ldReg x y)
  else if sel = 0x1#4 then .ok (.orReg x y)
  else if sel = 0x2#4 then .ok (.andReg x y)
  else if sel = 0x3#4 then .ok (.xorReg x y)
  else if sel = 0x4#4 then .ok (.addReg x y)
  else if sel = 0x5#4 then .ok (.subReg x y)
  else if sel = 0x6#4 then .ok (.shr x y)
  else if sel = 0x7#4 then .ok (.subnReg x y)
  else if sel = 0xE#4 then .ok (.shl x y)
  else .error .unknown8

/-- Family E: two sub-operations selected by `w[7:0]` (R56). -/
def decodeFamilyE (x : Reg) (sel : Byte) : Except DecodeError Instr :=
  if sel = 0x9E#8 then .ok (.skp x)
  else if sel = 0xA1#8 then .ok (.sknp x)
  else .error .unknownE

/-- Family F: nine sub-operations selected by `w[7:0]` (R56). -/
def decodeFamilyF (x : Reg) (sel : Byte) : Except DecodeError Instr :=
  if sel = 0x07#8 then .ok (.ldVxDT x)
  else if sel = 0x0A#8 then .ok (.ldVxK x)
  else if sel = 0x15#8 then .ok (.ldDTVx x)
  else if sel = 0x18#8 then .ok (.ldSTVx x)
  else if sel = 0x1E#8 then .ok (.addI x)
  else if sel = 0x29#8 then .ok (.ldF x)
  else if sel = 0x33#8 then .ok (.ldB x)
  else if sel = 0x55#8 then .ok (.storeRegs x)
  else if sel = 0x65#8 then .ok (.loadRegs x)
  else .error .unknownF

/-- The decoder: a pure function of the word (R57, R67), by the family `op` and then the family's selector.
The last arm is family F: all sixteen values of `op` are used (R53). -/
def decode (w : Word) : Except DecodeError Instr :=
  match fieldOp w with
  | 0x0#4 => decodeFamily0 w
  | 0x1#4 => .ok (.jp (fieldNNN w))
  | 0x2#4 => .ok (.call (fieldNNN w))
  | 0x3#4 => .ok (.seImm (fieldX w) (fieldNN w))
  | 0x4#4 => .ok (.sneImm (fieldX w) (fieldNN w))
  | 0x5#4 => if fieldN w = 0x0#4 then .ok (.seReg (fieldX w) (fieldY w)) else .error .unknown5
  | 0x6#4 => .ok (.ldImm (fieldX w) (fieldNN w))
  | 0x7#4 => .ok (.addImm (fieldX w) (fieldNN w))
  | 0x8#4 => decodeFamily8 (fieldX w) (fieldY w) (fieldN w)
  | 0x9#4 => if fieldN w = 0x0#4 then .ok (.sneReg (fieldX w) (fieldY w)) else .error .unknown9
  | 0xA#4 => .ok (.ldI (fieldNNN w))
  | 0xB#4 => .ok (.jpV0 (fieldNNN w))
  | 0xC#4 => .ok (.rnd (fieldX w) (fieldNN w))
  | 0xD#4 => .ok (.drw (fieldX w) (fieldY w) (fieldN w))
  | 0xE#4 => decodeFamilyE (fieldX w) (fieldNN w)
  | _ => decodeFamilyF (fieldX w) (fieldNN w)

/-- Decoding a byte stream: the byte at the lower address is the high byte of the word (R40); the rest of
the stream is returned. -/
def decodeBytes : List Byte → Except DecodeError (Instr × List Byte)
  | hi :: lo :: rest =>
    match decode (hi ++ lo) with
    | .ok i => .ok (i, rest)
    | .error e => .error e
  | _ => .error .truncated

/-- The thirty-fifth row (R57): the word `1111 xxxx ssss ssss` is `LD Vx,ST` when `RDST_SEL` is present with
value s; the answer is the register index `x`. -/
def decodeReadSound (sel : Option Byte) (w : Word) : Option Reg :=
  if fieldOp w = 0xF#4 ∧ sel = some (fieldNN w) then some (fieldX w) else none

/-- The encoder: the word of an instruction, format by format (R55, R56), bit 15 on the left. -/
def encode : Instr → Word
  | .cls => 0x00E0#16
  | .ret => 0x00EE#16
  | .jp nnn => 0x1#4 ++ nnn
  | .call nnn => 0x2#4 ++ nnn
  | .seImm x nn => 0x3#4 ++ x ++ nn
  | .sneImm x nn => 0x4#4 ++ x ++ nn
  | .seReg x y => 0x5#4 ++ x ++ y ++ 0x0#4
  | .ldImm x nn => 0x6#4 ++ x ++ nn
  | .addImm x nn => 0x7#4 ++ x ++ nn
  | .ldReg x y => 0x8#4 ++ x ++ y ++ 0x0#4
  | .orReg x y => 0x8#4 ++ x ++ y ++ 0x1#4
  | .andReg x y => 0x8#4 ++ x ++ y ++ 0x2#4
  | .xorReg x y => 0x8#4 ++ x ++ y ++ 0x3#4
  | .addReg x y => 0x8#4 ++ x ++ y ++ 0x4#4
  | .subReg x y => 0x8#4 ++ x ++ y ++ 0x5#4
  | .shr x y => 0x8#4 ++ x ++ y ++ 0x6#4
  | .subnReg x y => 0x8#4 ++ x ++ y ++ 0x7#4
  | .shl x y => 0x8#4 ++ x ++ y ++ 0xE#4
  | .sneReg x y => 0x9#4 ++ x ++ y ++ 0x0#4
  | .ldI nnn => 0xA#4 ++ nnn
  | .jpV0 nnn => 0xB#4 ++ nnn
  | .rnd x nn => 0xC#4 ++ x ++ nn
  | .drw x y n => 0xD#4 ++ x ++ y ++ n
  | .skp x => 0xE#4 ++ x ++ 0x9E#8
  | .sknp x => 0xE#4 ++ x ++ 0xA1#8
  | .ldVxDT x => 0xF#4 ++ x ++ 0x07#8
  | .ldVxK x => 0xF#4 ++ x ++ 0x0A#8
  | .ldDTVx x => 0xF#4 ++ x ++ 0x15#8
  | .ldSTVx x => 0xF#4 ++ x ++ 0x18#8
  | .addI x => 0xF#4 ++ x ++ 0x1E#8
  | .ldF x => 0xF#4 ++ x ++ 0x29#8
  | .ldB x => 0xF#4 ++ x ++ 0x33#8
  | .storeRegs x => 0xF#4 ++ x ++ 0x55#8
  | .loadRegs x => 0xF#4 ++ x ++ 0x65#8

/-- The two bytes of a word as memory holds them, the high byte first (R40). -/
def wordBytes (w : Word) : List Byte := [w.extractLsb' 8 8, w.extractLsb' 0 8]

/-- The bytes of an instruction as memory holds them (R40). -/
def encodeBytes (i : Instr) : List Byte := wordBytes (encode i)

/-- A row of the opcode map: the word `w` is in it exactly when `(w and mask) = pattern` (R56). -/
structure OpcodeRow where
  pattern : Word
  mask : Word
deriving DecidableEq, Repr

/-- Does the word lie in the row (R56)? -/
def OpcodeRow.holds (r : OpcodeRow) (w : Word) : Bool := (w &&& r.mask) == r.pattern

/-- The match and mask columns of R56, families 0 to 7. -/
def opcodeRowsLow : List OpcodeRow :=
  [⟨0x00E0, 0xFFFF⟩, ⟨0x00EE, 0xFFFF⟩, ⟨0x1000, 0xF000⟩, ⟨0x2000, 0xF000⟩, ⟨0x3000, 0xF000⟩,
   ⟨0x4000, 0xF000⟩, ⟨0x5000, 0xF00F⟩, ⟨0x6000, 0xF000⟩, ⟨0x7000, 0xF000⟩]

/-- The match and mask columns of R56, families 8 and 9. -/
def opcodeRowsMid : List OpcodeRow :=
  [⟨0x8000, 0xF00F⟩, ⟨0x8001, 0xF00F⟩, ⟨0x8002, 0xF00F⟩, ⟨0x8003, 0xF00F⟩, ⟨0x8004, 0xF00F⟩,
   ⟨0x8005, 0xF00F⟩, ⟨0x8006, 0xF00F⟩, ⟨0x8007, 0xF00F⟩, ⟨0x800E, 0xF00F⟩, ⟨0x9000, 0xF00F⟩]

/-- The match and mask columns of R56, families A to F. -/
def opcodeRowsHigh : List OpcodeRow :=
  [⟨0xA000, 0xF000⟩, ⟨0xB000, 0xF000⟩, ⟨0xC000, 0xF000⟩, ⟨0xD000, 0xF000⟩, ⟨0xE09E, 0xF0FF⟩,
   ⟨0xE0A1, 0xF0FF⟩, ⟨0xF007, 0xF0FF⟩, ⟨0xF00A, 0xF0FF⟩, ⟨0xF015, 0xF0FF⟩, ⟨0xF018, 0xF0FF⟩,
   ⟨0xF01E, 0xF0FF⟩, ⟨0xF029, 0xF0FF⟩, ⟨0xF033, 0xF0FF⟩, ⟨0xF055, 0xF0FF⟩, ⟨0xF065, 0xF0FF⟩]

/-- The opcode map R56: 34 rows, in its order. -/
def opcodeTable : List OpcodeRow := opcodeRowsLow ++ opcodeRowsMid ++ opcodeRowsHigh

/-- The number of an instruction's row in `opcodeTable` (R56). -/
def Instr.rowIndex : Instr → Nat
  | .cls => 0
  | .ret => 1
  | .jp _ => 2
  | .call _ => 3
  | .seImm _ _ => 4
  | .sneImm _ _ => 5
  | .seReg _ _ => 6
  | .ldImm _ _ => 7
  | .addImm _ _ => 8
  | .ldReg _ _ => 9
  | .orReg _ _ => 10
  | .andReg _ _ => 11
  | .xorReg _ _ => 12
  | .addReg _ _ => 13
  | .subReg _ _ => 14
  | .shr _ _ => 15
  | .subnReg _ _ => 16
  | .shl _ _ => 17
  | .sneReg _ _ => 18
  | .ldI _ => 19
  | .jpV0 _ => 20
  | .rnd _ _ => 21
  | .drw _ _ _ => 22
  | .skp _ => 23
  | .sknp _ => 24
  | .ldVxDT _ => 25
  | .ldVxK _ => 26
  | .ldDTVx _ => 27
  | .ldSTVx _ => 28
  | .addI _ => 29
  | .ldF _ => 30
  | .ldB _ => 31
  | .storeRegs _ => 32
  | .loadRegs _ => 33

/-- The word of a table row's `nbits` bits, the bits above them zero. -/
def tableWord (nbits w : Nat) : Word := BitVec.ofNat 16 (w % 2 ^ nbits)

/-- The instruction the decoder reads from the bytes of a table word, laid out as memory holds them. -/
def decodeTableWord (nbits w : Nat) : Option Instr :=
  match decodeBytes (wordBytes (tableWord nbits w)) with
  | .ok (i, _) => some i
  | .error _ => none

end Sys2Proof
end

