-- ==== Sys2Proof/Machine/Defaults.lean ====
section
/-! DEFINITION. The defaults of spec/00_scope.md R5: the default glyph table (spec/20_memory.md R38) and the
default configuration. -/

namespace Sys2Proof

/-- The default `GLYPHS` table, digits 0 to 7 (R38). -/
def glyphsLow : List Byte :=
  [0xF0, 0x90, 0x90, 0x90, 0xF0] ++ [0x20, 0x60, 0x20, 0x20, 0x70] ++
  [0xF0, 0x10, 0xF0, 0x80, 0xF0] ++ [0xF0, 0x10, 0xF0, 0x10, 0xF0] ++
  [0x90, 0x90, 0xF0, 0x10, 0x10] ++ [0xF0, 0x80, 0xF0, 0x10, 0xF0] ++
  [0xF0, 0x80, 0xF0, 0x90, 0xF0] ++ [0xF0, 0x10, 0x20, 0x40, 0x40]

/-- The default `GLYPHS` table, digits 8 to F (R38). -/
def glyphsHigh : List Byte :=
  [0xF0, 0x90, 0xF0, 0x90, 0xF0] ++ [0xF0, 0x90, 0xF0, 0x10, 0xF0] ++
  [0xF0, 0x90, 0xF0, 0x90, 0x90] ++ [0xE0, 0x90, 0xE0, 0x90, 0xE0] ++
  [0xF0, 0x80, 0x80, 0x80, 0xF0] ++ [0xE0, 0x90, 0x90, 0x90, 0xE0] ++
  [0xF0, 0x80, 0xF0, 0x80, 0xF0] ++ [0xF0, 0x80, 0xF0, 0x80, 0x80]

/-- The default `GLYPHS` table (R38; the bytes are the spec's general knowledge, notes/assumptions/7.md). -/
def defaultGlyphs : List Byte := glyphsLow ++ glyphsHigh

/-- The defaults of R5: "the machine of this spec" (spec/92_eei_decisions.md), with `MEM_INIT` at the named
value all zero (R133). -/
def Config.default : Config where
  timerMode := .perStep
  stallTicks := true
  strictDecode := false
  vfOrder := .flagThenResult
  shiftSrc := .x
  borrowFlag := .notBorrow
  keyPick := .lowest
  rdstSel := none
  glyphs := defaultGlyphs
  memInit := []

end Sys2Proof
end

