-- ==== Sys2Proof/Machine/State.lean ====
section
/-! DEFINITION. The machine's state as plain data (spec/10_state.md R13 to R26), its reset value (R32), the
halting-fault causes (spec/60_exceptions.md R115), the outcome labels (spec/40_step.md R70), the events
(spec/00_scope.md R9), and the reasons an event can have no next state. -/

namespace Sys2Proof.Machine

/-- Main memory (R24): a list of (address, byte) pairs at strictly rising addresses, without an entry equal to
what an unlisted address reads as (`Memory.wf` in Machine/Ops.lean). -/
abbrev Memory := List Host.Cell

/-- The values of the status register `FAULT`: the causes of R115, in the order of their codes 0 to 7. -/
inductive FaultCause where
  /-- 0 `None`: no fault since reset. -/
  | noFault
  /-- 1: `CALL` with `SP = 16` (R78). -/
  | stackOverflow
  /-- 2: `RET` with `SP = 0` (R76). -/
  | stackUnderflow
  /-- 3: a fetch with `PC > 0xFFE` (R44). -/
  | fetchBounds
  /-- 4: a data range that leaves 0x000 to 0xFFF (R43). -/
  | dataBounds
  /-- 5: a store into the glyph table (R45). -/
  | glyphWrite
  /-- 6: `SKP` or `SKNP` with `V[x] > 15` (R101, R102). -/
  | keyIndex
  /-- 7: an unknown opcode with `STRICT_DECODE = true` (R59). -/
  | illegalOpcode
deriving DecidableEq, Repr

/-- The outcome label of a `Step` (R29, R70): a property of the transition, not state. -/
inductive Label where
  | executed
  | stalled
  | decodeError
  | faulted
  | halted
deriving DecidableEq, Repr

/-- The events by which the machine changes state (R9), with the values they carry (R27). -/
inductive Event where
  /-- The core runs one instruction (R65). -/
  | step
  /-- The timer tick, an event of its own only when `TIMER_MODE = External` (R69). -/
  | tick
  /-- The host replaces the input latch (R72). -/
  | setKeys (k : Word)
  /-- The host clears the draw flag (R73). -/
  | ackDraw
  /-- The host resets the machine (R74, R132). -/
  | reset
  /-- The host loads a program image, at launch only (R71). -/
  | load (image : List Byte)
deriving DecidableEq, Repr

/-- The machine state. -/
structure State where
  /-- `V[0]` to `V[15]`, 8 bits each (R13); `VF` is `V[15]` (R14). -/
  v : Vector Byte 16
  /-- The index register `I`, 16 bits (R15). -/
  i : Word
  /-- The program counter `PC`, 16 bits (R16). -/
  pc : Word
  /-- The stack pointer `SP`: the count of entries in use, 0 to 16 (R18). -/
  sp : Fin 17
  /-- The return stack `STACK[0]` to `STACK[15]`, 16 bits each (R17). -/
  stack : Vector Word 16
  /-- The delay timer `DT` (R19). -/
  dt : Byte
  /-- The sound timer `ST` (R20). -/
  st : Byte
  /-- The frame buffer (R21), one 64-bit row for each of the 32 rows of pixels: bit `px` of row `py` is the
  cell `FB[py × 64 + px]` (notes/assumptions/14.md). -/
  fb : Vector (BitVec 64) 32
  /-- The input latch: bit k is `KEY[k]` (R22). -/
  key : Word
  /-- The draw flag `DRAW` (R23). -/
  draw : Bool
  /-- Main memory `MEM` (R24). -/
  mem : Memory
  /-- `FAULT` (R26). -/
  fault : FaultCause
  /-- `FAULT_PC` (R26). -/
  faultPc : Word
  /-- `FAULT_INFO`, 17 bits (R26). -/
  faultInfo : BitVec 17
  /-- `DIAG`, sticky (R26). -/
  diag : Bool
  /-- `DIAG_PC` (R26). -/
  diagPc : Word
  /-- `DIAG_WORD` (R26). -/
  diagWord : Word
  /-- The model's own: how many `rnd` bytes have been sampled; the next one is `Config.rnd rndIndex` (R25). -/
  rndIndex : Nat
  /-- The model's own: the machine stands after a `Reset` and before the first `Step`, and no image has been loaded
  since, so that the event `Load` is admitted (R71, R137; notes/assumptions/12.md). -/
  atLaunch : Bool
  /-- The model's own: the configuration of R5, which no event changes. -/
  cfg : Config
deriving DecidableEq, Repr

/-- The reset state (R32) of the machine of this spec: the defaults of R5, and memory with nothing listed (the
glyph table reads as `GLYPHS`, every other address as 0, the named `MEM_INIT` of R133). The stack entries are
unspecified in R32 and zero here (notes/assumptions/8.md). -/
def State.reset : State where
  v := Vector.replicate 16 0#8
  i := 0#16
  pc := 0x0200#16
  sp := 0
  stack := Vector.replicate 16 0#16
  dt := 0#8
  st := 0#8
  fb := Vector.replicate 32 0#64
  key := 0#16
  draw := false
  mem := []
  fault := .noFault
  faultPc := 0#16
  faultInfo := 0#17
  diag := false
  diagPc := 0#16
  diagWord := 0#16
  rndIndex := 0
  atLaunch := true
  cfg := Config.default

/-- Why an event has no next state. No step of the model answers with one: the spec's halting faults are
recorded in the state (R116), and the step goes on to the halted state (notes/assumptions/10.md). -/
inductive Fault where
  /-- Raised by the event `Load` after a step, or after another load, since the last `Reset`: outside the launch
  sequence, which the spec gives no meaning (R71; U22 calls it stuck). Safe: the model stops where the hardware may do something (notes/assumptions/12.md). -/
  | loadOutsideLaunch
deriving DecidableEq, Repr

/-- Why an event is turned away with nothing changed. -/
inductive Refusal where
  /-- Raised by an arm of `exec` for an instruction without a meaning: none in this model. Safe. -/
  | notModelled (mnemonic : String)
  /-- Raised by the event `Load` for an image of more than 3584 bytes: the load fails and no byte changes (R71,
  U7). Safe: it is the spec's own refusal. -/
  | imageTooLong
  /-- Raised by the event `Tick` when `TIMER_MODE = PerStep`: there is then no `tick` input (R69). Safe: the
  event does not exist there (notes/assumptions/16.md). -/
  | noTickInput
deriving DecidableEq, Repr

/-- What an event, an instruction or a step answers with. -/
abbrev Result := Host.Outcome State Fault Refusal

end Sys2Proof.Machine
end

