-- ==== Sys2Proof/Machine/Ops.lean ====
section
/-! DEFINITION. The named operations over memory, registers, stack, timers and the frame buffer, each written
once, and taking a halting fault, the machine's only exception (spec/60_exceptions.md R114 to R122; it has no
return: R122). -/

namespace Sys2Proof.Machine

/-! ### Main memory (spec/20_memory.md) -/

/-- What an unlisted address reads as: the default glyph table at 0x000 to 0x04F (R37, R38), else 0
(notes/assumptions/6.md). -/
def Memory.background (a : Nat) : Byte := defaultGlyphs.getD a 0#8

/-- The canonical form: strictly rising addresses inside 0x000 to 0xFFF (R36), and no entry equal to what an
unlisted address reads as. -/
abbrev Memory.wf (m : Memory) : Prop :=
  m.Pairwise (fun c d => c.1 < d.1) ∧ ∀ c ∈ m, c.1 < 4096 ∧ c.2 ≠ Memory.background c.1

/-- `MemRead(addr, 1)` (R8): the byte at an address. -/
def Memory.read : Memory → Nat → Byte
  | [], a => Memory.background a
  | c :: m, a => if c.1 = a then c.2 else Memory.read m a

/-- Place an entry among entries of rising addresses. -/
def Memory.place (c : Host.Cell) : Memory → Memory
  | [] => [c]
  | d :: m => if c.1 < d.1 then c :: d :: m else d :: Memory.place c m

/-- `MemWrite(addr, 1, v)` (R8): an entry at the address is replaced; a byte equal to what an unlisted address
reads as leaves no entry. -/
def Memory.write (m : Memory) (a : Nat) (b : Byte) : Memory :=
  let rest := m.filter fun c => c.1 != a
  if b = Memory.background a then rest else Memory.place (a, b) rest

/-- Bytes written one at a time to ascending addresses (R41). -/
def Memory.writeBytes : Memory → Nat → List Byte → Memory
  | m, _, [] => m
  | m, a, b :: bs => Memory.writeBytes (m.write a b) (a + 1) bs

/-- Bytes read one at a time from ascending addresses (R41). -/
def Memory.readBytes (m : Memory) : Nat → Nat → List Byte
  | _, 0 => []
  | a, n + 1 => m.read a :: Memory.readBytes m (a + 1) n

/-- `MemRead(addr, 2)` (R8, R40): the byte at the lower address is the high byte. -/
def Memory.readWord (m : Memory) (a : Nat) : Word := m.read a ++ m.read (a + 1)

/-! ### Registers and the program counter -/

/-- `V[x]` (R13). -/
def State.reg (s : State) (x : Reg) : Byte := s.v[x.toNat]'x.isLt

/-- `V[x] <- b` (R7). -/
def State.setReg (s : State) (x : Reg) (b : Byte) : State := { s with v := s.v.set x.toNat b x.isLt }

/-- `I <- w` (R15). -/
def State.setI (s : State) (w : Word) : State := { s with i := w }

/-- `PC <- w` (R7). -/
def State.setPc (s : State) (w : Word) : State := { s with pc := w }

/-- `PC <- (PC + k) mod 65536` (R68). -/
def State.advance (s : State) (k : Word) : State := { s with pc := s.pc + k }

/-- The advance of a conditional skip: 4 if it fires, else 2 (R68). -/
def State.skipIf (s : State) (fires : Bool) : State := s.advance (if fires then 4#16 else 2#16)

/-- `V[0]` to `V[k − 1]` set to the bytes of a list, `V[0]` first; the others unchanged (R111). -/
def State.setRegs (s : State) (bytes : List Byte) : State :=
  { s with v := Vector.ofFn fun r : Fin 16 => bytes.getD r.val s.v[r.val] }

/-- The first `k` registers, `V[0]` first (R110). -/
def State.firstRegs (s : State) (k : Nat) : List Byte := s.v.toList.take k

/-! ### Halting faults (spec/60_exceptions.md) -/

/-- The 3-bit code of a cause (R115). -/
def FaultCause.code : FaultCause → BitVec 3
  | .noFault => 0#3
  | .stackOverflow => 1#3
  | .stackUnderflow => 2#3
  | .fetchBounds => 3#3
  | .dataBounds => 4#3
  | .glyphWrite => 5#3
  | .keyIndex => 6#3
  | .illegalOpcode => 7#3

/-- `raise <Cause>(info)` (R8, R116): the three fault registers are written and nothing else changes. -/
def State.raise (s : State) (cause : FaultCause) (info : BitVec 17) : State :=
  { s with fault := cause, faultPc := s.pc, faultInfo := info }

/-- The core is halted exactly when `FAULT ≠ 0` (R26, R120). -/
def State.halted (s : State) : Bool := s.fault != .noFault

/-- The end of an instruction that may fault: the fault its check found, taken in the state before the
instruction, or the instruction's effect (R116, R119). -/
def State.orFault (s : State) (check : Option (FaultCause × BitVec 17)) (effect : State) : Result :=
  match check with
  | some (cause, info) => .next (s.raise cause info)
  | none => .next effect

/-! ### The return stack (spec/10_state.md R17, R18) -/

/-- `STACK[SP] <- w; SP <- SP + 1`, which requires `SP < 16`. -/
def State.push (s : State) (w : Word) : Option State :=
  if h : s.sp.val < 16 then
    some { s with stack := s.stack.set s.sp.val w h, sp := ⟨s.sp.val + 1, by omega⟩ }
  else none

/-- `SP <- SP − 1; v := STACK[SP]`, which requires `SP > 0`: the popped value and the state after. -/
def State.pop (s : State) : Option (Word × State) :=
  if h : 0 < s.sp.val then
    some (s.stack[s.sp.val - 1]'(by omega), { s with sp := ⟨s.sp.val - 1, by omega⟩ })
  else none

/-! ### Timers (spec/40_step.md R69) -/

/-- One decrement of a timer that saturates at zero (R69). -/
def tickTimer (t : Byte) : Byte := if t = 0#8 then 0#8 else t - 1#8

/-- `Tick()`: each timer above zero is decremented; nothing else changes (R69). -/
def State.tick (s : State) : State := { s with dt := tickTimer s.dt, st := tickTimer s.st }

/-! ### The launch sequence (spec/70_reset_and_hazards.md R137) -/

/-- The launch sequence is over: no `Load` is admitted until the next `Reset` (R71, U22). -/
def State.launched (s : State) : State := { s with atLaunch := false }

/-! ### Keys and the random input -/

/-- `KEY[k]` (R22). -/
def State.keyDown (s : State) (k : Nat) : Bool := s.key.getLsbD k

/-- The lowest index of a set bit (R5 `KEY_PICK`, D12: a priority encoder); 0 for an empty latch, where no
instruction asks. -/
def lowestKey (keys : Word) : Reg :=
  match (List.range 16).find? (fun k => keys.getLsbD k) with
  | some k => BitVec.ofNat 4 k
  | none => 0#4

/-- `KEY_PICK` (R5, R104): always the index of a key that is pressed. An arbitrary choice counts only where it
names a pressed key, so it ranges over every admissible function (notes/assumptions/4.md). -/
def pickKey (p : KeyPick) (keys : Word) : Reg :=
  match p with
  | .lowest => lowestKey keys
  | .arbitrary =>
    if keys.getLsbD (Config.keyChoice keys).toNat then Config.keyChoice keys else lowestKey keys

/-- One sample of the `rnd` input has been taken (R25). -/
def State.sampled (s : State) : State := { s with rndIndex := s.rndIndex + 1 }

/-! ### The frame buffer (spec/20_memory.md R49, spec/46_famD_draw.md) -/

/-- The frame buffer's rows. -/
abbrev Screen := Vector (BitVec 64) 32

/-- The value of the cell `FB[c]`, for c below 2048 (R21). -/
def Screen.cell (fb : Screen) (c : Nat) : Bool :=
  if h : c / 64 < 32 then (fb[c / 64]).getLsbD (c % 64) else false

/-- `FB[c] <- FB[c] xor 1` (R99). -/
def Screen.toggle (fb : Screen) (c : Nat) : Screen :=
  if h : c / 64 < 32 then fb.set (c / 64) (fb[c / 64] ^^^ (1#64 <<< (c % 64))) h else fb

/-- Every cell 0 (R75). -/
def Screen.clear : Screen := Vector.replicate 32 0#64

/-- The cell on which pixel j of sprite row k lands, wrapped on both axes (R49, R98). -/
def spriteCell (vx vy : Byte) (k j : Nat) : Nat :=
  ((vy.toNat + k) % 32) * 64 + (vx.toNat + j) % 64

/-- One pixel of the loop of R99: the state of the loop is the frame buffer and the collision bit. -/
def drawPixel (bit : Bool) (c : Nat) (acc : Screen × Bool) : Screen × Bool :=
  if bit then (acc.1.toggle c, acc.2 || acc.1.cell c) else acc

/-- The first `j` pixels of sprite row `k`, left to right: pixel j is bit 7 − j of the row's byte (R98, R99). -/
def drawRow (vx vy : Byte) (k : Nat) (b : Byte) : Nat → Screen × Bool → Screen × Bool
  | 0, acc => acc
  | j + 1, acc => drawPixel (b.getLsbD (7 - j)) (spriteCell vx vy k j) (drawRow vx vy k b j acc)

/-- The first `k` rows of a sprite, top to bottom: row k is the byte `MEM[base + k]` (R98, R99). -/
def drawRows (m : Memory) (base : Nat) (vx vy : Byte) : Nat → Screen × Bool → Screen × Bool
  | 0, acc => acc
  | k + 1, acc => drawRow vx vy k (m.read (base + k)) 8 (drawRows m base vx vy k acc)

end Sys2Proof.Machine
end

