-- ==== Sys2Proof/Machine/Operands.lean ====
section
/-! DEFINITION. The operand forms: how an instruction turns its fields and registers into addresses, ranges,
indices and bytes, and the checks that come before any access (spec/20_memory.md R39, R43 to R45;
spec/30_encoding.md R62). -/

namespace Sys2Proof.Machine

/-- `zext_16(nnn)` (R62): an absolute address or a value for `I`. -/
def address (nnn : Addr) : Word := nnn.setWidth 16

/-- The target of `JP V0,nnn`: a 16-bit sum, not masked to 12 bits (R96). -/
def State.offsetTarget (s : State) (nnn : Addr) : Word := address nnn + (s.reg 0#4).setWidth 16

/-- The effective address `EA(k) = I + k`, an integer without wrap (R43). -/
def State.ea (s : State) (k : Nat) : Nat := s.i.toNat + k

/-- `FAULT_INFO` of an address out of range: `max(a, 0x1000)` (R43, R44). -/
def boundsInfo (a : Word) : BitVec 17 := BitVec.ofNat 17 (max a.toNat 0x1000)

/-- The bounds check of a data range of `len` bytes at `I` (R43). -/
def State.boundsCheck (s : State) (len : Nat) : Option (FaultCause × BitVec 17) :=
  if 0 < len ∧ 0xFFF < s.i.toNat + len - 1 then some (.dataBounds, boundsInfo s.i) else none

/-- The checks of a store of `len` bytes at `I`: its bounds, then the glyph table (R43, R45, R118). -/
def State.storeCheck (s : State) (len : Nat) : Option (FaultCause × BitVec 17) :=
  match s.boundsCheck len with
  | some f => some f
  | none => if 0 < len ∧ s.i.toNat ≤ 0x04F then some (.glyphWrite, s.i.setWidth 17) else none

/-- The check of a key index: the whole register, 0 to 15 (R101, R102). -/
def keyCheck (k : Byte) : Option (FaultCause × BitVec 17) :=
  if 15 < k.toNat then some (.keyIndex, k.setWidth 17) else none

/-- Bytes stored at `I` upward (R41, R109, R110). -/
def State.storeAtI (s : State) (bytes : List Byte) : State :=
  { s with mem := s.mem.writeBytes (s.ea 0) bytes }

/-- The `len` bytes at `I` upward (R41, R111). -/
def State.loadAtI (s : State) (len : Nat) : List Byte := s.mem.readBytes (s.ea 0) len

/-- The three decimal digits of a byte, hundreds first (R109). -/
def decimalDigits (b : Byte) : List Byte :=
  [BitVec.ofNat 8 (b.toNat / 100), BitVec.ofNat 8 (b.toNat / 10 % 10), BitVec.ofNat 8 (b.toNat % 10)]

/-- The address of the glyph of a register's low nibble: `5 × d` (R39, R108). -/
def glyphAddress (b : Byte) : Word := BitVec.ofNat 16 (5 * (b.toNat % 16))

/-- The byte a shift instruction shifts, by `SHIFT_SRC` (R92, R94). -/
def shiftOperand (src : ShiftSrc) (a b : Byte) : Byte :=
  match src with
  | .x => a
  | .y => b

end Sys2Proof.Machine
end

