-- ==== Sys2Proof/Machine/Flags.lean ====
section
/-! DEFINITION. The flag computations: `VF` is the only flag (spec/10_state.md R14), and this file holds every
value written into it as a side effect, and the order of the flag write and the result write
(spec/44_fam8_alu.md R85). -/

namespace Sys2Proof.Machine

/-- A flag as the byte `VF` receives: 0 or 1 (R14). -/
def flagByte (f : Bool) : Byte := if f then 1#8 else 0#8

/-- What a family-8 operation gives: the result and, when it has one, the flag (R85). -/
abbrev AluOut := Byte × Option Bool

/-- `op_4`: the sum mod 256, and 1 if the exact sum exceeds 255 (R90). -/
def aluAdd (a b : Byte) : AluOut := (BitVec.ofNat 8 (a.toNat + b.toNat), some (decide (255 < a.toNat + b.toNat)))

/-- The borrow flag of `a − b` by `BORROW_FLAG`: 1 when no borrow (a ≥ b), or 1 when borrow (R91). -/
def borrowBit (p : BorrowFlag) (a b : Byte) : Bool :=
  match p with
  | .notBorrow => decide (b.toNat ≤ a.toNat)
  | .borrow => decide (a.toNat < b.toNat)

/-- `op_5` (R91), and `op_7` with the operands exchanged (R93): the difference mod 256 and the borrow flag. -/
def aluSub (p : BorrowFlag) (a b : Byte) : AluOut :=
  (BitVec.ofInt 8 ((a.toNat : Int) - (b.toNat : Int)), some (borrowBit p a b))

/-- `op_6`: the logical shift right by one and the bit shifted out (R92). -/
def aluShr (v : Byte) : AluOut := (v >>> 1, some (v.getLsbD 0))

/-- `op_E`: the shift left by one and the bit shifted out (R94). -/
def aluShl (v : Byte) : AluOut := (v <<< 1, some (v.getLsbD 7))

/-- The register writes of R85: a flag-writing operation writes `V[15]` and `V[x]` in the order of `VF_ORDER`,
the later write winning when `x = 15`; another writes `V[x]` only. -/
def State.writeAlu (s : State) (x : Reg) (out : AluOut) : State :=
  match out.2 with
  | none => s.setReg x out.1
  | some f =>
    match s.cfg.vfOrder with
    | .flagThenResult => (s.setReg flagReg (flagByte f)).setReg x out.1
    | .resultThenFlag => (s.setReg x out.1).setReg flagReg (flagByte f)

/-- The shape of every family-8 instruction (R85): both operands are read before any write, then the writes,
then `PC <- pc0 + 2`. -/
def State.alu (s : State) (x y : Reg) (op : Byte → Byte → AluOut) : Result :=
  .next ((s.writeAlu x (op (s.reg x) (s.reg y))).advance 2#16)

end Sys2Proof.Machine
end

