-- ==== Sys2Proof/Machine/Alu.lean ====
section
/-! DEFINITION. Family 8: the register-to-register operations (spec/44_fam8_alu.md), each the common shape of R85
with the operation of its own rule. -/

namespace Sys2Proof.Machine

/-- `LD Vx,Vy` (R86). -/
def execLdReg (x y : Reg) (s : State) : Result := s.alu x y fun _ b => (b, none)

/-- `OR Vx,Vy` (R87). -/
def execOrReg (x y : Reg) (s : State) : Result := s.alu x y fun a b => (a ||| b, none)

/-- `AND Vx,Vy` (R88). -/
def execAndReg (x y : Reg) (s : State) : Result := s.alu x y fun a b => (a &&& b, none)

/-- `XOR Vx,Vy` (R89). -/
def execXorReg (x y : Reg) (s : State) : Result := s.alu x y fun a b => (a ^^^ b, none)

/-- `ADD Vx,Vy` (R90). -/
def execAddReg (x y : Reg) (s : State) : Result := s.alu x y aluAdd

/-- `SUB Vx,Vy` (R91). -/
def execSubReg (x y : Reg) (s : State) : Result := s.alu x y fun a b => aluSub s.cfg.borrowFlag a b

/-- `SHR Vx` (R92). -/
def execShr (x y : Reg) (s : State) : Result :=
  s.alu x y fun a b => aluShr (shiftOperand s.cfg.shiftSrc a b)

/-- `SUBN Vx,Vy` (R93). -/
def execSubnReg (x y : Reg) (s : State) : Result := s.alu x y fun a b => aluSub s.cfg.borrowFlag b a

/-- `SHL Vx` (R94). -/
def execShl (x y : Reg) (s : State) : Result :=
  s.alu x y fun a b => aluShl (shiftOperand s.cfg.shiftSrc a b)

end Sys2Proof.Machine
end

