-- ==== Sys2Proof/Machine/Bulk.lean ====
section
/-! DEFINITION. The instructions that move bytes between the registers and memory at `I`
(spec/48_famF_misc.md R109 to R111): the whole range is checked first, and `I` is not changed. -/

namespace Sys2Proof.Machine

/-- `LD B,Vx` (R109). -/
def execLdB (x : Reg) (s : State) : Result :=
  s.orFault (s.storeCheck 3) ((s.storeAtI (decimalDigits (s.reg x))).advance 2#16)

/-- `LD [I],Vx` (R110): x is the last register stored. -/
def execStoreRegs (x : Reg) (s : State) : Result :=
  s.orFault (s.storeCheck (x.toNat + 1)) ((s.storeAtI (s.firstRegs (x.toNat + 1))).advance 2#16)

/-- `LD Vx,[I]` (R111): x is the last register loaded. -/
def execLoadRegs (x : Reg) (s : State) : Result :=
  s.orFault (s.boundsCheck (x.toNat + 1)) ((s.setRegs (s.loadAtI (x.toNat + 1))).advance 2#16)

end Sys2Proof.Machine
end

