-- ==== Sys2Proof/Machine/Display.lean ====
section
/-! DEFINITION. The instructions that write the frame buffer: `CLS` (spec/41_fam0_1_2_flow.md R75) and
`DRW Vx,Vy,n` (spec/46_famD_draw.md R98 to R100). -/

namespace Sys2Proof.Machine

/-- The frame buffer and the draw flag of an instruction that writes the display (R23: `DRAW` is set whether or
not a cell changed). -/
def State.setScreen (s : State) (fb : Screen) : State := { s with fb := fb, draw := true }

/-- `CLS` (R75). -/
def execCls (s : State) : Result := .next ((s.setScreen Screen.clear).advance 2#16)

/-- The loop of `DRW` from the state before the instruction: the frame buffer and the collision bit (R99). -/
def State.sprite (s : State) (x y : Reg) (n : Nat) : Screen × Bool :=
  drawRows s.mem (s.ea 0) (s.reg x) (s.reg y) n (s.fb, false)

/-- `DRW Vx,Vy,n` (R99): the whole sprite is checked before anything is drawn. -/
def execDrw (x y : Reg) (n : Nibble) (s : State) : Result :=
  s.orFault (s.boundsCheck n.toNat)
    (((s.setScreen (s.sprite x y n.toNat).1).setReg flagReg (flagByte (s.sprite x y n.toNat).2)).advance 2#16)

end Sys2Proof.Machine
end

