-- ==== Sys2Proof/Machine/Flow.lean ====
section
/-! DEFINITION. Jumps, call and return: `JP nnn`, `CALL nnn`, `RET` (spec/41_fam0_1_2_flow.md) and `JP V0,nnn`
(spec/45_famA_B_C.md). -/

namespace Sys2Proof.Machine

/-- `RET` (R76): the popped value is the address of the `CALL`, so 2 is added; an empty stack is the halting
fault `StackUnderflow` with `FAULT_INFO = 0`. -/
def execRet (s : State) : Result :=
  match s.pop with
  | some (w, t) => .next (t.setPc (w + 2#16))
  | none => .next (s.raise .stackUnderflow 0#17)

/-- `JP nnn` (R77). -/
def execJp (nnn : Addr) (s : State) : Result := .next (s.setPc (address nnn))

/-- `CALL nnn` (R78): the address of the `CALL` itself is pushed; a full stack is the halting fault
`StackOverflow` with `FAULT_INFO = nnn`. -/
def execCall (nnn : Addr) (s : State) : Result :=
  match s.push s.pc with
  | some t => .next (t.setPc (address nnn))
  | none => .next (s.raise .stackOverflow (nnn.setWidth 17))

/-- `JP V0,nnn` (R96). -/
def execJpV0 (nnn : Addr) (s : State) : Result := .next (s.setPc (s.offsetTarget nnn))

end Sys2Proof.Machine
end

