-- ==== Sys2Proof/Machine/Immediate.lean ====
section
/-! DEFINITION. Load and add immediate (spec/43_fam6_7_immediate.md) and the masked random byte
(spec/45_famA_B_C.md R97). -/

namespace Sys2Proof.Machine

/-- `LD Vx,nn` (R83). -/
def execLdImm (x : Reg) (nn : Byte) (s : State) : Result := .next ((s.setReg x nn).advance 2#16)

/-- `ADD Vx,nn` (R84): the sum wraps at 8 bits and no flag is written. -/
def execAddImm (x : Reg) (nn : Byte) (s : State) : Result := .next ((s.setReg x (s.reg x + nn)).advance 2#16)

/-- `RND Vx,nn` when the sampled byte is `r` (R97). -/
def rndWith (r : Byte) (x : Reg) (nn : Byte) (s : State) : Result :=
  .next (((s.setReg x (r &&& nn)).sampled).advance 2#16)

/-- `RND Vx,nn` (R97): the byte is the free value of this sample (R25). -/
def execRnd (x : Reg) (nn : Byte) (s : State) : Result := rndWith (Config.rnd s.rndIndex) x nn s

end Sys2Proof.Machine
end

