-- ==== Sys2Proof/Machine/Index.lean ====
section
/-! DEFINITION. The instructions that write the index register: `LD I,nnn` (spec/45_famA_B_C.md R95), `ADD I,Vx`
and `LD F,Vx` (spec/48_famF_misc.md R107, R108). -/

namespace Sys2Proof.Machine

/-- `LD I,nnn` (R95). -/
def execLdI (nnn : Addr) (s : State) : Result := .next ((s.setI (address nnn)).advance 2#16)

/-- `ADD I,Vx` (R107): the sum wraps at 16 bits and no flag is written. -/
def execAddI (x : Reg) (s : State) : Result :=
  .next ((s.setI (s.i + (s.reg x).setWidth 16)).advance 2#16)

/-- `LD F,Vx` (R108). -/
def execLdF (x : Reg) (s : State) : Result := .next ((s.setI (glyphAddress (s.reg x))).advance 2#16)

end Sys2Proof.Machine
end

