-- ==== Sys2Proof/Machine/Keys.lean ====
section
/-! DEFINITION. The instructions that read the input latch: `SKP Vx`, `SKNP Vx` (spec/47_famE_keys.md) and
`LD Vx,K` (spec/48_famF_misc.md R104). -/

namespace Sys2Proof.Machine

/-- `SKP Vx` (R101). -/
def execSkp (x : Reg) (s : State) : Result :=
  s.orFault (keyCheck (s.reg x)) (s.skipIf (s.keyDown (s.reg x).toNat))

/-- `SKNP Vx` (R102). -/
def execSknp (x : Reg) (s : State) : Result :=
  s.orFault (keyCheck (s.reg x)) (s.skipIf (!s.keyDown (s.reg x).toNat))

/-- `LD Vx,K` (R104): with no key pressed the instruction stalls, which writes nothing, so that it runs again at
the next step. -/
def execLdVxK (x : Reg) (s : State) : Result :=
  .next (if s.key = 0#16 then s
    else (s.setReg x ((pickKey s.cfg.keyPick s.key).setWidth 8)).advance 2#16)

end Sys2Proof.Machine
end

