-- ==== Sys2Proof/Machine/Timers.lean ====
section
/-! DEFINITION. The timer instructions (spec/48_famF_misc.md R103, R105, R106) and the thirty-fifth operation,
`LD Vx,ST` (R112). -/

namespace Sys2Proof.Machine

/-- `LD Vx,DT` (R103). -/
def execLdVxDT (x : Reg) (s : State) : Result := .next ((s.setReg x s.dt).advance 2#16)

/-- `LD DT,Vx` (R105). -/
def execLdDTVx (x : Reg) (s : State) : Result := .next ({ s with dt := s.reg x }.advance 2#16)

/-- `LD ST,Vx` (R106). -/
def execLdSTVx (x : Reg) (s : State) : Result := .next ({ s with st := s.reg x }.advance 2#16)

/-- `LD Vx,ST` (R112), reached only when `RDST_SEL` is present. -/
def execLdVxST (x : Reg) (s : State) : Result := .next ((s.setReg x s.st).advance 2#16)

end Sys2Proof.Machine
end

