-- ==== Sys2Proof/Machine/Cycle.lean ====
section
/-! DEFINITION. What surrounds the dispatch in a step: the fetch (spec/40_step.md R66), decode errors
(spec/30_encoding.md R59), the outcome label (R70) and the tick (R65, R69). Machine/Step.lean only calls it. -/

namespace Sys2Proof.Machine

/-- The fetched word, or none when `PC > 0xFFE` (R44, R66). -/
def State.fetch (s : State) : Option Word :=
  if s.pc.toNat ≤ 0xFFE then some (s.mem.readWord s.pc.toNat) else none

/-- The first decode error since reset is recorded, and only the first (R59). -/
def State.diagnose (s : State) (w : Word) : State :=
  if s.diag then s else { s with diag := true, diagPc := s.pc, diagWord := w }

/-- `Unknown(w)` (R59): with `STRICT_DECODE` the halting fault `IllegalOpcode`, else the diagnostic and an advance
by 2. -/
def State.unknown (s : State) (w : Word) : State :=
  if s.cfg.strictDecode then s.raise .illegalOpcode (w.setWidth 17) else (s.diagnose w).advance 2#16

/-- Decode and dispatch of a fetched word (R57, R65): a row of the table, else `LD Vx,ST` when `RDST_SEL` selects
it (R112), else an unknown opcode. -/
def runWord (w : Word) (s : State) : Result :=
  match decode w with
  | .ok i => exec i s
  | .error _ =>
    match decodeReadSound s.cfg.rdstSel w with
    | some x => execLdVxST x s
    | none => .next (s.unknown w)

/-- Does the word stall in this state: `LD Vx,K` with no key pressed (R29, R70)? -/
def wordStalls (w : Word) (s : State) : Bool :=
  match decode w with
  | .ok i => i.waitsForKey && s.key == 0#16
  | .error _ => false

/-- Is the word unknown to this machine (R59, R60)? -/
def wordUnknown (w : Word) (s : State) : Bool :=
  match decode w with
  | .ok _ => false
  | .error _ => (decodeReadSound s.cfg.rdstSel w).isNone

/-- The label of running the word from `s` to `t` (R70), for a state `s` that is not halted. -/
def wordLabel (w : Word) (s t : State) : Label :=
  if t.halted then .faulted
  else if wordStalls w s then .stalled
  else if wordUnknown w s then .decodeError
  else .executed

/-- Does a step with this label tick the timers (R65)? -/
def Label.ticks (c : Config) : Label → Bool
  | .executed | .decodeError => c.timerMode == .perStep
  | .stalled => c.timerMode == .perStep && c.stallTicks
  | .faulted | .halted => false

/-- The last part of a step: the tick, when the label asks for it (R65), and a step has been taken (R71). -/
def State.afterDispatch (s : State) (l : Label) : State := (if l.ticks s.cfg then s.tick else s).launched

/-- The rest of a step after a word was fetched (R65): its label and its outcome. -/
def finishWord (w : Word) (s : State) : Label × Result :=
  match runWord w s with
  | .next t => (wordLabel w s t, .next (t.afterDispatch (wordLabel w s t)))
  | .fault f => (.faulted, .fault f)
  | .refused r => (.faulted, .refused r)

/-- `Step` (R65) with its label: halted, then the fetch, then decode, dispatch and tick (the priority of R118). -/
def State.cycle (s : State) : Label × Result :=
  if s.halted then (.halted, .next s)
  else
    match s.fetch with
    | none => (.faulted, .next (s.raise .fetchBounds (boundsInfo s.pc)).launched)
    | some w => finishWord w s

/-- The outcome label of the step from this state (R29, R70). -/
def State.label (s : State) : Label := s.cycle.1

/-- A word placed where the next fetch reads it, as the host places a program (R40, R71): nothing else changes;
where no fetch can succeed (`PC > 0xFFE`) nothing is placed. -/
def State.placeWord (s : State) (w : Word) : State :=
  if s.pc.toNat ≤ 0xFFE then { s with mem := s.mem.writeBytes s.pc.toNat (wordBytes w) } else s

end Sys2Proof.Machine
end

