-- ==== Sys2Proof/Machine/Step.lean ====
section
/-! DEFINITION. One step of the core (spec/40_step.md R65), and the placing of a word where it is fetched. -/

namespace Sys2Proof.Machine

/-- The event `Step` (R65). -/
def step (s : State) : Host.Outcome State Fault Refusal := s.cycle.2

/-- The state with a table word of `nbits` bits stored where `step` fetches its next instruction
(notes/assumptions/17.md says how a program comes to run). -/
def State.withFetchWord (s : State) (nbits w : Nat) : State := s.placeWord (tableWord nbits w)

end Sys2Proof.Machine
end

