-- ==== Sys2Proof/Machine/Events.lean ====
section
/-! DEFINITION. The events of the host and of the external timer (spec/40_step.md R69, R71 to R74;
spec/70_reset_and_hazards.md R132, R137), and a run as a sequence of events (spec/10_state.md R30). They fall
between steps, never inside one. -/

namespace Sys2Proof.Machine

/-- The event `Tick` (R69), which exists only when `TIMER_MODE = External` and has no effect while the core is
halted (R120). -/
def State.externalTick (s : State) : Result :=
  match s.cfg.timerMode with
  | .perStep => .refused .noTickInput
  | .external => .next (if s.halted then s else s.tick)

/-- `SetKeys(k)` (R72). -/
def State.setKeys (s : State) (k : Word) : State := { s with key := k }

/-- `AckDraw` (R73). -/
def State.ackDraw (s : State) : State := { s with draw := false }

/-- Cells written one after another. -/
def Memory.writeCells : Memory → List Host.Cell → Memory
  | m, [] => m
  | m, c :: cs => Memory.writeCells (m.write c.1 c.2) cs

/-- Memory at reset (R32, R133): the glyph table `GLYPHS` at 0x000 to 0x04F, and `MEM_INIT` above it, an address
it does not list holding 0. -/
def resetMemory (c : Config) : Memory := (Memory.writeBytes [] 0 c.glyphs).writeCells c.memInit

/-- The reset state of a machine with this configuration (R32), when `k` random bytes have been sampled. -/
def State.resetFor (c : Config) (k : Nat) : State :=
  { State.reset with cfg := c, mem := resetMemory c, rndIndex := k }

/-- `Reset` (R74, R132): every piece of state gets its reset value, whatever it was, and a `Load` is admitted again
(R71). The configuration is the machine's and stays, and so does the count of samples, since the random source is outside the block (R25). -/
def State.resetEvent (s : State) : State := State.resetFor s.cfg s.rndIndex

/-- The largest image: 3584 bytes (R4 `MAX_IMAGE`). -/
def maxImage : Nat := 3584

/-- The effect of `Load(image)` (R71): all or nothing, from 0x200 upward, and nothing but memory changes. A failed
load changes nothing; a load that succeeds is the only one of its launch sequence (R137: one successful load). -/
def State.loadImage (s : State) (image : List Byte) : Result :=
  if maxImage < image.length then .refused .imageTooLong
  else .next { s with mem := s.mem.writeBytes 0x200 image, atLaunch := false }

/-- An event, as the machine takes it (R9, R27). `Load` outside the launch sequence has no meaning (R71, U22). -/
def event (e : Event) (s : State) : Result :=
  match e with
  | .step => step s
  | .tick => s.externalTick
  | .setKeys k => .next (s.setKeys k)
  | .ackDraw => .next s.ackDraw
  | .reset => .next s.resetEvent
  | .load image => if s.atLaunch then s.loadImage image else .fault .loadOutsideLaunch

/-- A run: events one after another, stopping at the first that has no next state (R30, R137). -/
def run : List Event → State → Result
  | [], s => .next s
  | e :: es, s =>
    match event e s with
    | .next t => run es t
    | .fault f => .fault f
    | .refused r => .refused r

/-- The launch state of an image (R137): the reset state with the image loaded, or the failed load. -/
def launch (c : Config) (image : List Byte) : Result := (State.resetFor c 0).loadImage image

end Sys2Proof.Machine
end

