-- ==== Sys2Proof/Safety.lean ====
section
/-! DEFINITION. What counts as a safe run and as its end (spec/60_exceptions.md R120; spec/70_reset_and_hazards.md
R137, R146), and the invariant of the machine that claims may take as a premise. -/

namespace Sys2Proof.Safety

open Sys2Proof Sys2Proof.Machine

/-- No fault is recorded, and no decode error has been executed (R59, R120: what a claim should carry). -/
def clean (s : State) : Bool := !s.halted && !s.diag

/-- The state's `PC` holds the address of a `JP` to itself (R146). -/
def atSelfJump (s : State) : Bool :=
  match s.fetch with
  | some w => decode w == .ok (.jp (s.pc.setWidth 12)) && decide (s.pc.toNat < 4096)
  | none => false

/-- A run has ended well: no fault, at a self-jump (R146). -/
def endedWell (s : State) : Bool := !s.halted && atSelfJump s

/-- A run has ended badly: a fault is recorded (R146). -/
def endedBadly (s : State) : Bool := s.halted

/-- A stall (R29): no fault, the word at `PC` is `LD Vx,K`, and no key is pressed. -/
def awaitingKey (s : State) : Bool :=
  match s.fetch with
  | some w => !s.halted && wordStalls w s
  | none => false

/-- The glyph table reads as `GLYPHS` (R37, R38, R133). -/
def glyphsIntact (s : State) : Prop := ∀ a, a < 80 → s.mem.read a = s.cfg.glyphs.getD a 0#8

/-- The range of `PC` in every run, and of the addresses on the stack (R68: the largest value an advance, a
return or a jump can give; R78: a pushed address was fetched from). -/
def pcInRange (s : State) : Prop :=
  s.pc.toNat ≤ 0x10FE ∧ ∀ k : Fin 16, k.val < s.sp.val → s.stack[k].toNat ≤ 0xFFE

/-- While no fault and no decode error is recorded, the registers that would hold them are zero (R26, R32). -/
def recordsBlank (s : State) : Prop :=
  (s.fault = .noFault → s.faultPc = 0#16 ∧ s.faultInfo = 0#17) ∧
  (s.diag = false → s.diagPc = 0#16 ∧ s.diagWord = 0#16)

/-- The invariant of the machine: memory in its canonical form, the glyph table intact, `PC` and the stack in
range, blank records blank, the configuration well formed, and no fault before the first step (a fault is detected
during a step: R114). -/
structure Inv (s : State) : Prop where
  memory : s.mem.wf
  glyphs : glyphsIntact s
  range : pcInRange s
  records : recordsBlank s
  config : s.cfg.wf = true
  launch : s.atLaunch = true → s.fault = .noFault

end Sys2Proof.Safety
end

