-- ==== Sys2Proof/Certificates/Slice0/Obligations.lean ====
section
/-! DEFINITION. What is claimed of the machine: one statement for each numbered rule of spec/ that says what an
instruction or the machine does, the frames of the instructions, the invariant, and the rules about the whole
machine. A frame is written `t = { s with … }`: the fields named are the only ones that may differ, and what they
hold is said beside it. A rule's "Faults: none" is that the conclusion is a next state for every state. -/

namespace Sys2Proof.Claims

open Sys2Proof Sys2Proof.Machine

/-- The machine is not halted, its fetch is inside memory, and the word at `PC` is the instruction (R65, R66). -/
def Fetches (s : State) (i : Instr) : Prop :=
  s.fault = .noFault ∧ s.pc.toNat ≤ 0xFFE ∧
    decode (s.mem.read s.pc.toNat ++ s.mem.read (s.pc.toNat + 1)) = .ok i

/-- The machine is not halted, its fetch is inside memory, and the word at `PC` is unknown to it: no row of the
table, and not selected by `RDST_SEL` (R57, R59, R60). -/
def FetchesUnknown (s : State) (w : Word) : Prop :=
  s.fault = .noFault ∧ s.pc.toNat ≤ 0xFFE ∧ w = s.mem.read s.pc.toNat ++ s.mem.read (s.pc.toNat + 1) ∧
    (∃ e, decode w = .error e) ∧ ¬ (fieldOp w = 0xF#4 ∧ s.cfg.rdstSel = some (fieldNN w))

/-- `t` is `s` with a halting fault recorded and nothing else changed (R116). -/
def Faults (s t : State) (cause : FaultCause) (info : BitVec 17) : Prop :=
  t = { s with fault := cause, faultPc := s.pc, faultInfo := info }

/-- `t` is `s` after a step with a halting fault recorded and nothing else of the machine changed (R116); a step also
ends the launch sequence (R71). -/
def StepFaults (s t : State) (cause : FaultCause) (info : BitVec 17) : Prop :=
  t = { s with fault := cause, faultPc := s.pc, faultInfo := info, atLaunch := false }

/-- The register writes of a flag-writing family-8 instruction, `PC` and the frame (R85): with `x ≠ 15` both values
stand, with `x = 15` the one that `VF_ORDER` writes later. -/
def WritesResultAndFlag (s t : State) (x : Reg) (result flag : Byte) : Prop :=
  t = { s with v := t.v, pc := t.pc } ∧ t.pc = s.pc + 2#16 ∧
  (x ≠ 0xF#4 → t.reg x = result ∧ t.reg 0xF#4 = flag) ∧
  (x = 0xF#4 → s.cfg.vfOrder = .flagThenResult → t.reg 0xF#4 = result) ∧
  (x = 0xF#4 → s.cfg.vfOrder = .resultThenFlag → t.reg 0xF#4 = flag) ∧
  ∀ r, r ≠ x → r ≠ 0xF#4 → t.reg r = s.reg r

/-- One register written, `PC` advanced by 2, and nothing else changed. -/
def WritesRegister (s t : State) (x : Reg) (result : Byte) : Prop :=
  t = { s with v := t.v, pc := t.pc } ∧ t.pc = s.pc + 2#16 ∧ t.reg x = result ∧
  ∀ r, r ≠ x → t.reg r = s.reg r

/-- The cell is hit by a sprite bit 1 of the first `n` rows (R98, R99, R100: the mask S). -/
def SpriteHits (s : State) (x y : Reg) (n : Nat) (c : Nat) : Prop :=
  ∃ k j, k < n ∧ j < 8 ∧ (s.mem.read (s.ea k)).getLsbD (7 - j) = true ∧
    ((s.reg y).toNat + k) % 32 * 64 + ((s.reg x).toNat + j) % 64 = c

/-- The number of bytes an instruction accesses at `I` (R43, R47). -/
def dataLength : Instr → Nat
  | .drw _ _ n => n.toNat
  | .ldB _ => 3
  | .storeRegs x => x.toNat + 1
  | .loadRegs x => x.toNat + 1
  | _ => 0

/-- Does the instruction store to memory (R45, R47)? -/
def stores : Instr → Bool
  | .ldB _ => true
  | .storeRegs _ => true
  | _ => false

/-- The register an instruction names as its destination (R33); for `LD Vx,[I]` the last of them. -/
def destination : Instr → Option Reg
  | .ldImm x _ | .addImm x _ | .rnd x _ => some x
  | .ldReg x _ | .orReg x _ | .andReg x _ | .xorReg x _ => some x
  | .addReg x _ | .subReg x _ | .shr x _ | .subnReg x _ | .shl x _ => some x
  | .ldVxDT x | .ldVxK x | .loadRegs x => some x
  | _ => none

/-- The instructions that write `VF` as a side effect (R14). -/
def writesFlag : Instr → Bool
  | .addReg _ _ | .subReg _ _ | .shr _ _ | .subnReg _ _ | .shl _ _ | .drw _ _ _ => true
  | _ => false

/-- The five flag-writing instructions of family 8 (R85). -/
def flagWritingAlu (x y : Reg) : List Instr := [.addReg x y, .subReg x y, .shr x y, .subnReg x y, .shl x y]

/-- States that agree but for the stack entries not in use (R17). -/
def AgreeOnStackInUse (s u : State) : Prop :=
  u = { s with stack := u.stack } ∧ ∀ k : Fin 16, k.val < s.sp.val → u.stack[k] = s.stack[k]

/-- The byte `MEM_INIT` gives an address: what the configuration lists for it, else 0 (notes/assumptions/5.md). -/
def memInitByte (c : Config) (a : Nat) : Byte :=
  match c.memInit.find? (fun d => d.1 == a) with
  | some d => d.2
  | none => 0#8

/-- The default `GLYPHS`, digit by digit, written out from the table of spec/20_memory.md R38. -/
def glyphTable : List Byte :=
  [0xF0, 0x90, 0x90, 0x90, 0xF0] ++ [0x20, 0x60, 0x20, 0x20, 0x70] ++ [0xF0, 0x10, 0xF0, 0x80, 0xF0] ++
  [0xF0, 0x10, 0xF0, 0x10, 0xF0] ++ [0x90, 0x90, 0xF0, 0x10, 0x10] ++ [0xF0, 0x80, 0xF0, 0x10, 0xF0] ++
  [0xF0, 0x80, 0xF0, 0x90, 0xF0] ++ [0xF0, 0x10, 0x20, 0x40, 0x40] ++ [0xF0, 0x90, 0xF0, 0x90, 0xF0] ++
  [0xF0, 0x90, 0xF0, 0x10, 0xF0] ++ [0xF0, 0x90, 0xF0, 0x90, 0x90] ++ [0xE0, 0x90, 0xE0, 0x90, 0xE0] ++
  [0xF0, 0x80, 0x80, 0x80, 0xF0] ++ [0xE0, 0x90, 0x90, 0x90, 0xE0] ++ [0xF0, 0x80, 0xF0, 0x80, 0xF0] ++
  [0xF0, 0x80, 0xF0, 0x80, 0x80]

end Sys2Proof.Claims

open Sys2Proof Sys2Proof.Machine Sys2Proof.Claims

/-! ### Encoding (spec/30_encoding.md) -/

/-- Decoding an encoded instruction gives it back, with every operand at every value (R54 to R57), from the word
and from the head of a byte stream (R40). -/
def Obligations.DecodeOfEncodeIsTheInstruction : Prop :=
  ∀ i : Instr, i.wf = true → decode (encode i) = .ok i ∧
    ∀ rest, decodeBytes (encodeBytes i ++ rest) = .ok (i, rest)

/-- A word that decodes is the word of its instruction: each word has one meaning and no bit of it is dropped. -/
def Obligations.EncodeOfDecodeIsTheWord : Prop :=
  ∀ (w : Word) (i : Instr), decode w = .ok i → encode i = w

/-- R57: the rows of the opcode map are pairwise disjoint, a word is an instruction exactly when a row holds it, and
`RDST_SEL = s` adds the row (0xF000 or s, 0xF0FF), disjoint from the others when s is none of the nine selectors. -/
def Obligations.DecoderFollowsTheOpcodeMap : Prop :=
  opcodeTable.length = 34 ∧
  opcodeTable.Pairwise (fun r q => ∀ w : Word, ¬ (r.holds w = true ∧ q.holds w = true)) ∧
  (∀ w : Word, (∃ i, decode w = .ok i) ↔ ∃ r ∈ opcodeTable, r.holds w = true) ∧
  (∀ w : Word, decodeReadSound none w = none) ∧
  (∀ (s : Byte) (w : Word) (x : Reg), decodeReadSound (some s) w = some x ↔
    (w &&& 0xF0FF#16) = (0xF000#16 ||| s.setWidth 16) ∧ x = fieldX w) ∧
  ∀ (s : Byte) (w : Word), s ∉ familyFSelectors → (w &&& 0xF0FF#16) = (0xF000#16 ||| s.setWidth 16) →
    ∃ e, decode w = .error e

/-- R60: the unknown words, family by family. -/
def Obligations.UnknownWordsByFamily : Prop :=
  ∀ w : Word, (∃ e, decode w = .error e) ↔
    (fieldOp w = 0x0#4 ∧ w ≠ 0x00E0#16 ∧ w ≠ 0x00EE#16) ∨
    (fieldOp w = 0x5#4 ∧ fieldN w ≠ 0x0#4) ∨
    (fieldOp w = 0x8#4 ∧ fieldN w ∈ [0x8#4, 0x9#4, 0xA#4, 0xB#4, 0xC#4, 0xD#4, 0xF#4]) ∨
    (fieldOp w = 0x9#4 ∧ fieldN w ≠ 0x0#4) ∨
    (fieldOp w = 0xE#4 ∧ fieldNN w ≠ 0x9E#8 ∧ fieldNN w ≠ 0xA1#8) ∨
    (fieldOp w = 0xF#4 ∧
      fieldNN w ∉ [0x07#8, 0x0A#8, 0x15#8, 0x18#8, 0x1E#8, 0x29#8, 0x33#8, 0x55#8, 0x65#8])

/-- Twelve words written out from the spec's encodings decode to the instructions they stand for (R62, and the words
of spec/95_test_vectors.md), and two more are rejected. -/
def Obligations.WrittenOutWordsDecode : Prop :=
  decode 0x6005#16 = .ok (.ldImm 0#4 0x05#8) ∧ decode 0x7003#16 = .ok (.addImm 0#4 0x03#8) ∧
  decode 0x2300#16 = .ok (.call 0x300#12) ∧ decode 0x00EE#16 = .ok .ret ∧
  decode 0x3A42#16 = .ok (.seImm 0xA#4 0x42#8) ∧ decode 0x9120#16 = .ok (.sneReg 1#4 2#4) ∧
  decode 0x80F4#16 = .ok (.addReg 0#4 0xF#4) ∧ decode 0x812E#16 = .ok (.shl 1#4 2#4) ∧
  decode 0xBFFF#16 = .ok (.jpV0 0xFFF#12) ∧ decode 0xD012#16 = .ok (.drw 0#4 1#4 2#4) ∧
  decode 0xE4A1#16 = .ok (.sknp 4#4) ∧ decode 0xF265#16 = .ok (.loadRegs 2#4) ∧
  decode 0x5121#16 = .error .unknown5 ∧ decode 0x0000#16 = .error .unknown0

/-! ### Families 0, 1, 2 (spec/41_fam0_1_2_flow.md) and `JP V0,nnn` -/

/-- R75, `CLS`. -/
def Obligations.ClsClearsTheScreen : Prop :=
  decode 0x00E0#16 = .ok .cls ∧
  ∀ s : State, ∃ t, exec .cls s = .next t ∧ t = { s with fb := t.fb, draw := t.draw, pc := t.pc } ∧
    (∀ c, c < 2048 → Screen.cell t.fb c = false) ∧ t.draw = true ∧ t.pc = s.pc + 2#16

/-- R76, `RET`: for each count of entries in use, `k + 1`, and for the empty stack. -/
def Obligations.RetPopsAndAddsTwo : Prop :=
  decode 0x00EE#16 = .ok .ret ∧
  (∀ (s : State) (k : Fin 16), s.sp.val = k.val + 1 → ∃ t, exec .ret s = .next t ∧
    t = { s with sp := t.sp, pc := t.pc } ∧ t.sp.val = k.val ∧ t.pc = s.stack[k] + 2#16) ∧
  ∀ s : State, s.sp.val = 0 → ∃ t, exec .ret s = .next t ∧ Faults s t .stackUnderflow 0#17

/-- R77, `JP nnn`. -/
def Obligations.JpGoesToItsAddress : Prop :=
  ∀ (nnn : Addr) (s : State), decode (0x1#4 ++ nnn) = .ok (.jp nnn) ∧
    ∃ t, exec (.jp nnn) s = .next t ∧ t = { s with pc := t.pc } ∧ t.pc = 0x0#4 ++ nnn

/-- R78, `CALL nnn`: for each count of entries in use below 16, and for the full stack. -/
def Obligations.CallPushesItsOwnAddress : Prop :=
  ∀ (nnn : Addr) (s : State), decode (0x2#4 ++ nnn) = .ok (.call nnn) ∧
    (∀ k : Fin 16, s.sp.val = k.val → ∃ t, exec (.call nnn) s = .next t ∧
      t = { s with sp := t.sp, stack := t.stack, pc := t.pc } ∧ t.sp.val = k.val + 1 ∧ t.stack[k] = s.pc ∧
      (∀ j : Fin 16, j ≠ k → t.stack[j] = s.stack[j]) ∧ t.pc = 0x0#4 ++ nnn) ∧
    (s.sp.val = 16 → ∃ t, exec (.call nnn) s = .next t ∧ Faults s t .stackOverflow (0#5 ++ nnn))

/-- R96, `JP V0,nnn`: the exact sum, not reduced modulo 4096. -/
def Obligations.JpV0AddsRegisterZero : Prop :=
  ∀ (nnn : Addr) (s : State), decode (0xB#4 ++ nnn) = .ok (.jpV0 nnn) ∧
    ∃ t, exec (.jpV0 nnn) s = .next t ∧ t = { s with pc := t.pc } ∧
      t.pc.toNat = nnn.toNat + (s.reg 0#4).toNat

/-! ### Skips (spec/42_fam3_4_5_9_skips.md, spec/47_famE_keys.md) -/

/-- R79 and R80, `SE Vx,nn` and `SNE Vx,nn`. -/
def Obligations.SkipsComparingAnImmediate : Prop :=
  ∀ (x : Reg) (nn : Byte) (s : State),
    decode (0x3#4 ++ x ++ nn) = .ok (.seImm x nn) ∧ decode (0x4#4 ++ x ++ nn) = .ok (.sneImm x nn) ∧
    (∃ t, exec (.seImm x nn) s = .next t ∧ t = { s with pc := t.pc } ∧
      (s.reg x = nn → t.pc = s.pc + 4#16) ∧ (s.reg x ≠ nn → t.pc = s.pc + 2#16)) ∧
    ∃ t, exec (.sneImm x nn) s = .next t ∧ t = { s with pc := t.pc } ∧
      (s.reg x ≠ nn → t.pc = s.pc + 4#16) ∧ (s.reg x = nn → t.pc = s.pc + 2#16)

/-- R81 and R82, `SE Vx,Vy` and `SNE Vx,Vy`; any other `w[3:0]` is an unknown opcode. -/
def Obligations.SkipsComparingTwoRegisters : Prop :=
  ∀ (x y : Reg) (s : State),
    decode (0x5#4 ++ x ++ y ++ 0x0#4) = .ok (.seReg x y) ∧
    decode (0x9#4 ++ x ++ y ++ 0x0#4) = .ok (.sneReg x y) ∧
    (∀ n : Nibble, n ≠ 0x0#4 → decode (0x5#4 ++ x ++ y ++ n) = .error .unknown5 ∧
      decode (0x9#4 ++ x ++ y ++ n) = .error .unknown9) ∧
    (∃ t, exec (.seReg x y) s = .next t ∧ t = { s with pc := t.pc } ∧
      (s.reg x = s.reg y → t.pc = s.pc + 4#16) ∧ (s.reg x ≠ s.reg y → t.pc = s.pc + 2#16)) ∧
    ∃ t, exec (.sneReg x y) s = .next t ∧ t = { s with pc := t.pc } ∧
      (s.reg x ≠ s.reg y → t.pc = s.pc + 4#16) ∧ (s.reg x = s.reg y → t.pc = s.pc + 2#16)

/-- R101 and R102, `SKP Vx` and `SKNP Vx`: a key index of 0 to 15, and one above 15. -/
def Obligations.SkipsOnKeyState : Prop :=
  ∀ (x : Reg) (s : State),
    decode (0xE#4 ++ x ++ 0x9E#8) = .ok (.skp x) ∧ decode (0xE#4 ++ x ++ 0xA1#8) = .ok (.sknp x) ∧
    ((s.reg x).toNat ≤ 15 →
      (∃ t, exec (.skp x) s = .next t ∧ t = { s with pc := t.pc } ∧
        (s.key.getLsbD (s.reg x).toNat = true → t.pc = s.pc + 4#16) ∧
        (s.key.getLsbD (s.reg x).toNat = false → t.pc = s.pc + 2#16)) ∧
      ∃ t, exec (.sknp x) s = .next t ∧ t = { s with pc := t.pc } ∧
        (s.key.getLsbD (s.reg x).toNat = false → t.pc = s.pc + 4#16) ∧
        (s.key.getLsbD (s.reg x).toNat = true → t.pc = s.pc + 2#16)) ∧
    (15 < (s.reg x).toNat →
      (∃ t, exec (.skp x) s = .next t ∧ Faults s t .keyIndex (0#9 ++ s.reg x)) ∧
      ∃ t, exec (.sknp x) s = .next t ∧ Faults s t .keyIndex (0#9 ++ s.reg x))

/-! ### Families 6, 7, C (spec/43_fam6_7_immediate.md, spec/45_famA_B_C.md) -/

/-- R83, `LD Vx,nn`. -/
def Obligations.LdImmLoadsTheImmediate : Prop :=
  ∀ (x : Reg) (nn : Byte) (s : State), decode (0x6#4 ++ x ++ nn) = .ok (.ldImm x nn) ∧
    ∃ t, exec (.ldImm x nn) s = .next t ∧ WritesRegister s t x nn

/-- R84, `ADD Vx,nn`: the sum mod 256, and no flag: with `x ≠ 15`, `VF` is as before. -/
def Obligations.AddImmWrapsWithoutFlag : Prop :=
  ∀ (x : Reg) (nn : Byte) (s : State), decode (0x7#4 ++ x ++ nn) = .ok (.addImm x nn) ∧
    ∃ t, exec (.addImm x nn) s = .next t ∧
      WritesRegister s t x (BitVec.ofNat 8 (((s.reg x).toNat + nn.toNat) % 256)) ∧
      (x ≠ 0xF#4 → t.reg 0xF#4 = s.reg 0xF#4)

/-- R97, `RND Vx,nn`: the instruction completes with the sampled byte masked, taking one sample; and so it does for
every byte the `rnd` input may give (R25; the free value is notes/assumptions/3.md). -/
def Obligations.RndLoadsAMaskedByte : Prop :=
  ∀ (x : Reg) (nn : Byte) (s : State), decode (0xC#4 ++ x ++ nn) = .ok (.rnd x nn) ∧
    (∃ t, exec (.rnd x nn) s = .next t ∧
      t = { s with v := t.v, rndIndex := s.rndIndex + 1, pc := s.pc + 2#16 } ∧
      t.reg x = (Config.rnd s.rndIndex &&& nn) ∧ ∀ q, q ≠ x → t.reg q = s.reg q) ∧
    exec (.rnd x nn) s = rndWith (Config.rnd s.rndIndex) x nn s ∧
    ∀ r : Byte, ∃ t, rndWith r x nn s = .next t ∧
      t = { s with v := t.v, rndIndex := s.rndIndex + 1, pc := s.pc + 2#16 } ∧ t.reg x = (r &&& nn) ∧
      ∀ q, q ≠ x → t.reg q = s.reg q

/-! ### Family 8 (spec/44_fam8_alu.md) -/

/-- R86 to R89, `LD`, `OR`, `AND` and `XOR` between registers: no flag. -/
def Obligations.LogicalOperationsWriteNoFlag : Prop :=
  ∀ (x y : Reg) (s : State),
    decode (0x8#4 ++ x ++ y ++ 0x0#4) = .ok (.ldReg x y) ∧ decode (0x8#4 ++ x ++ y ++ 0x1#4) = .ok (.orReg x y) ∧
    decode (0x8#4 ++ x ++ y ++ 0x2#4) = .ok (.andReg x y) ∧
    decode (0x8#4 ++ x ++ y ++ 0x3#4) = .ok (.xorReg x y) ∧
    (∃ t, exec (.ldReg x y) s = .next t ∧ WritesRegister s t x (s.reg y)) ∧
    (∃ t, exec (.orReg x y) s = .next t ∧ WritesRegister s t x (s.reg x ||| s.reg y)) ∧
    (∃ t, exec (.andReg x y) s = .next t ∧ WritesRegister s t x (s.reg x &&& s.reg y)) ∧
    ∃ t, exec (.xorReg x y) s = .next t ∧ WritesRegister s t x (s.reg x ^^^ s.reg y)

/-- R90, `ADD Vx,Vy`: the sum mod 256, and 1 if and only if the exact sum exceeds 255. -/
def Obligations.AddRegWritesSumAndCarry : Prop :=
  ∀ (x y : Reg) (s : State), decode (0x8#4 ++ x ++ y ++ 0x4#4) = .ok (.addReg x y) ∧
    ∃ t, exec (.addReg x y) s = .next t ∧
      WritesResultAndFlag s t x (BitVec.ofNat 8 (((s.reg x).toNat + (s.reg y).toNat) % 256))
        (if 255 < (s.reg x).toNat + (s.reg y).toNat then 1#8 else 0#8)

/-- R91 and R93, `SUB Vx,Vy` and `SUBN Vx,Vy`: the non-negative difference mod 256, and the flag under each
setting of `BORROW_FLAG`. -/
def Obligations.SubtractsWriteDifferenceAndBorrow : Prop :=
  ∀ (x y : Reg) (s : State),
    decode (0x8#4 ++ x ++ y ++ 0x5#4) = .ok (.subReg x y) ∧ decode (0x8#4 ++ x ++ y ++ 0x7#4) = .ok (.subnReg x y) ∧
    (∃ t, exec (.subReg x y) s = .next t ∧
      WritesResultAndFlag s t x (BitVec.ofNat 8 (((s.reg x).toNat + 256 - (s.reg y).toNat) % 256))
        (match s.cfg.borrowFlag with
          | .notBorrow => if (s.reg y).toNat ≤ (s.reg x).toNat then 1#8 else 0#8
          | .borrow => if (s.reg x).toNat < (s.reg y).toNat then 1#8 else 0#8)) ∧
    ∃ t, exec (.subnReg x y) s = .next t ∧
      WritesResultAndFlag s t x (BitVec.ofNat 8 (((s.reg y).toNat + 256 - (s.reg x).toNat) % 256))
        (match s.cfg.borrowFlag with
          | .notBorrow => if (s.reg x).toNat ≤ (s.reg y).toNat then 1#8 else 0#8
          | .borrow => if (s.reg y).toNat < (s.reg x).toNat then 1#8 else 0#8)

/-- R92 and R94, `SHR Vx` and `SHL Vx`, with the shifted value under each setting of `SHIFT_SRC`. -/
def Obligations.ShiftsWriteTheBitShiftedOut : Prop :=
  ∀ (x y : Reg) (s : State) (v : Byte),
    (s.cfg.shiftSrc = .x → v = s.reg x) → (s.cfg.shiftSrc = .y → v = s.reg y) →
    decode (0x8#4 ++ x ++ y ++ 0x6#4) = .ok (.shr x y) ∧ decode (0x8#4 ++ x ++ y ++ 0xE#4) = .ok (.shl x y) ∧
    (∃ t, exec (.shr x y) s = .next t ∧
      WritesResultAndFlag s t x (BitVec.ofNat 8 (v.toNat / 2)) (BitVec.ofNat 8 (v.toNat % 2))) ∧
    ∃ t, exec (.shl x y) s = .next t ∧
      WritesResultAndFlag s t x (BitVec.ofNat 8 (v.toNat * 2 % 256)) (BitVec.ofNat 8 (v.toNat / 128))

/-- R85 (1): for `x ≠ 15` the two settings of `VF_ORDER` give the same state. -/
def Obligations.WriteOrderMattersOnlyForVF : Prop :=
  ∀ (x y : Reg) (i : Instr) (s t : State) (o : VfOrder), x ≠ 0xF#4 → i ∈ flagWritingAlu x y →
    exec i s = .next t →
    exec i { s with cfg := { s.cfg with vfOrder := o } } = .next { t with cfg := { t.cfg with vfOrder := o } }

/-! ### Index register, timers, memory moves (spec/45_famA_B_C.md, spec/48_famF_misc.md) -/

/-- R95, `LD I,nnn`. -/
def Obligations.LdILoadsTheAddress : Prop :=
  ∀ (nnn : Addr) (s : State), decode (0xA#4 ++ nnn) = .ok (.ldI nnn) ∧
    ∃ t, exec (.ldI nnn) s = .next t ∧ t = { s with i := t.i, pc := s.pc + 2#16 } ∧ t.i = 0x0#4 ++ nnn

/-- R107 and R108, `ADD I,Vx` (the wrap at 16 bits is the spec's decision D21) and `LD F,Vx` (the glyph of digit d
at 5 × d is D16). -/
def Obligations.IndexArithmeticWritesNoFlag : Prop :=
  ∀ (x : Reg) (s : State),
    decode (0xF#4 ++ x ++ 0x1E#8) = .ok (.addI x) ∧ decode (0xF#4 ++ x ++ 0x29#8) = .ok (.ldF x) ∧
    (∃ t, exec (.addI x) s = .next t ∧ t = { s with i := t.i, pc := s.pc + 2#16 } ∧
      t.i.toNat = (s.i.toNat + (s.reg x).toNat) % 65536) ∧
    ∃ t, exec (.ldF x) s = .next t ∧ t = { s with i := t.i, pc := s.pc + 2#16 } ∧
      t.i.toNat = 5 * ((s.reg x).extractLsb' 0 4).toNat

/-- R103, R105 and R106, `LD Vx,DT`, `LD DT,Vx` and `LD ST,Vx`: the dispatch, and the whole step, whose tick comes
after the read and after the write. -/
def Obligations.TimerReadsAndWrites : Prop :=
  ∀ (x : Reg) (s : State),
    decode (0xF#4 ++ x ++ 0x07#8) = .ok (.ldVxDT x) ∧ decode (0xF#4 ++ x ++ 0x15#8) = .ok (.ldDTVx x) ∧
    decode (0xF#4 ++ x ++ 0x18#8) = .ok (.ldSTVx x) ∧
    (∃ t, exec (.ldVxDT x) s = .next t ∧ WritesRegister s t x s.dt) ∧
    (∃ t, exec (.ldDTVx x) s = .next t ∧ t = { s with dt := s.reg x, pc := s.pc + 2#16 }) ∧
    (∃ t, exec (.ldSTVx x) s = .next t ∧ t = { s with st := s.reg x, pc := s.pc + 2#16 }) ∧
    (Fetches s (.ldVxDT x) → ∃ t, step s = .next t ∧ t.reg x = s.dt ∧
      (s.cfg.timerMode = .perStep → t.dt.toNat = s.dt.toNat - 1) ∧
      (s.cfg.timerMode = .external → t.dt = s.dt)) ∧
    (Fetches s (.ldDTVx x) → ∃ t, step s = .next t ∧
      (s.cfg.timerMode = .perStep → t.dt.toNat = (s.reg x).toNat - 1 ∧ t.st.toNat = s.st.toNat - 1) ∧
      (s.cfg.timerMode = .external → t.dt = s.reg x ∧ t.st = s.st)) ∧
    (Fetches s (.ldSTVx x) → ∃ t, step s = .next t ∧
      (s.cfg.timerMode = .perStep → t.st.toNat = (s.reg x).toNat - 1 ∧ t.dt.toNat = s.dt.toNat - 1) ∧
      (s.cfg.timerMode = .external → t.st = s.reg x ∧ t.dt = s.dt))

/-- R104, `LD Vx,K`: the stall, and the index of a pressed key, the lowest with the default `KEY_PICK`. -/
def Obligations.LdKWaitsForAKey : Prop :=
  ∀ (x : Reg) (s : State), decode (0xF#4 ++ x ++ 0x0A#8) = .ok (.ldVxK x) ∧
    (s.key = 0#16 → exec (.ldVxK x) s = .next s) ∧
    (s.key ≠ 0#16 → ∃ (t : State) (k : Reg), exec (.ldVxK x) s = .next t ∧ WritesRegister s t x (0#4 ++ k) ∧
      s.key.getLsbD k.toNat = true ∧
      (s.cfg.keyPick = .lowest → ∀ j, j < k.toNat → s.key.getLsbD j = false))

/-- R109, `LD B,Vx`: the digits at `I`, `I + 1`, `I + 2`, every other byte unchanged, and the two faults. -/
def Obligations.LdBStoresThreeDigits : Prop :=
  ∀ (x : Reg) (s : State), decode (0xF#4 ++ x ++ 0x33#8) = .ok (.ldB x) ∧
    (0x04F < s.ea 0 → s.ea 2 ≤ 0xFFF → ∃ t, exec (.ldB x) s = .next t ∧
      t = { s with mem := t.mem, pc := s.pc + 2#16 } ∧
      (t.mem.read (s.ea 0)).toNat = (s.reg x).toNat / 100 ∧
      (t.mem.read (s.ea 1)).toNat = (s.reg x).toNat / 10 % 10 ∧
      (t.mem.read (s.ea 2)).toNat = (s.reg x).toNat % 10 ∧
      ∀ a, a < s.ea 0 ∨ s.ea 2 < a → t.mem.read a = s.mem.read a) ∧
    (0xFFF < s.ea 2 → ∃ t, exec (.ldB x) s = .next t ∧
      Faults s t .dataBounds (BitVec.ofNat 17 (max s.i.toNat 0x1000))) ∧
    (s.ea 0 ≤ 0x04F → ∃ t, exec (.ldB x) s = .next t ∧ Faults s t .glyphWrite (0#1 ++ s.i))

/-- R110, `LD [I],Vx`: `V[0]` to `V[x]` at `I` to `I + x`, every other byte unchanged, and the two faults. -/
def Obligations.StoreRegsStoresZeroToX : Prop :=
  ∀ (x : Reg) (s : State), decode (0xF#4 ++ x ++ 0x55#8) = .ok (.storeRegs x) ∧
    (0x04F < s.ea 0 → s.ea x.toNat ≤ 0xFFF → ∃ t, exec (.storeRegs x) s = .next t ∧
      t = { s with mem := t.mem, pc := s.pc + 2#16 } ∧
      (∀ r : Reg, r.toNat ≤ x.toNat → t.mem.read (s.ea r.toNat) = s.reg r) ∧
      ∀ a, a < s.ea 0 ∨ s.ea x.toNat < a → t.mem.read a = s.mem.read a) ∧
    (0xFFF < s.ea x.toNat → ∃ t, exec (.storeRegs x) s = .next t ∧
      Faults s t .dataBounds (BitVec.ofNat 17 (max s.i.toNat 0x1000))) ∧
    (s.ea 0 ≤ 0x04F → ∃ t, exec (.storeRegs x) s = .next t ∧ Faults s t .glyphWrite (0#1 ++ s.i))

/-- R111, `LD Vx,[I]`: `V[0]` to `V[x]` from `I` to `I + x`, the other registers and memory unchanged, and the
fault. -/
def Obligations.LoadRegsLoadsZeroToX : Prop :=
  ∀ (x : Reg) (s : State), decode (0xF#4 ++ x ++ 0x65#8) = .ok (.loadRegs x) ∧
    (s.ea x.toNat ≤ 0xFFF → ∃ t, exec (.loadRegs x) s = .next t ∧
      t = { s with v := t.v, pc := s.pc + 2#16 } ∧
      (∀ r : Reg, r.toNat ≤ x.toNat → t.reg r = s.mem.read (s.ea r.toNat)) ∧
      ∀ r : Reg, x.toNat < r.toNat → t.reg r = s.reg r) ∧
    (0xFFF < s.ea x.toNat → ∃ t, exec (.loadRegs x) s = .next t ∧
      Faults s t .dataBounds (BitVec.ofNat 17 (max s.i.toNat 0x1000)))

/-- R110 and R111: a store and a load with the same `x` and `I` restore the registers stored, whatever the registers
held in between. -/
def Obligations.StoreThenLoadRestores : Prop :=
  ∀ (x : Reg) (s : State) (v : Vector Byte 16), 0x04F < s.ea 0 → s.ea x.toNat ≤ 0xFFF →
    ∃ t u, exec (.storeRegs x) s = .next t ∧ exec (.loadRegs x) { t with v := v } = .next u ∧
      ∀ r : Reg, r.toNat ≤ x.toNat → u.reg r = s.reg r

/-- R112, `LD Vx,ST`: when `RDST_SEL` is a selector of its own, a step at the word `1111 xxxx ssss ssss` reads the
sound timer as it was before the step's own tick, and changes nothing else but `PC`, the timers and the model's own
field `atLaunch` (a step ends the launch sequence: R71, notes/assumptions/12.md). -/
def Obligations.ReadSoundTimerWhenSelected : Prop :=
  ∀ (x : Reg) (sel : Byte) (s : State), sel ∉ familyFSelectors → s.cfg.rdstSel = some sel →
    s.fault = .noFault → s.pc.toNat ≤ 0xFFE →
    s.mem.read s.pc.toNat = 0xF#4 ++ x → s.mem.read (s.pc.toNat + 1) = sel →
    ∃ t, step s = .next t ∧
      t = { s with v := t.v, pc := s.pc + 2#16, dt := t.dt, st := t.st, atLaunch := false } ∧
      t.reg x = s.st ∧ (∀ r, r ≠ x → t.reg r = s.reg r) ∧
      (s.cfg.timerMode = .perStep → t.dt.toNat = s.dt.toNat - 1 ∧ t.st.toNat = s.st.toNat - 1) ∧
      (s.cfg.timerMode = .external → t.dt = s.dt ∧ t.st = s.st)

/-! ### Family D (spec/46_famD_draw.md) -/

/-- R99 with R98 and R100 (a): `DRW Vx,Vy,n` inverts exactly the cells a sprite bit 1 lands on, reports in `VF`
whether one of them was lit, sets `DRAW`, and faults only when the sprite leaves memory. -/
def Obligations.DrwXorsTheSprite : Prop :=
  ∀ (x y : Reg) (n : Nibble) (s : State), decode (0xD#4 ++ x ++ y ++ n) = .ok (.drw x y n) ∧
    (n = 0#4 ∨ s.i.toNat + n.toNat - 1 ≤ 0xFFF → ∃ t, exec (.drw x y n) s = .next t ∧
      t = { s with v := t.v, fb := t.fb, draw := true, pc := s.pc + 2#16 } ∧
      (∀ c, c < 2048 → SpriteHits s x y n.toNat c → Screen.cell t.fb c = !Screen.cell s.fb c) ∧
      (∀ c, c < 2048 → ¬ SpriteHits s x y n.toNat c → Screen.cell t.fb c = Screen.cell s.fb c) ∧
      ((∃ c, SpriteHits s x y n.toNat c ∧ Screen.cell s.fb c = true) → t.reg 0xF#4 = 1#8) ∧
      ((¬ ∃ c, SpriteHits s x y n.toNat c ∧ Screen.cell s.fb c = true) → t.reg 0xF#4 = 0#8) ∧
      ∀ r, r ≠ 0xF#4 → t.reg r = s.reg r) ∧
    (n ≠ 0#4 → 0xFFF < s.i.toNat + n.toNat - 1 → ∃ t, exec (.drw x y n) s = .next t ∧
      Faults s t .dataBounds (BitVec.ofNat 17 (max s.i.toNat 0x1000)))

/-- R100 (b): drawing the same sprite twice at the same coordinates restores the frame buffer, and the second
draw's collision flag is 1 exactly when the first draw turned on a cell. -/
def Obligations.DoubleDrawRestoresTheScreen : Prop :=
  ∀ (x y : Reg) (n : Nibble) (s : State), x ≠ 0xF#4 → y ≠ 0xF#4 →
    (n = 0#4 ∨ s.i.toNat + n.toNat - 1 ≤ 0xFFF) →
    ∃ t u, exec (.drw x y n) s = .next t ∧ exec (.drw x y n) t = .next u ∧ u.fb = s.fb ∧
      (u.reg 0xF#4 = 1#8 ↔ ∃ c, SpriteHits s x y n.toNat c ∧ Screen.cell s.fb c = false)

/-! ### The step (spec/40_step.md, spec/20_memory.md) -/

/-- R65: when the two bytes at `PC` are an instruction, at any parity of `PC`, a step is its dispatch and then the
tick, which a fault and a machine with external ticks do not have, and a stall only with `STALL_TICKS`. A step also
ends the launch sequence, in the model's own field `atLaunch` (R71). -/
def Obligations.StepRunsTheDecodedInstruction : Prop :=
  ∀ (s d : State) (i : Instr), Fetches s i → exec i s = .next d →
    (d.fault ≠ .noFault → step s = .next d.launched) ∧
    (d.fault = .noFault → s.cfg.timerMode = .external → step s = .next d.launched) ∧
    (d.fault = .noFault → s.cfg.timerMode = .perStep → ¬ (i.waitsForKey = true ∧ s.key = 0#16) →
      step s = .next d.tick.launched) ∧
    (d.fault = .noFault → s.cfg.timerMode = .perStep → i.waitsForKey = true ∧ s.key = 0#16 →
      step s = .next (if s.cfg.stallTicks then d.tick else d).launched)

/-- R44: a fetch with `PC > 0xFFE` records `FetchBounds` and changes nothing else of the machine; the step also ends
the launch sequence, in the model's own field `atLaunch` (R71, notes/assumptions/12.md). -/
def Obligations.FetchOutsideMemoryFaults : Prop :=
  ∀ s : State, s.fault = .noFault → 0xFFE < s.pc.toNat →
    ∃ t, step s = .next t ∧ StepFaults s t .fetchBounds (BitVec.ofNat 17 (max s.pc.toNat 0x1000)) ∧
      (s.pc = 0xFFF#16 → t.faultInfo = 0x1000#17) ∧ (0xFFF < s.pc.toNat → t.faultInfo = 0#1 ++ s.pc)

/-- R59: an unknown opcode is diagnosed and skipped, or with `STRICT_DECODE` is the fault `IllegalOpcode`; either step
also ends the launch sequence, in the model's own field `atLaunch` (R71, notes/assumptions/12.md). -/
def Obligations.UnknownOpcodeIsDiagnosed : Prop :=
  ∀ (s : State) (w : Word), FetchesUnknown s w →
    (s.cfg.strictDecode = false → ∃ t, step s = .next t ∧ s.label = .decodeError ∧
      t = { s with pc := s.pc + 2#16, diag := true, diagPc := t.diagPc, diagWord := t.diagWord,
                   dt := t.dt, st := t.st, atLaunch := false } ∧
      (s.diag = false → t.diagPc = s.pc ∧ t.diagWord = w) ∧
      (s.diag = true → t.diagPc = s.diagPc ∧ t.diagWord = s.diagWord) ∧
      (s.cfg.timerMode = .perStep → t.dt.toNat = s.dt.toNat - 1 ∧ t.st.toNat = s.st.toNat - 1) ∧
      (s.cfg.timerMode = .external → t.dt = s.dt ∧ t.st = s.st)) ∧
    (s.cfg.strictDecode = true → ∃ t, step s = .next t ∧ s.label = .faulted ∧
      StepFaults s t .illegalOpcode (0#1 ++ w))

/-- R70: one next state for every state: no instruction and no step stops the model. -/
def Obligations.EveryStepHasANextState : Prop :=
  (∀ s : State, ∃ t, step s = .next t) ∧ ∀ (i : Instr) (s : State), ∃ t, exec i s = .next t

/-- R70: when a step has each outcome label: halted, faulted, stalled, a decode error, or executed (an instruction of
the table, or `LD Vx,ST` where `RDST_SEL` selects it). -/
def Obligations.OutcomeLabels : Prop :=
  ∀ s : State,
    (s.label = .halted ↔ s.fault ≠ .noFault) ∧
    (s.label = .faulted ↔ s.fault = .noFault ∧ ∃ t, step s = .next t ∧ t.fault ≠ .noFault) ∧
    (s.label = .stalled ↔ ∃ x, Fetches s (.ldVxK x) ∧ s.key = 0#16) ∧
    (s.label = .decodeError ↔ s.cfg.strictDecode = false ∧ ∃ w, FetchesUnknown s w) ∧
    (s.label = .executed ↔
      (∃ i d, Fetches s i ∧ exec i s = .next d ∧ d.fault = .noFault ∧ ¬ (i.waitsForKey = true ∧ s.key = 0#16)) ∨
      ∃ w x, s.fault = .noFault ∧ s.fetch = some w ∧ (∃ e, decode w = .error e) ∧
        decodeReadSound s.cfg.rdstSel w = some x)

/-- R52: a store into the bytes of the next instruction is what the next fetch reads. -/
def Obligations.NextFetchSeesTheStore : Prop :=
  ∀ (x : Reg) (s : State), 1 ≤ x.toNat → s.i = s.pc + 2#16 → 0x04F < s.ea 0 → s.ea x.toNat ≤ 0xFFF →
    ∃ t, exec (.storeRegs x) s = .next t ∧ t.fetch = some (s.reg 0#4 ++ s.reg 1#4)

/-- `CALL` then `RET` (R76, R78): control resumes after the `CALL`, and the entries in use are as before. -/
def Obligations.CallThenRetResumes : Prop :=
  ∀ (nnn : Addr) (s : State), s.sp.val < 16 →
    ∃ t u, exec (.call nnn) s = .next t ∧ exec .ret t = .next u ∧
      u = { s with stack := u.stack, pc := s.pc + 2#16 } ∧
      ∀ k : Fin 16, k.val < s.sp.val → u.stack[k] = s.stack[k]

/-! ### Faults and the halt (spec/60_exceptions.md) -/

/-- R115: the codes; for each cause, that its condition makes a step record it with the `FAULT_INFO` of the table,
and that a step records it under that condition only. -/
def Obligations.FaultCausesAndConditions : Prop :=
  (FaultCause.noFault.code = 0#3 ∧ FaultCause.stackOverflow.code = 1#3 ∧ FaultCause.stackUnderflow.code = 2#3 ∧
    FaultCause.fetchBounds.code = 3#3 ∧ FaultCause.dataBounds.code = 4#3 ∧ FaultCause.glyphWrite.code = 5#3 ∧
    FaultCause.keyIndex.code = 6#3 ∧ FaultCause.illegalOpcode.code = 7#3) ∧
  ∀ s t : State, s.fault = .noFault → step s = .next t →
    ((∀ nnn, Fetches s (.call nnn) → s.sp.val = 16 → t.fault = .stackOverflow ∧ t.faultInfo = 0#5 ++ nnn) ∧
      (t.fault = .stackOverflow → ∃ nnn, Fetches s (.call nnn) ∧ s.sp.val = 16)) ∧
    ((Fetches s .ret → s.sp.val = 0 → t.fault = .stackUnderflow ∧ t.faultInfo = 0#17) ∧
      (t.fault = .stackUnderflow → Fetches s .ret ∧ s.sp.val = 0)) ∧
    ((0xFFE < s.pc.toNat → t.fault = .fetchBounds ∧ t.faultInfo = BitVec.ofNat 17 (max s.pc.toNat 0x1000)) ∧
      (t.fault = .fetchBounds → 0xFFE < s.pc.toNat)) ∧
    ((∀ i, Fetches s i → 0 < dataLength i → 0xFFF < s.i.toNat + dataLength i - 1 →
        t.fault = .dataBounds ∧ t.faultInfo = BitVec.ofNat 17 (max s.i.toNat 0x1000)) ∧
      (t.fault = .dataBounds → ∃ i, Fetches s i ∧ 0 < dataLength i ∧ 0xFFF < s.i.toNat + dataLength i - 1)) ∧
    ((∀ i, Fetches s i → stores i = true → s.i.toNat ≤ 0x04F →
        t.fault = .glyphWrite ∧ t.faultInfo = 0#1 ++ s.i) ∧
      (t.fault = .glyphWrite → ∃ i, Fetches s i ∧ stores i = true ∧ s.i.toNat ≤ 0x04F)) ∧
    ((∀ x, Fetches s (.skp x) ∨ Fetches s (.sknp x) → 15 < (s.reg x).toNat →
        t.fault = .keyIndex ∧ t.faultInfo = 0#9 ++ s.reg x) ∧
      (t.fault = .keyIndex → ∃ x, (Fetches s (.skp x) ∨ Fetches s (.sknp x)) ∧ 15 < (s.reg x).toNat)) ∧
    ((∀ w, s.cfg.strictDecode = true → FetchesUnknown s w → t.fault = .illegalOpcode ∧ t.faultInfo = 0#1 ++ w) ∧
      (t.fault = .illegalOpcode → s.cfg.strictDecode = true ∧ ∃ w, FetchesUnknown s w))

/-- R116: a step that records a fault changes the three fault registers and nothing else of the machine, and no event
but `Reset` changes them again; the step also ends the launch sequence, in the model's own field `atLaunch` (R71,
notes/assumptions/12.md). -/
def Obligations.AFaultChangesOnlyTheFaultRegisters : Prop :=
  ∀ s t : State, s.fault = .noFault → step s = .next t → t.fault ≠ .noFault →
    s.label = .faulted ∧ StepFaults s t t.fault t.faultInfo ∧
    ∀ e u, e ≠ .reset → event e t = .next u →
      u.fault = t.fault ∧ u.faultPc = t.faultPc ∧ u.faultInfo = t.faultInfo

/-- R120: the halted state. -/
def Obligations.TheHaltedCoreOnlyResets : Prop :=
  ∀ s : State, s.fault ≠ .noFault →
    step s = .next s ∧ s.label = .halted ∧
    (s.cfg.timerMode = .external → event .tick s = .next s) ∧
    (∀ k, event (.setKeys k) s = .next { s with key := k }) ∧
    event .ackDraw s = .next { s with draw := false } ∧
    (∃ t, event .reset s = .next t ∧ t.fault = .noFault) ∧
    ∀ e t, event e s = .next t → t.fault = .noFault → e = .reset

/-! ### Timers (spec/40_step.md R69) -/

/-- R69: the tick, and the event `Tick`, which exists only with `TIMER_MODE = External`. -/
def Obligations.TickDecrementsAndSaturates : Prop :=
  ∀ s : State,
    s.tick = { s with dt := s.tick.dt, st := s.tick.st } ∧
    s.tick.dt.toNat = s.dt.toNat - 1 ∧ s.tick.st.toNat = s.st.toNat - 1 ∧
    (s.cfg.timerMode = .external → s.fault = .noFault → event .tick s = .next s.tick) ∧
    (s.cfg.timerMode = .perStep → ∀ t, event .tick s ≠ .next t)

/-- A timer never increases in a step except by its write instruction, and never wraps (R69; spec/90_conflicts.md
C3, C4). -/
def Obligations.TimersIncreaseOnlyByTheirWrite : Prop :=
  ∀ s t : State, step s = .next t →
    (t.dt.toNat ≤ s.dt.toNat ∨ ∃ x, Fetches s (.ldDTVx x)) ∧
    (t.st.toNat ≤ s.st.toNat ∨ ∃ x, Fetches s (.ldSTVx x))

/-- R104: a stalled step changes at most the timers, and the machine still waits; it is a step, so it also ends the
launch sequence, in the model's own field `atLaunch` (R71, notes/assumptions/12.md). -/
def Obligations.AStallChangesOnlyTimers : Prop :=
  ∀ (x : Reg) (s : State), Fetches s (.ldVxK x) → s.key = 0#16 →
    ∃ t, step s = .next t ∧ s.label = .stalled ∧ t = { s with dt := t.dt, st := t.st, atLaunch := false } ∧
      (s.cfg.timerMode = .perStep → s.cfg.stallTicks = true →
        t.dt.toNat = s.dt.toNat - 1 ∧ t.st.toNat = s.st.toNat - 1) ∧
      (s.cfg.timerMode = .external ∨ s.cfg.stallTicks = false → t = s.launched) ∧ Fetches t (.ldVxK x)

/-! ### Rules about the whole machine -/

/-- Every step, and every event of the host or of the external timer, keeps the invariant (Sys2Proof/Safety.lean):
memory in its canonical form, the glyph table intact, `PC` at most 0x10FE and pushed addresses at most 0xFFE, so that
no advance wraps (R68), blank records blank, the configuration well formed, no fault before the first step. -/
def Obligations.StepKeepsTheInvariant : Prop :=
  (∀ s t : State, Safety.Inv s → step s = .next t → Safety.Inv t) ∧
  ∀ (e : Event) (s t : State), Safety.Inv s → event e s = .next t → Safety.Inv t

/-- The reset state meets the invariant. -/
def Obligations.ResetMeetsTheInvariant : Prop := Safety.Inv State.reset

/-- Every launch state (R137) meets the invariant, for every well-formed configuration and every image, and every run
from it, through any sequence of events (R30), stays in it. -/
def Obligations.RunsFromLaunchKeepTheInvariant : Prop :=
  ∀ (c : Config) (image : List Byte) (s : State), c.wf = true → launch c image = .next s →
    Safety.Inv s ∧ ∀ (es : List Event) (t : State), run es s = .next t → Safety.Inv t

/-- R133: no event but `Reset` changes a byte of the glyph table. -/
def Obligations.GlyphTableIsImmutable : Prop :=
  ∀ (e : Event) (s t : State) (a : Nat), e ≠ .reset → event e s = .next t → a < 80 →
    t.mem.read a = s.mem.read a

/-- Which instructions may write which state (R14, R15, R17, R18, R19 to R24, R26, R33): `VF`, `I`, `SP`, the stack
(D36), the timers, the frame buffer, `DRAW` (D26), memory, the latch and the diagnostic registers. It says nothing of
`V0` to `VE`, `PC` and the fault registers, which the frames of the single instructions cover. Its clauses on
`rndIndex`, `atLaunch` and `cfg` are about the model's own fields (notes/assumptions/3.md, 12.md, 1.md). -/
def Obligations.OnlyTheNamedInstructionsWrite : Prop :=
  ∀ (i : Instr) (s t : State), exec i s = .next t →
    (t.i ≠ s.i → (∃ nnn, i = .ldI nnn) ∨ (∃ x, i = .addI x) ∨ ∃ x, i = .ldF x) ∧
    (t.sp ≠ s.sp → (∃ nnn, i = .call nnn) ∨ i = .ret) ∧
    (t.stack ≠ s.stack → ∃ nnn, i = .call nnn) ∧
    (t.dt ≠ s.dt → ∃ x, i = .ldDTVx x) ∧ (t.st ≠ s.st → ∃ x, i = .ldSTVx x) ∧
    (t.fb ≠ s.fb → i = .cls ∨ ∃ x y n, i = .drw x y n) ∧
    (t.draw ≠ s.draw → i = .cls ∨ ∃ x y n, i = .drw x y n) ∧
    (t.mem ≠ s.mem → stores i = true) ∧ (t.rndIndex ≠ s.rndIndex → ∃ x nn, i = .rnd x nn) ∧
    (t.reg 0xF#4 ≠ s.reg 0xF#4 → writesFlag i = true ∨ destination i = some 0xF#4) ∧
    t.key = s.key ∧ t.diag = s.diag ∧ t.diagPc = s.diagPc ∧ t.diagWord = s.diagWord ∧ t.cfg = s.cfg ∧
    t.atLaunch = s.atLaunch

/-- R22: the latch is read by `SKP`, `SKNP` and `LD Vx,K` only: any other instruction has the same effect whatever
keys are down. -/
def Obligations.OnlyKeyInstructionsReadTheLatch : Prop :=
  ∀ (i : Instr) (s t : State) (k : Word), (∀ x, i ≠ .skp x ∧ i ≠ .sknp x ∧ i ≠ .ldVxK x) →
    exec i s = .next t → exec i { s with key := k } = .next { t with key := k }

/-- R20: no instruction of the table reads the sound timer: the effect on everything else is the same whatever `ST`
holds. -/
def Obligations.NoTableInstructionReadsST : Prop :=
  ∀ (i : Instr) (s t : State) (b : Byte), exec i s = .next t →
    ∃ u, exec i { s with st := b } = .next u ∧ u = { t with st := u.st }

/-- R17: the stack entries not in use are unobservable: steps from states that agree but for them lead to states
that agree but for them. -/
def Obligations.UnusedStackEntriesAreUnobservable : Prop :=
  ∀ s t u : State, AgreeOnStackInUse s u → step s = .next t →
    ∃ v, step u = .next v ∧ AgreeOnStackInUse t v

/-- The configuration is fixed: no event changes it (R31: it is no state). -/
def Obligations.NoEventChangesTheConfiguration : Prop :=
  ∀ (e : Event) (s t : State), event e s = .next t → t.cfg = s.cfg

/-- R146: at a self-jump with no fault, every further step leaves everything unchanged but the timers, and but the
model's own field `atLaunch`, which a step clears (it ends the launch sequence: R71, notes/assumptions/12.md). -/
def Obligations.ASelfJumpStays : Prop :=
  ∀ s : State, Safety.endedWell s = true →
    ∃ t, step s = .next t ∧ t = { s with dt := t.dt, st := t.st, atLaunch := false } ∧ Safety.endedWell t = true

/-! ### Host events, reset and launch (spec/40_step.md, spec/70_reset_and_hazards.md) -/

/-- R71, U22: `Load` is all or nothing, from 0x200 upward; it is admitted after `Reset` until the first step or the
first load that succeeds, and in no other state; no event but `Reset` admits it again. -/
def Obligations.LoadIsAllOrNothing : Prop :=
  ∀ (s : State) (image : List Byte),
    (s.atLaunch = true → 3584 < image.length → event (.load image) s = .refused .imageTooLong) ∧
    (s.atLaunch = true → image.length ≤ 3584 → ∃ t, event (.load image) s = .next t ∧
      t = { s with mem := t.mem, atLaunch := false } ∧
      (∀ k, k < image.length → some (t.mem.read (0x200 + k)) = image[k]?) ∧
      ∀ a, a < 0x200 ∨ 0x200 + image.length ≤ a → t.mem.read a = s.mem.read a) ∧
    (s.atLaunch = false → event (.load image) s = .fault .loadOutsideLaunch) ∧
    (∃ t, event .reset s = .next t ∧ t.atLaunch = true) ∧
    (s.fault = .noFault → ∀ t, event .step s = .next t → t.atLaunch = false) ∧
    ∀ e t, e ≠ .reset → event e s = .next t → t.atLaunch = true → s.atLaunch = true

/-- R72: `SetKeys` replaces the latch and nothing else, halted or not. -/
def Obligations.SetKeysReplacesTheLatch : Prop :=
  ∀ (s : State) (k : Word), event (.setKeys k) s = .next { s with key := k }

/-- R73: `AckDraw` clears the draw flag and nothing else, halted or not (D26, D27). -/
def Obligations.AckDrawClearsTheDrawFlag : Prop :=
  ∀ s : State, event .ackDraw s = .next { s with draw := false }

/-- R132 with R32 and R133: what `Reset` leaves, whatever the state was, and that nothing else clears `FAULT` or
`DIAG`. The stack entries and the count of samples are the model's choice (notes/assumptions/8.md, 3.md) and are
not claimed here. -/
def Obligations.ResetEventRestoresTheResetValues : Prop :=
  (∀ s : State, s.cfg.wf = true → ∃ t, event .reset s = .next t ∧
    (∀ r, t.reg r = 0#8) ∧ t.i = 0#16 ∧ t.pc = 0x0200#16 ∧ t.sp.val = 0 ∧ t.dt = 0#8 ∧ t.st = 0#8 ∧
    (∀ c, c < 2048 → Screen.cell t.fb c = false) ∧ t.key = 0#16 ∧ t.draw = false ∧
    t.fault = .noFault ∧ t.faultPc = 0#16 ∧ t.faultInfo = 0#17 ∧
    t.diag = false ∧ t.diagPc = 0#16 ∧ t.diagWord = 0#16 ∧ t.cfg = s.cfg ∧ t.atLaunch = true ∧
    (∀ a, a < 80 → some (t.mem.read a) = s.cfg.glyphs[a]?) ∧
    ∀ a, 80 ≤ a → a < 4096 → t.mem.read a = memInitByte s.cfg a) ∧
  ∀ (e : Event) (s t : State), event e s = .next t →
    (s.fault ≠ .noFault → t.fault = .noFault → e = .reset) ∧ (s.diag = true → t.diag = false → e = .reset)

/-- R32 for `State.reset`, the machine of the defaults of R5: the values the spec gives, all 80 bytes of the glyph
table of R38, and every parameter of R5 that has a default. `MEM_INIT` and the stack entries, which the spec leaves
open, are the model's choice (notes/assumptions/5.md, 8.md) and are not claimed here. -/
def Obligations.ResetStateHoldsTheSpecsValues : Prop :=
  (∀ r, State.reset.reg r = 0#8) ∧ State.reset.i = 0#16 ∧ State.reset.pc = 0x0200#16 ∧ State.reset.sp.val = 0 ∧
  State.reset.dt = 0#8 ∧ State.reset.st = 0#8 ∧ (∀ c, c < 2048 → Screen.cell State.reset.fb c = false) ∧
  State.reset.key = 0#16 ∧ State.reset.draw = false ∧ State.reset.fault = .noFault ∧
  State.reset.faultPc = 0#16 ∧ State.reset.faultInfo = 0#17 ∧ State.reset.diag = false ∧
  State.reset.diagPc = 0#16 ∧ State.reset.diagWord = 0#16 ∧
  State.reset.mem.readBytes 0x000 80 = glyphTable ∧ State.reset.cfg.glyphs = glyphTable ∧
  State.reset.cfg.timerMode = .perStep ∧ State.reset.cfg.stallTicks = true ∧
  State.reset.cfg.strictDecode = false ∧ State.reset.cfg.vfOrder = .flagThenResult ∧
  State.reset.cfg.shiftSrc = .x ∧ State.reset.cfg.borrowFlag = .notBorrow ∧
  State.reset.cfg.keyPick = .lowest ∧ State.reset.cfg.rdstSel = none
end

