-- ==== Sys2Proof/Laws/Memory.lean ====
section
/-! SUPPORT. The laws of main memory: a read after a write, the bytes of a block write, and the canonical form kept
by every operation. -/

namespace Sys2Proof.Machine

theorem Memory.read_eq_background {m : Memory} {a : Nat} (h : ∀ c ∈ m, c.1 ≠ a) :
    m.read a = Memory.background a := by
  induction m with
  | nil => rfl
  | cons c m ih =>
    simp only [Memory.read, h c (by simp), if_false]
    exact ih fun d hd => h d (by simp [hd])

theorem Memory.read_filter_ne (m : Memory) {a a' : Nat} (h : a' ≠ a) :
    Memory.read (m.filter fun c => c.1 != a) a' = m.read a' := by
  induction m with
  | nil => rfl
  | cons c m ih =>
    by_cases hc : c.1 = a
    · have : c.1 ≠ a' := fun e => h (e ▸ hc)
      simp [hc, Memory.read, ih, h.symm]
    · simp [hc, Memory.read, ih]

theorem Memory.read_place {m : Memory} {c : Host.Cell} (h : ∀ d ∈ m, d.1 ≠ c.1) (a : Nat) :
    (Memory.place c m).read a = if c.1 = a then c.2 else m.read a := by
  induction m with
  | nil => rfl
  | cons d m ih =>
    have hd := h d (by simp)
    have ih := ih fun e he => h e (by simp [he])
    unfold Memory.place
    split
    · rfl
    · by_cases ha : c.1 = a
      · have : d.1 ≠ a := fun e => hd (e.trans ha.symm)
        simp [Memory.read, ih, ha, this]
      · simp only [Memory.read, ih, if_neg ha]

/-- A write changes exactly the byte it writes. -/
theorem Memory.read_write (m : Memory) (a a' : Nat) (b : Byte) :
    (m.write a b).read a' = if a' = a then b else m.read a' := by
  have hf : ∀ c ∈ m.filter (fun c => c.1 != a), c.1 ≠ a := by simp
  unfold Memory.write
  by_cases ha : a' = a
  · subst ha
    split
    · rw [Memory.read_eq_background hf]; simp_all
    · rw [Memory.read_place hf]; simp
  · simp only [if_neg ha]
    split
    · exact Memory.read_filter_ne m ha
    · rw [Memory.read_place hf, if_neg (Ne.symm ha), Memory.read_filter_ne m ha]

@[simp] theorem Memory.read_write_same (m : Memory) (a : Nat) (b : Byte) : (m.write a b).read a = b := by
  simp [Memory.read_write]

theorem Memory.read_write_ne (m : Memory) {a a' : Nat} (b : Byte) (h : a' ≠ a) :
    (m.write a b).read a' = m.read a' := by
  simp [Memory.read_write, h]

/-- A block write changes exactly the bytes of its range. -/
theorem Memory.read_writeBytes (m : Memory) (a a' : Nat) (bs : List Byte) :
    (m.writeBytes a bs).read a' =
      if a ≤ a' ∧ a' < a + bs.length then bs.getD (a' - a) 0#8 else m.read a' := by
  induction bs generalizing m a with
  | nil =>
    rw [if_neg (by simp)]
    rfl
  | cons b bs ih =>
    simp only [Memory.writeBytes, ih, List.length_cons, Memory.read_write]
    rcases Nat.lt_trichotomy a' a with h | h | h
    · have h1 : ¬ (a + 1 ≤ a' ∧ a' < a + 1 + bs.length) := by omega
      have h2 : ¬ (a ≤ a' ∧ a' < a + (bs.length + 1)) := by omega
      simp only [if_neg h1, if_neg h2, if_neg (show a' ≠ a by omega)]
    · subst h; simp
    · by_cases hl : a' < a + 1 + bs.length
      · have h2 : a ≤ a' ∧ a' < a + (bs.length + 1) := by omega
        obtain ⟨k, hk⟩ : ∃ k, a' - a = k + 1 := ⟨a' - a - 1, by omega⟩
        rw [if_pos ⟨by omega, hl⟩, if_pos h2, hk, show a' - (a + 1) = k by omega]
        rfl
      · rw [if_neg (by omega), if_neg (by omega), if_neg (by omega)]

theorem Memory.read_writeBytes_outside (m : Memory) {a a' : Nat} {bs : List Byte}
    (h : a' < a ∨ a + bs.length ≤ a') : (m.writeBytes a bs).read a' = m.read a' := by
  rw [Memory.read_writeBytes, if_neg (by omega)]

@[simp] theorem Memory.length_readBytes (m : Memory) (a n : Nat) : (m.readBytes a n).length = n := by
  induction n generalizing a with
  | zero => rfl
  | succ n ih => simp [Memory.readBytes, ih]

/-- The k-th byte of a block read. -/
theorem Memory.getElem?_readBytes (m : Memory) (a n k : Nat) :
    (m.readBytes a n)[k]? = if k < n then some (m.read (a + k)) else none := by
  induction n generalizing a k with
  | zero => simp [Memory.readBytes]
  | succ n ih =>
    cases k with
    | zero => simp [Memory.readBytes]
    | succ k => simp [Memory.readBytes, ih, Nat.add_assoc, Nat.add_comm 1 k]

/-! ### The canonical form -/

theorem Memory.mem_place {c d : Host.Cell} {m : Memory} : d ∈ Memory.place c m ↔ d = c ∨ d ∈ m := by
  induction m with
  | nil => simp [Memory.place]
  | cons e m ih =>
    unfold Memory.place
    split <;> simp [ih]
    tauto

theorem Memory.pairwise_place {c : Host.Cell} {m : Memory}
    (hm : m.Pairwise fun c d => c.1 < d.1) (hc : ∀ d ∈ m, d.1 ≠ c.1) :
    (Memory.place c m).Pairwise fun c d => c.1 < d.1 := by
  induction m with
  | nil => simp [Memory.place]
  | cons d m ih =>
    have hd := hc d (by simp)
    rw [List.pairwise_cons] at hm
    unfold Memory.place
    split
    · rename_i h
      rw [List.pairwise_cons, List.pairwise_cons]
      refine ⟨fun e he => ?_, hm⟩
      rcases List.mem_cons.mp he with rfl | he
      · exact h
      · exact Nat.lt_trans h (hm.1 e he)
    · rename_i h
      rw [List.pairwise_cons]
      refine ⟨fun e he => ?_, ih hm.2 fun e he => hc e (by simp [he])⟩
      rcases Memory.mem_place.mp he with rfl | he
      · omega
      · exact hm.1 e he

/-- A write inside the address space keeps the canonical form. -/
theorem Memory.write_wf {m : Memory} (hm : m.wf) {a : Nat} (ha : a < 4096) (b : Byte) : (m.write a b).wf := by
  have hf : ∀ c ∈ m.filter (fun c => c.1 != a), c.1 ≠ a := by simp
  have hp : (m.filter fun c => c.1 != a).Pairwise fun c d => c.1 < d.1 := hm.1.filter _
  have hr : ∀ c ∈ m.filter (fun c => c.1 != a), c.1 < 4096 ∧ c.2 ≠ Memory.background c.1 :=
    fun c hc => hm.2 c (List.mem_filter.mp hc).1
  unfold Memory.write
  split
  · exact ⟨hp, hr⟩
  · rename_i hb
    refine ⟨Memory.pairwise_place hp hf, fun c hc => ?_⟩
    rcases Memory.mem_place.mp hc with rfl | hc
    · exact ⟨ha, hb⟩
    · exact hr c hc

/-- A block write inside the address space keeps the canonical form. -/
theorem Memory.writeBytes_wf {m : Memory} (hm : m.wf) {a : Nat} {bs : List Byte} (ha : a + bs.length ≤ 4096) :
    (m.writeBytes a bs).wf := by
  induction bs generalizing m a with
  | nil => exact hm
  | cons b bs ih =>
    simp only [List.length_cons] at ha
    exact ih (Memory.write_wf hm (by omega) b) (by omega)

/-- Cells written inside the address space keep the canonical form. -/
theorem Memory.writeCells_wf {m : Memory} (hm : m.wf) {cs : List Host.Cell} (h : ∀ c ∈ cs, c.1 < 4096) :
    (m.writeCells cs).wf := by
  induction cs generalizing m with
  | nil => exact hm
  | cons c cs ih =>
    exact ih (Memory.write_wf hm (h c (by simp)) c.2) fun d hd => h d (by simp [hd])

/-- Cells written elsewhere leave a byte alone. -/
theorem Memory.read_writeCells_ne {m : Memory} {cs : List Host.Cell} {a : Nat} (h : ∀ c ∈ cs, c.1 ≠ a) :
    (m.writeCells cs).read a = m.read a := by
  induction cs generalizing m with
  | nil => rfl
  | cons c cs ih =>
    rw [Memory.writeCells, ih fun d hd => h d (by simp [hd])]
    exact Memory.read_write_ne m c.2 (h c (by simp)).symm

/-- A cell of a list without repeats is what its address reads as afterwards. -/
theorem Memory.read_writeCells_mem {m : Memory} {cs : List Host.Cell}
    (hp : cs.Pairwise fun c d => c.1 < d.1) {c : Host.Cell} (hc : c ∈ cs) :
    (m.writeCells cs).read c.1 = c.2 := by
  induction cs generalizing m with
  | nil => simp at hc
  | cons d cs ih =>
    rw [List.pairwise_cons] at hp
    rcases List.mem_cons.mp hc with rfl | hc
    · rw [Memory.writeCells, Memory.read_writeCells_ne fun e he => (hp.1 e he).ne']
      simp
    · exact ih hp.2 hc

/-- The empty memory is canonical. -/
theorem Memory.nil_wf : Memory.wf [] := ⟨List.Pairwise.nil, by simp⟩

/-- Canonical memories that read the same are the same data. -/
theorem Memory.ext_of_read {m m' : Memory} (hm : m.wf) (hm' : m'.wf) (h : ∀ a, m.read a = m'.read a) : m = m' := by
  have listed : ∀ {n : Memory}, n.wf → ∀ c ∈ n, n.read c.1 = c.2 := by
    intro n hn c hc
    induction n with
    | nil => simp at hc
    | cons d n ih =>
      have hp := List.pairwise_cons.mp hn.1
      rcases List.mem_cons.mp hc with rfl | hc
      · simp [Memory.read]
      · have : d.1 ≠ c.1 := (hp.1 c hc).ne
        simp only [Memory.read, if_neg this]
        exact ih ⟨hp.2, fun e he => hn.2 e (by simp [he])⟩ hc
  have sub : ∀ {n n' : Memory}, n.wf → n'.wf → (∀ a, n.read a = n'.read a) → ∀ c ∈ n, c ∈ n' := by
    intro n n' hn hn' e c hc
    have hv : n'.read c.1 = c.2 := by rw [← e, listed hn c hc]
    by_contra hnc
    have : ∀ d ∈ n', d.1 ≠ c.1 := by
      intro d hd he
      apply hnc
      have : d.2 = c.2 := by rw [← hv, ← he, listed hn' d hd]
      rwa [← Prod.ext he this]
    rw [Memory.read_eq_background this] at hv
    exact (hn.2 c hc).2 hv.symm
  have perm : m.Perm m' := by
    refine (List.perm_ext_iff_of_nodup ?_ ?_).mpr fun c => ⟨sub hm hm' h c, sub hm' hm (fun a => (h a).symm) c⟩
    · exact hm.1.imp fun {c d} hcd e => by simp [e] at hcd
    · exact hm'.1.imp fun {c d} hcd e => by simp [e] at hcd
  exact perm.eq_of_pairwise (fun c d _ _ h1 h2 => absurd h1 (by omega)) hm.1 hm'.1

end Sys2Proof.Machine
end

