-- ==== Sys2Proof/Laws/State.lean ====
section
/-! SUPPORT. What each update of the state does to each field: one lemma per field per update, true by rfl, so that
no proof unfolds a record update. -/

namespace Sys2Proof.Machine

variable (s : State)

/-! ### `State.setReg` -/

@[simp] theorem State.setReg_v (x : Reg) (b : Byte) : (s.setReg x b).v = s.v.set x.toNat b x.isLt := rfl
@[simp] theorem State.setReg_i (x : Reg) (b : Byte) : (s.setReg x b).i = s.i := rfl
@[simp] theorem State.setReg_pc (x : Reg) (b : Byte) : (s.setReg x b).pc = s.pc := rfl
@[simp] theorem State.setReg_sp (x : Reg) (b : Byte) : (s.setReg x b).sp = s.sp := rfl
@[simp] theorem State.setReg_stack (x : Reg) (b : Byte) : (s.setReg x b).stack = s.stack := rfl
@[simp] theorem State.setReg_dt (x : Reg) (b : Byte) : (s.setReg x b).dt = s.dt := rfl
@[simp] theorem State.setReg_st (x : Reg) (b : Byte) : (s.setReg x b).st = s.st := rfl
@[simp] theorem State.setReg_fb (x : Reg) (b : Byte) : (s.setReg x b).fb = s.fb := rfl
@[simp] theorem State.setReg_key (x : Reg) (b : Byte) : (s.setReg x b).key = s.key := rfl
@[simp] theorem State.setReg_draw (x : Reg) (b : Byte) : (s.setReg x b).draw = s.draw := rfl
@[simp] theorem State.setReg_mem (x : Reg) (b : Byte) : (s.setReg x b).mem = s.mem := rfl
@[simp] theorem State.setReg_fault (x : Reg) (b : Byte) : (s.setReg x b).fault = s.fault := rfl
@[simp] theorem State.setReg_faultPc (x : Reg) (b : Byte) : (s.setReg x b).faultPc = s.faultPc := rfl
@[simp] theorem State.setReg_faultInfo (x : Reg) (b : Byte) : (s.setReg x b).faultInfo = s.faultInfo := rfl
@[simp] theorem State.setReg_diag (x : Reg) (b : Byte) : (s.setReg x b).diag = s.diag := rfl
@[simp] theorem State.setReg_diagPc (x : Reg) (b : Byte) : (s.setReg x b).diagPc = s.diagPc := rfl
@[simp] theorem State.setReg_diagWord (x : Reg) (b : Byte) : (s.setReg x b).diagWord = s.diagWord := rfl
@[simp] theorem State.setReg_rndIndex (x : Reg) (b : Byte) : (s.setReg x b).rndIndex = s.rndIndex := rfl
@[simp] theorem State.setReg_atLaunch (x : Reg) (b : Byte) : (s.setReg x b).atLaunch = s.atLaunch := rfl
@[simp] theorem State.setReg_cfg (x : Reg) (b : Byte) : (s.setReg x b).cfg = s.cfg := rfl

/-! ### `State.setRegs` -/

@[simp] theorem State.setRegs_i (bs : List Byte) : (s.setRegs bs).i = s.i := by simp only [State.setRegs]
@[simp] theorem State.setRegs_pc (bs : List Byte) : (s.setRegs bs).pc = s.pc := by simp only [State.setRegs]
@[simp] theorem State.setRegs_sp (bs : List Byte) : (s.setRegs bs).sp = s.sp := by simp only [State.setRegs]
@[simp] theorem State.setRegs_stack (bs : List Byte) : (s.setRegs bs).stack = s.stack := by simp only [State.setRegs]
@[simp] theorem State.setRegs_dt (bs : List Byte) : (s.setRegs bs).dt = s.dt := by simp only [State.setRegs]
@[simp] theorem State.setRegs_st (bs : List Byte) : (s.setRegs bs).st = s.st := by simp only [State.setRegs]
@[simp] theorem State.setRegs_fb (bs : List Byte) : (s.setRegs bs).fb = s.fb := by simp only [State.setRegs]
@[simp] theorem State.setRegs_key (bs : List Byte) : (s.setRegs bs).key = s.key := by simp only [State.setRegs]
@[simp] theorem State.setRegs_draw (bs : List Byte) : (s.setRegs bs).draw = s.draw := by simp only [State.setRegs]
@[simp] theorem State.setRegs_mem (bs : List Byte) : (s.setRegs bs).mem = s.mem := by simp only [State.setRegs]
@[simp] theorem State.setRegs_fault (bs : List Byte) : (s.setRegs bs).fault = s.fault := by simp only [State.setRegs]
@[simp] theorem State.setRegs_faultPc (bs : List Byte) : (s.setRegs bs).faultPc = s.faultPc := by simp only [State.setRegs]
@[simp] theorem State.setRegs_faultInfo (bs : List Byte) : (s.setRegs bs).faultInfo = s.faultInfo := by simp only [State.setRegs]
@[simp] theorem State.setRegs_diag (bs : List Byte) : (s.setRegs bs).diag = s.diag := by simp only [State.setRegs]
@[simp] theorem State.setRegs_diagPc (bs : List Byte) : (s.setRegs bs).diagPc = s.diagPc := by simp only [State.setRegs]
@[simp] theorem State.setRegs_diagWord (bs : List Byte) : (s.setRegs bs).diagWord = s.diagWord := by simp only [State.setRegs]
@[simp] theorem State.setRegs_rndIndex (bs : List Byte) : (s.setRegs bs).rndIndex = s.rndIndex := by simp only [State.setRegs]
@[simp] theorem State.setRegs_atLaunch (bs : List Byte) : (s.setRegs bs).atLaunch = s.atLaunch := by simp only [State.setRegs]
@[simp] theorem State.setRegs_cfg (bs : List Byte) : (s.setRegs bs).cfg = s.cfg := by simp only [State.setRegs]

/-! ### `State.setI` -/

@[simp] theorem State.setI_v (w : Word) : (s.setI w).v = s.v := rfl
@[simp] theorem State.setI_i (w : Word) : (s.setI w).i = w := rfl
@[simp] theorem State.setI_pc (w : Word) : (s.setI w).pc = s.pc := rfl
@[simp] theorem State.setI_sp (w : Word) : (s.setI w).sp = s.sp := rfl
@[simp] theorem State.setI_stack (w : Word) : (s.setI w).stack = s.stack := rfl
@[simp] theorem State.setI_dt (w : Word) : (s.setI w).dt = s.dt := rfl
@[simp] theorem State.setI_st (w : Word) : (s.setI w).st = s.st := rfl
@[simp] theorem State.setI_fb (w : Word) : (s.setI w).fb = s.fb := rfl
@[simp] theorem State.setI_key (w : Word) : (s.setI w).key = s.key := rfl
@[simp] theorem State.setI_draw (w : Word) : (s.setI w).draw = s.draw := rfl
@[simp] theorem State.setI_mem (w : Word) : (s.setI w).mem = s.mem := rfl
@[simp] theorem State.setI_fault (w : Word) : (s.setI w).fault = s.fault := rfl
@[simp] theorem State.setI_faultPc (w : Word) : (s.setI w).faultPc = s.faultPc := rfl
@[simp] theorem State.setI_faultInfo (w : Word) : (s.setI w).faultInfo = s.faultInfo := rfl
@[simp] theorem State.setI_diag (w : Word) : (s.setI w).diag = s.diag := rfl
@[simp] theorem State.setI_diagPc (w : Word) : (s.setI w).diagPc = s.diagPc := rfl
@[simp] theorem State.setI_diagWord (w : Word) : (s.setI w).diagWord = s.diagWord := rfl
@[simp] theorem State.setI_rndIndex (w : Word) : (s.setI w).rndIndex = s.rndIndex := rfl
@[simp] theorem State.setI_atLaunch (w : Word) : (s.setI w).atLaunch = s.atLaunch := rfl
@[simp] theorem State.setI_cfg (w : Word) : (s.setI w).cfg = s.cfg := rfl

/-! ### `State.setPc` -/

@[simp] theorem State.setPc_v (w : Word) : (s.setPc w).v = s.v := rfl
@[simp] theorem State.setPc_i (w : Word) : (s.setPc w).i = s.i := rfl
@[simp] theorem State.setPc_pc (w : Word) : (s.setPc w).pc = w := rfl
@[simp] theorem State.setPc_sp (w : Word) : (s.setPc w).sp = s.sp := rfl
@[simp] theorem State.setPc_stack (w : Word) : (s.setPc w).stack = s.stack := rfl
@[simp] theorem State.setPc_dt (w : Word) : (s.setPc w).dt = s.dt := rfl
@[simp] theorem State.setPc_st (w : Word) : (s.setPc w).st = s.st := rfl
@[simp] theorem State.setPc_fb (w : Word) : (s.setPc w).fb = s.fb := rfl
@[simp] theorem State.setPc_key (w : Word) : (s.setPc w).key = s.key := rfl
@[simp] theorem State.setPc_draw (w : Word) : (s.setPc w).draw = s.draw := rfl
@[simp] theorem State.setPc_mem (w : Word) : (s.setPc w).mem = s.mem := rfl
@[simp] theorem State.setPc_fault (w : Word) : (s.setPc w).fault = s.fault := rfl
@[simp] theorem State.setPc_faultPc (w : Word) : (s.setPc w).faultPc = s.faultPc := rfl
@[simp] theorem State.setPc_faultInfo (w : Word) : (s.setPc w).faultInfo = s.faultInfo := rfl
@[simp] theorem State.setPc_diag (w : Word) : (s.setPc w).diag = s.diag := rfl
@[simp] theorem State.setPc_diagPc (w : Word) : (s.setPc w).diagPc = s.diagPc := rfl
@[simp] theorem State.setPc_diagWord (w : Word) : (s.setPc w).diagWord = s.diagWord := rfl
@[simp] theorem State.setPc_rndIndex (w : Word) : (s.setPc w).rndIndex = s.rndIndex := rfl
@[simp] theorem State.setPc_atLaunch (w : Word) : (s.setPc w).atLaunch = s.atLaunch := rfl
@[simp] theorem State.setPc_cfg (w : Word) : (s.setPc w).cfg = s.cfg := rfl

/-! ### `State.advance` -/

@[simp] theorem State.advance_v (k : Word) : (s.advance k).v = s.v := rfl
@[simp] theorem State.advance_i (k : Word) : (s.advance k).i = s.i := rfl
@[simp] theorem State.advance_pc (k : Word) : (s.advance k).pc = s.pc + k := rfl
@[simp] theorem State.advance_sp (k : Word) : (s.advance k).sp = s.sp := rfl
@[simp] theorem State.advance_stack (k : Word) : (s.advance k).stack = s.stack := rfl
@[simp] theorem State.advance_dt (k : Word) : (s.advance k).dt = s.dt := rfl
@[simp] theorem State.advance_st (k : Word) : (s.advance k).st = s.st := rfl
@[simp] theorem State.advance_fb (k : Word) : (s.advance k).fb = s.fb := rfl
@[simp] theorem State.advance_key (k : Word) : (s.advance k).key = s.key := rfl
@[simp] theorem State.advance_draw (k : Word) : (s.advance k).draw = s.draw := rfl
@[simp] theorem State.advance_mem (k : Word) : (s.advance k).mem = s.mem := rfl
@[simp] theorem State.advance_fault (k : Word) : (s.advance k).fault = s.fault := rfl
@[simp] theorem State.advance_faultPc (k : Word) : (s.advance k).faultPc = s.faultPc := rfl
@[simp] theorem State.advance_faultInfo (k : Word) : (s.advance k).faultInfo = s.faultInfo := rfl
@[simp] theorem State.advance_diag (k : Word) : (s.advance k).diag = s.diag := rfl
@[simp] theorem State.advance_diagPc (k : Word) : (s.advance k).diagPc = s.diagPc := rfl
@[simp] theorem State.advance_diagWord (k : Word) : (s.advance k).diagWord = s.diagWord := rfl
@[simp] theorem State.advance_rndIndex (k : Word) : (s.advance k).rndIndex = s.rndIndex := rfl
@[simp] theorem State.advance_atLaunch (k : Word) : (s.advance k).atLaunch = s.atLaunch := rfl
@[simp] theorem State.advance_cfg (k : Word) : (s.advance k).cfg = s.cfg := rfl

/-! ### `State.skipIf` -/

@[simp] theorem State.skipIf_v (c : Bool) : (s.skipIf c).v = s.v := rfl
@[simp] theorem State.skipIf_i (c : Bool) : (s.skipIf c).i = s.i := rfl
@[simp] theorem State.skipIf_pc (c : Bool) : (s.skipIf c).pc = s.pc + if c then 4#16 else 2#16 := rfl
@[simp] theorem State.skipIf_sp (c : Bool) : (s.skipIf c).sp = s.sp := rfl
@[simp] theorem State.skipIf_stack (c : Bool) : (s.skipIf c).stack = s.stack := rfl
@[simp] theorem State.skipIf_dt (c : Bool) : (s.skipIf c).dt = s.dt := rfl
@[simp] theorem State.skipIf_st (c : Bool) : (s.skipIf c).st = s.st := rfl
@[simp] theorem State.skipIf_fb (c : Bool) : (s.skipIf c).fb = s.fb := rfl
@[simp] theorem State.skipIf_key (c : Bool) : (s.skipIf c).key = s.key := rfl
@[simp] theorem State.skipIf_draw (c : Bool) : (s.skipIf c).draw = s.draw := rfl
@[simp] theorem State.skipIf_mem (c : Bool) : (s.skipIf c).mem = s.mem := rfl
@[simp] theorem State.skipIf_fault (c : Bool) : (s.skipIf c).fault = s.fault := rfl
@[simp] theorem State.skipIf_faultPc (c : Bool) : (s.skipIf c).faultPc = s.faultPc := rfl
@[simp] theorem State.skipIf_faultInfo (c : Bool) : (s.skipIf c).faultInfo = s.faultInfo := rfl
@[simp] theorem State.skipIf_diag (c : Bool) : (s.skipIf c).diag = s.diag := rfl
@[simp] theorem State.skipIf_diagPc (c : Bool) : (s.skipIf c).diagPc = s.diagPc := rfl
@[simp] theorem State.skipIf_diagWord (c : Bool) : (s.skipIf c).diagWord = s.diagWord := rfl
@[simp] theorem State.skipIf_rndIndex (c : Bool) : (s.skipIf c).rndIndex = s.rndIndex := rfl
@[simp] theorem State.skipIf_atLaunch (c : Bool) : (s.skipIf c).atLaunch = s.atLaunch := rfl
@[simp] theorem State.skipIf_cfg (c : Bool) : (s.skipIf c).cfg = s.cfg := rfl

/-! ### `State.raise` -/

@[simp] theorem State.raise_v (c : FaultCause) (n : BitVec 17) : (s.raise c n).v = s.v := rfl
@[simp] theorem State.raise_i (c : FaultCause) (n : BitVec 17) : (s.raise c n).i = s.i := rfl
@[simp] theorem State.raise_pc (c : FaultCause) (n : BitVec 17) : (s.raise c n).pc = s.pc := rfl
@[simp] theorem State.raise_sp (c : FaultCause) (n : BitVec 17) : (s.raise c n).sp = s.sp := rfl
@[simp] theorem State.raise_stack (c : FaultCause) (n : BitVec 17) : (s.raise c n).stack = s.stack := rfl
@[simp] theorem State.raise_dt (c : FaultCause) (n : BitVec 17) : (s.raise c n).dt = s.dt := rfl
@[simp] theorem State.raise_st (c : FaultCause) (n : BitVec 17) : (s.raise c n).st = s.st := rfl
@[simp] theorem State.raise_fb (c : FaultCause) (n : BitVec 17) : (s.raise c n).fb = s.fb := rfl
@[simp] theorem State.raise_key (c : FaultCause) (n : BitVec 17) : (s.raise c n).key = s.key := rfl
@[simp] theorem State.raise_draw (c : FaultCause) (n : BitVec 17) : (s.raise c n).draw = s.draw := rfl
@[simp] theorem State.raise_mem (c : FaultCause) (n : BitVec 17) : (s.raise c n).mem = s.mem := rfl
@[simp] theorem State.raise_fault (c : FaultCause) (n : BitVec 17) : (s.raise c n).fault = c := rfl
@[simp] theorem State.raise_faultPc (c : FaultCause) (n : BitVec 17) : (s.raise c n).faultPc = s.pc := rfl
@[simp] theorem State.raise_faultInfo (c : FaultCause) (n : BitVec 17) : (s.raise c n).faultInfo = n := rfl
@[simp] theorem State.raise_diag (c : FaultCause) (n : BitVec 17) : (s.raise c n).diag = s.diag := rfl
@[simp] theorem State.raise_diagPc (c : FaultCause) (n : BitVec 17) : (s.raise c n).diagPc = s.diagPc := rfl
@[simp] theorem State.raise_diagWord (c : FaultCause) (n : BitVec 17) : (s.raise c n).diagWord = s.diagWord := rfl
@[simp] theorem State.raise_rndIndex (c : FaultCause) (n : BitVec 17) : (s.raise c n).rndIndex = s.rndIndex := rfl
@[simp] theorem State.raise_atLaunch (c : FaultCause) (n : BitVec 17) : (s.raise c n).atLaunch = s.atLaunch := rfl
@[simp] theorem State.raise_cfg (c : FaultCause) (n : BitVec 17) : (s.raise c n).cfg = s.cfg := rfl

/-! ### `State.tick` -/

@[simp] theorem State.tick_v : (s.tick).v = s.v := rfl
@[simp] theorem State.tick_i : (s.tick).i = s.i := rfl
@[simp] theorem State.tick_pc : (s.tick).pc = s.pc := rfl
@[simp] theorem State.tick_sp : (s.tick).sp = s.sp := rfl
@[simp] theorem State.tick_stack : (s.tick).stack = s.stack := rfl
@[simp] theorem State.tick_dt : (s.tick).dt = tickTimer s.dt := rfl
@[simp] theorem State.tick_st : (s.tick).st = tickTimer s.st := rfl
@[simp] theorem State.tick_fb : (s.tick).fb = s.fb := rfl
@[simp] theorem State.tick_key : (s.tick).key = s.key := rfl
@[simp] theorem State.tick_draw : (s.tick).draw = s.draw := rfl
@[simp] theorem State.tick_mem : (s.tick).mem = s.mem := rfl
@[simp] theorem State.tick_fault : (s.tick).fault = s.fault := rfl
@[simp] theorem State.tick_faultPc : (s.tick).faultPc = s.faultPc := rfl
@[simp] theorem State.tick_faultInfo : (s.tick).faultInfo = s.faultInfo := rfl
@[simp] theorem State.tick_diag : (s.tick).diag = s.diag := rfl
@[simp] theorem State.tick_diagPc : (s.tick).diagPc = s.diagPc := rfl
@[simp] theorem State.tick_diagWord : (s.tick).diagWord = s.diagWord := rfl
@[simp] theorem State.tick_rndIndex : (s.tick).rndIndex = s.rndIndex := rfl
@[simp] theorem State.tick_atLaunch : (s.tick).atLaunch = s.atLaunch := rfl
@[simp] theorem State.tick_cfg : (s.tick).cfg = s.cfg := rfl

/-! ### `State.launched` -/

@[simp] theorem State.launched_v : (s.launched).v = s.v := rfl
@[simp] theorem State.launched_i : (s.launched).i = s.i := rfl
@[simp] theorem State.launched_pc : (s.launched).pc = s.pc := rfl
@[simp] theorem State.launched_sp : (s.launched).sp = s.sp := rfl
@[simp] theorem State.launched_stack : (s.launched).stack = s.stack := rfl
@[simp] theorem State.launched_dt : (s.launched).dt = s.dt := rfl
@[simp] theorem State.launched_st : (s.launched).st = s.st := rfl
@[simp] theorem State.launched_fb : (s.launched).fb = s.fb := rfl
@[simp] theorem State.launched_key : (s.launched).key = s.key := rfl
@[simp] theorem State.launched_draw : (s.launched).draw = s.draw := rfl
@[simp] theorem State.launched_mem : (s.launched).mem = s.mem := rfl
@[simp] theorem State.launched_fault : (s.launched).fault = s.fault := rfl
@[simp] theorem State.launched_faultPc : (s.launched).faultPc = s.faultPc := rfl
@[simp] theorem State.launched_faultInfo : (s.launched).faultInfo = s.faultInfo := rfl
@[simp] theorem State.launched_diag : (s.launched).diag = s.diag := rfl
@[simp] theorem State.launched_diagPc : (s.launched).diagPc = s.diagPc := rfl
@[simp] theorem State.launched_diagWord : (s.launched).diagWord = s.diagWord := rfl
@[simp] theorem State.launched_rndIndex : (s.launched).rndIndex = s.rndIndex := rfl
@[simp] theorem State.launched_atLaunch : (s.launched).atLaunch = false := rfl
@[simp] theorem State.launched_cfg : (s.launched).cfg = s.cfg := rfl

/-! ### `State.sampled` -/

@[simp] theorem State.sampled_v : (s.sampled).v = s.v := rfl
@[simp] theorem State.sampled_i : (s.sampled).i = s.i := rfl
@[simp] theorem State.sampled_pc : (s.sampled).pc = s.pc := rfl
@[simp] theorem State.sampled_sp : (s.sampled).sp = s.sp := rfl
@[simp] theorem State.sampled_stack : (s.sampled).stack = s.stack := rfl
@[simp] theorem State.sampled_dt : (s.sampled).dt = s.dt := rfl
@[simp] theorem State.sampled_st : (s.sampled).st = s.st := rfl
@[simp] theorem State.sampled_fb : (s.sampled).fb = s.fb := rfl
@[simp] theorem State.sampled_key : (s.sampled).key = s.key := rfl
@[simp] theorem State.sampled_draw : (s.sampled).draw = s.draw := rfl
@[simp] theorem State.sampled_mem : (s.sampled).mem = s.mem := rfl
@[simp] theorem State.sampled_fault : (s.sampled).fault = s.fault := rfl
@[simp] theorem State.sampled_faultPc : (s.sampled).faultPc = s.faultPc := rfl
@[simp] theorem State.sampled_faultInfo : (s.sampled).faultInfo = s.faultInfo := rfl
@[simp] theorem State.sampled_diag : (s.sampled).diag = s.diag := rfl
@[simp] theorem State.sampled_diagPc : (s.sampled).diagPc = s.diagPc := rfl
@[simp] theorem State.sampled_diagWord : (s.sampled).diagWord = s.diagWord := rfl
@[simp] theorem State.sampled_rndIndex : (s.sampled).rndIndex = s.rndIndex + 1 := rfl
@[simp] theorem State.sampled_atLaunch : (s.sampled).atLaunch = s.atLaunch := rfl
@[simp] theorem State.sampled_cfg : (s.sampled).cfg = s.cfg := rfl

/-! ### `State.setScreen` -/

@[simp] theorem State.setScreen_v (fb : Screen) : (s.setScreen fb).v = s.v := rfl
@[simp] theorem State.setScreen_i (fb : Screen) : (s.setScreen fb).i = s.i := rfl
@[simp] theorem State.setScreen_pc (fb : Screen) : (s.setScreen fb).pc = s.pc := rfl
@[simp] theorem State.setScreen_sp (fb : Screen) : (s.setScreen fb).sp = s.sp := rfl
@[simp] theorem State.setScreen_stack (fb : Screen) : (s.setScreen fb).stack = s.stack := rfl
@[simp] theorem State.setScreen_dt (fb : Screen) : (s.setScreen fb).dt = s.dt := rfl
@[simp] theorem State.setScreen_st (fb : Screen) : (s.setScreen fb).st = s.st := rfl
@[simp] theorem State.setScreen_fb (fb : Screen) : (s.setScreen fb).fb = fb := rfl
@[simp] theorem State.setScreen_key (fb : Screen) : (s.setScreen fb).key = s.key := rfl
@[simp] theorem State.setScreen_draw (fb : Screen) : (s.setScreen fb).draw = true := rfl
@[simp] theorem State.setScreen_mem (fb : Screen) : (s.setScreen fb).mem = s.mem := rfl
@[simp] theorem State.setScreen_fault (fb : Screen) : (s.setScreen fb).fault = s.fault := rfl
@[simp] theorem State.setScreen_faultPc (fb : Screen) : (s.setScreen fb).faultPc = s.faultPc := rfl
@[simp] theorem State.setScreen_faultInfo (fb : Screen) : (s.setScreen fb).faultInfo = s.faultInfo := rfl
@[simp] theorem State.setScreen_diag (fb : Screen) : (s.setScreen fb).diag = s.diag := rfl
@[simp] theorem State.setScreen_diagPc (fb : Screen) : (s.setScreen fb).diagPc = s.diagPc := rfl
@[simp] theorem State.setScreen_diagWord (fb : Screen) : (s.setScreen fb).diagWord = s.diagWord := rfl
@[simp] theorem State.setScreen_rndIndex (fb : Screen) : (s.setScreen fb).rndIndex = s.rndIndex := rfl
@[simp] theorem State.setScreen_atLaunch (fb : Screen) : (s.setScreen fb).atLaunch = s.atLaunch := rfl
@[simp] theorem State.setScreen_cfg (fb : Screen) : (s.setScreen fb).cfg = s.cfg := rfl

/-! ### `State.storeAtI` -/

@[simp] theorem State.storeAtI_v (bs : List Byte) : (s.storeAtI bs).v = s.v := rfl
@[simp] theorem State.storeAtI_i (bs : List Byte) : (s.storeAtI bs).i = s.i := rfl
@[simp] theorem State.storeAtI_pc (bs : List Byte) : (s.storeAtI bs).pc = s.pc := rfl
@[simp] theorem State.storeAtI_sp (bs : List Byte) : (s.storeAtI bs).sp = s.sp := rfl
@[simp] theorem State.storeAtI_stack (bs : List Byte) : (s.storeAtI bs).stack = s.stack := rfl
@[simp] theorem State.storeAtI_dt (bs : List Byte) : (s.storeAtI bs).dt = s.dt := rfl
@[simp] theorem State.storeAtI_st (bs : List Byte) : (s.storeAtI bs).st = s.st := rfl
@[simp] theorem State.storeAtI_fb (bs : List Byte) : (s.storeAtI bs).fb = s.fb := rfl
@[simp] theorem State.storeAtI_key (bs : List Byte) : (s.storeAtI bs).key = s.key := rfl
@[simp] theorem State.storeAtI_draw (bs : List Byte) : (s.storeAtI bs).draw = s.draw := rfl
@[simp] theorem State.storeAtI_mem (bs : List Byte) : (s.storeAtI bs).mem = s.mem.writeBytes s.i.toNat bs := rfl
@[simp] theorem State.storeAtI_fault (bs : List Byte) : (s.storeAtI bs).fault = s.fault := rfl
@[simp] theorem State.storeAtI_faultPc (bs : List Byte) : (s.storeAtI bs).faultPc = s.faultPc := rfl
@[simp] theorem State.storeAtI_faultInfo (bs : List Byte) : (s.storeAtI bs).faultInfo = s.faultInfo := rfl
@[simp] theorem State.storeAtI_diag (bs : List Byte) : (s.storeAtI bs).diag = s.diag := rfl
@[simp] theorem State.storeAtI_diagPc (bs : List Byte) : (s.storeAtI bs).diagPc = s.diagPc := rfl
@[simp] theorem State.storeAtI_diagWord (bs : List Byte) : (s.storeAtI bs).diagWord = s.diagWord := rfl
@[simp] theorem State.storeAtI_rndIndex (bs : List Byte) : (s.storeAtI bs).rndIndex = s.rndIndex := rfl
@[simp] theorem State.storeAtI_atLaunch (bs : List Byte) : (s.storeAtI bs).atLaunch = s.atLaunch := rfl
@[simp] theorem State.storeAtI_cfg (bs : List Byte) : (s.storeAtI bs).cfg = s.cfg := rfl

/-! ### `State.setKeys` -/

@[simp] theorem State.setKeys_v (k : Word) : (s.setKeys k).v = s.v := rfl
@[simp] theorem State.setKeys_i (k : Word) : (s.setKeys k).i = s.i := rfl
@[simp] theorem State.setKeys_pc (k : Word) : (s.setKeys k).pc = s.pc := rfl
@[simp] theorem State.setKeys_sp (k : Word) : (s.setKeys k).sp = s.sp := rfl
@[simp] theorem State.setKeys_stack (k : Word) : (s.setKeys k).stack = s.stack := rfl
@[simp] theorem State.setKeys_dt (k : Word) : (s.setKeys k).dt = s.dt := rfl
@[simp] theorem State.setKeys_st (k : Word) : (s.setKeys k).st = s.st := rfl
@[simp] theorem State.setKeys_fb (k : Word) : (s.setKeys k).fb = s.fb := rfl
@[simp] theorem State.setKeys_key (k : Word) : (s.setKeys k).key = k := rfl
@[simp] theorem State.setKeys_draw (k : Word) : (s.setKeys k).draw = s.draw := rfl
@[simp] theorem State.setKeys_mem (k : Word) : (s.setKeys k).mem = s.mem := rfl
@[simp] theorem State.setKeys_fault (k : Word) : (s.setKeys k).fault = s.fault := rfl
@[simp] theorem State.setKeys_faultPc (k : Word) : (s.setKeys k).faultPc = s.faultPc := rfl
@[simp] theorem State.setKeys_faultInfo (k : Word) : (s.setKeys k).faultInfo = s.faultInfo := rfl
@[simp] theorem State.setKeys_diag (k : Word) : (s.setKeys k).diag = s.diag := rfl
@[simp] theorem State.setKeys_diagPc (k : Word) : (s.setKeys k).diagPc = s.diagPc := rfl
@[simp] theorem State.setKeys_diagWord (k : Word) : (s.setKeys k).diagWord = s.diagWord := rfl
@[simp] theorem State.setKeys_rndIndex (k : Word) : (s.setKeys k).rndIndex = s.rndIndex := rfl
@[simp] theorem State.setKeys_atLaunch (k : Word) : (s.setKeys k).atLaunch = s.atLaunch := rfl
@[simp] theorem State.setKeys_cfg (k : Word) : (s.setKeys k).cfg = s.cfg := rfl

/-! ### `State.ackDraw` -/

@[simp] theorem State.ackDraw_v : (s.ackDraw).v = s.v := rfl
@[simp] theorem State.ackDraw_i : (s.ackDraw).i = s.i := rfl
@[simp] theorem State.ackDraw_pc : (s.ackDraw).pc = s.pc := rfl
@[simp] theorem State.ackDraw_sp : (s.ackDraw).sp = s.sp := rfl
@[simp] theorem State.ackDraw_stack : (s.ackDraw).stack = s.stack := rfl
@[simp] theorem State.ackDraw_dt : (s.ackDraw).dt = s.dt := rfl
@[simp] theorem State.ackDraw_st : (s.ackDraw).st = s.st := rfl
@[simp] theorem State.ackDraw_fb : (s.ackDraw).fb = s.fb := rfl
@[simp] theorem State.ackDraw_key : (s.ackDraw).key = s.key := rfl
@[simp] theorem State.ackDraw_draw : (s.ackDraw).draw = false := rfl
@[simp] theorem State.ackDraw_mem : (s.ackDraw).mem = s.mem := rfl
@[simp] theorem State.ackDraw_fault : (s.ackDraw).fault = s.fault := rfl
@[simp] theorem State.ackDraw_faultPc : (s.ackDraw).faultPc = s.faultPc := rfl
@[simp] theorem State.ackDraw_faultInfo : (s.ackDraw).faultInfo = s.faultInfo := rfl
@[simp] theorem State.ackDraw_diag : (s.ackDraw).diag = s.diag := rfl
@[simp] theorem State.ackDraw_diagPc : (s.ackDraw).diagPc = s.diagPc := rfl
@[simp] theorem State.ackDraw_diagWord : (s.ackDraw).diagWord = s.diagWord := rfl
@[simp] theorem State.ackDraw_rndIndex : (s.ackDraw).rndIndex = s.rndIndex := rfl
@[simp] theorem State.ackDraw_atLaunch : (s.ackDraw).atLaunch = s.atLaunch := rfl
@[simp] theorem State.ackDraw_cfg : (s.ackDraw).cfg = s.cfg := rfl

end Sys2Proof.Machine
end

