-- ==== Sys2Proof/Laws/Ops.lean ====
section
/-! SUPPORT. One lemma for each shared operation of Machine/Ops.lean, Machine/Operands.lean and Machine/Flags.lean
that says what it can do. -/

namespace Sys2Proof.Machine

variable (s : State)

/-! ### Registers -/

theorem State.reg_setReg (x y : Reg) (b : Byte) : (s.setReg x b).reg y = if y = x then b else s.reg y := by
  simp only [State.reg, State.setReg_v, Vector.getElem_set]
  by_cases h : y = x
  · simp [h]
  · have : ¬ x.toNat = y.toNat := fun e => h (BitVec.eq_of_toNat_eq e.symm)
    simp [h, this]

@[simp] theorem State.reg_setReg_same (x : Reg) (b : Byte) : (s.setReg x b).reg x = b := by
  simp [State.reg_setReg]

theorem State.reg_setReg_ne {x y : Reg} (h : y ≠ x) (b : Byte) : (s.setReg x b).reg y = s.reg y := by
  simp [State.reg_setReg, h]

theorem State.reg_setRegs (bs : List Byte) (x : Reg) : (s.setRegs bs).reg x = bs.getD x.toNat (s.reg x) := by
  simp [State.reg, State.setRegs]

/-- A state with the same registers reads them the same. -/
theorem State.reg_congr {s t : State} (h : t.v = s.v) (x : Reg) : t.reg x = s.reg x := by
  simp only [State.reg, h]

@[simp] theorem State.reg_advance (k : Word) (x : Reg) : (s.advance k).reg x = s.reg x := rfl
@[simp] theorem State.reg_skipIf (c : Bool) (x : Reg) : (s.skipIf c).reg x = s.reg x := rfl
@[simp] theorem State.reg_setI (w : Word) (x : Reg) : (s.setI w).reg x = s.reg x := rfl
@[simp] theorem State.reg_setPc (w : Word) (x : Reg) : (s.setPc w).reg x = s.reg x := rfl
@[simp] theorem State.reg_raise (c : FaultCause) (n : BitVec 17) (x : Reg) : (s.raise c n).reg x = s.reg x := rfl
@[simp] theorem State.reg_tick (x : Reg) : s.tick.reg x = s.reg x := rfl
@[simp] theorem State.reg_launched (x : Reg) : s.launched.reg x = s.reg x := rfl
@[simp] theorem State.reg_sampled (x : Reg) : s.sampled.reg x = s.reg x := rfl
@[simp] theorem State.reg_setScreen (fb : Screen) (x : Reg) : (s.setScreen fb).reg x = s.reg x := rfl
@[simp] theorem State.reg_storeAtI (bs : List Byte) (x : Reg) : (s.storeAtI bs).reg x = s.reg x := rfl

@[simp] theorem State.length_firstRegs (k : Nat) : (s.firstRegs k).length = min k 16 := by
  simp [State.firstRegs]

/-- The k-th of the first registers is `V[k]`. -/
theorem State.getD_firstRegs {n : Nat} {x : Reg} (h : x.toNat < n) (d : Byte) :
    (s.firstRegs n).getD x.toNat d = s.reg x := by
  have hx : x.toNat < 16 := x.isLt
  simp [State.firstRegs, State.reg, h, Vector.getElem?_eq_getElem hx]

/-! ### Checks and faults -/

/-- An instruction that may fault ends in the fault its check found, or in its effect. -/
theorem State.orFault_cases {check : Option (FaultCause × BitVec 17)} {effect t : State}
    (h : s.orFault check effect = .next t) :
    (∃ c n, check = some (c, n) ∧ t = s.raise c n) ∨ (check = none ∧ t = effect) := by
  unfold State.orFault at h
  split at h <;> cases h
  · exact .inl ⟨_, _, rfl, rfl⟩
  · exact .inr ⟨rfl, rfl⟩

@[simp] theorem State.orFault_none (effect : State) : s.orFault none effect = .next effect := rfl
@[simp] theorem State.orFault_some (c : FaultCause) (n : BitVec 17) (effect : State) :
    s.orFault (some (c, n)) effect = .next (s.raise c n) := rfl

theorem State.boundsCheck_none {len : Nat} :
    s.boundsCheck len = none ↔ len = 0 ∨ s.i.toNat + len - 1 ≤ 0xFFF := by
  unfold State.boundsCheck
  split <;> simp <;> omega

theorem State.boundsCheck_some {len : Nat} (h : 0 < len) (hb : 0xFFF < s.i.toNat + len - 1) :
    s.boundsCheck len = some (.dataBounds, boundsInfo s.i) := by
  simp [State.boundsCheck, h, hb]

theorem State.boundsCheck_cases (len : Nat) :
    s.boundsCheck len = none ∨ s.boundsCheck len = some (.dataBounds, boundsInfo s.i) := by
  unfold State.boundsCheck
  split <;> simp

theorem State.storeCheck_none {len : Nat} (h : 0 < len) :
    s.storeCheck len = none ↔ 0x4F < s.i.toNat ∧ s.i.toNat + len ≤ 0x1000 := by
  unfold State.storeCheck State.boundsCheck
  by_cases hb : 0xFFF < s.i.toNat + len - 1
  · simp [h, hb]; omega
  · simp [hb, h]; omega

theorem State.storeCheck_cases (len : Nat) :
    s.storeCheck len = none ∨ s.storeCheck len = some (.dataBounds, boundsInfo s.i) ∨
      s.storeCheck len = some (.glyphWrite, s.i.setWidth 17) := by
  unfold State.storeCheck
  rcases s.boundsCheck_cases len with h | h <;> rw [h]
  · simp only
    split <;> simp
  · simp

theorem keyCheck_none {k : Byte} : keyCheck k = none ↔ k.toNat < 16 := by
  unfold keyCheck
  split <;> simp <;> omega

theorem keyCheck_some {k : Byte} (h : 15 < k.toNat) : keyCheck k = some (.keyIndex, k.setWidth 17) := by
  simp [keyCheck, h]

/-- What a bounds check can find (R43). -/
theorem State.boundsCheck_eq_some {len : Nat} {c : FaultCause} {n : BitVec 17}
    (h : s.boundsCheck len = some (c, n)) :
    0 < len ∧ 0xFFF < s.i.toNat + len - 1 ∧ c = .dataBounds ∧ n = boundsInfo s.i := by
  unfold State.boundsCheck at h
  split at h <;> cases h
  rename_i hb
  exact ⟨hb.1, hb.2, rfl, rfl⟩

/-- What the checks of a store can find (R43, R45): the two causes exclude each other. -/
theorem State.storeCheck_eq_some {len : Nat} {c : FaultCause} {n : BitVec 17}
    (h : s.storeCheck len = some (c, n)) :
    (0 < len ∧ 0xFFF < s.i.toNat + len - 1 ∧ c = .dataBounds ∧ n = boundsInfo s.i) ∨
    (s.i.toNat ≤ 0x04F ∧ s.i.toNat + len - 1 ≤ 0xFFF ∧ 0 < len ∧ c = .glyphWrite ∧ n = s.i.setWidth 17) := by
  unfold State.storeCheck at h
  split at h
  · rename_i f hf
    cases h
    exact .inl (s.boundsCheck_eq_some hf)
  · rename_i hf
    split at h <;> cases h
    rename_i hg
    have := s.boundsCheck_none.mp hf
    exact .inr ⟨hg.2, by omega, hg.1, rfl, rfl⟩

theorem State.storeCheck_bounds {len : Nat} (h : 0 < len) (hb : 0xFFF < s.i.toNat + len - 1) :
    s.storeCheck len = some (.dataBounds, boundsInfo s.i) := by
  unfold State.storeCheck
  rw [s.boundsCheck_some h hb]

theorem State.storeCheck_glyph {len : Nat} (h : 0 < len) (hg : s.i.toNat ≤ 0x04F) (hl : len ≤ 16) :
    s.storeCheck len = some (.glyphWrite, s.i.setWidth 17) := by
  unfold State.storeCheck
  rw [s.boundsCheck_none.mpr (by omega)]
  simp only
  rw [if_pos ⟨h, hg⟩]

/-! ### The return stack -/

theorem State.push_cases (w : Word) :
    (∃ h : s.sp.val < 16,
      s.push w = some { s with stack := s.stack.set s.sp.val w h, sp := ⟨s.sp.val + 1, by omega⟩ }) ∨
    (s.sp.val = 16 ∧ s.push w = none) := by
  unfold State.push
  by_cases h : s.sp.val < 16
  · exact .inl ⟨h, by simp [h]⟩
  · exact .inr ⟨by omega, by simp [h]⟩

theorem State.pop_cases :
    (∃ h : 0 < s.sp.val,
      s.pop = some (s.stack[s.sp.val - 1]'(by omega), { s with sp := ⟨s.sp.val - 1, by omega⟩ })) ∨
    (s.sp.val = 0 ∧ s.pop = none) := by
  unfold State.pop
  by_cases h : 0 < s.sp.val
  · exact .inl ⟨h, by simp [h]⟩
  · exact .inr ⟨by omega, by simp [h]⟩

/-! ### Family 8 -/

/-- A family-8 instruction writes registers only: the field of the state that changes is `v`. -/
theorem State.writeAlu_frame (x : Reg) (out : AluOut) :
    s.writeAlu x out = { s with v := (s.writeAlu x out).v } := by
  unfold State.writeAlu
  split
  · rfl
  · split <;> rfl

/-- The registers after the writes of R85. -/
theorem State.reg_writeAlu (x y : Reg) (r : Byte) (f : Bool) :
    (s.writeAlu x (r, some f)).reg y =
      if y = x ∧ (x ≠ flagReg ∨ s.cfg.vfOrder = .flagThenResult) then r
      else if y = flagReg then flagByte f else s.reg y := by
  unfold State.writeAlu
  cases h : s.cfg.vfOrder <;> simp only [State.reg_setReg]
  · by_cases hy : y = x <;> simp [hy]
  · by_cases hy : y = x <;> by_cases hf : y = flagReg <;> simp_all

theorem State.reg_writeAlu_none (x y : Reg) (r : Byte) :
    (s.writeAlu x (r, none)).reg y = if y = x then r else s.reg y := by
  simp [State.writeAlu, State.reg_setReg]

/-- The difference of R91 as a non-negative remainder. -/
theorem aluSub_result (p : BorrowFlag) (a b : Byte) :
    (aluSub p a b).1 = BitVec.ofNat 8 ((a.toNat + 256 - b.toNat) % 256) := by
  have := a.isLt
  have := b.isLt
  apply BitVec.eq_of_toNat_eq
  rw [aluSub, BitVec.toNat_ofInt, BitVec.toNat_ofNat]
  omega

/-- The shifted byte of R92 as a number. -/
theorem aluShr_result (v : Byte) : (aluShr v).1 = BitVec.ofNat 8 (v.toNat / 2) := by
  apply BitVec.eq_of_toNat_eq
  have := v.isLt
  simp [aluShr, Nat.shiftRight_eq_div_pow]
  omega

/-- The shifted byte of R94 as a number. -/
theorem aluShl_result (v : Byte) : (aluShl v).1 = BitVec.ofNat 8 (v.toNat * 2 % 256) := by
  apply BitVec.eq_of_toNat_eq
  simp [aluShl, Nat.shiftLeft_eq]

/-! ### Keys -/

/-- The lowest key of a latch that is not empty is pressed, and none below it is (D12). -/
theorem lowestKey_spec {keys : Word} (h : keys ≠ 0#16) :
    keys.getLsbD (lowestKey keys).toNat = true ∧ ∀ k, k < (lowestKey keys).toNat → keys.getLsbD k = false := by
  unfold lowestKey
  cases hf : (List.range 16).find? (fun k => keys.getLsbD k) with
  | none =>
    exfalso
    apply h
    rw [List.find?_eq_none] at hf
    ext k hk
    simpa [BitVec.getElem_eq_testBit_toNat, BitVec.getLsbD] using hf k (by simpa using hk)
  | some k =>
    rw [List.find?_range_eq_some] at hf
    have hk : k < 16 := by simpa using hf.2.1
    have : (BitVec.ofNat 4 k).toNat = k := by simp; omega
    simp only [this]
    exact ⟨hf.1, fun j hj => by simpa using hf.2.2 j hj⟩

/-- `KEY_PICK` names a pressed key (R104). -/
theorem pickKey_pressed (p : KeyPick) {keys : Word} (h : keys ≠ 0#16) :
    keys.getLsbD (pickKey p keys).toNat = true := by
  cases p with
  | lowest => exact (lowestKey_spec h).1
  | arbitrary =>
    simp only [pickKey]
    split
    · assumption
    · exact (lowestKey_spec h).1

/-! ### Timers -/

theorem tickTimer_toNat (t : Byte) : (tickTimer t).toNat = t.toNat - 1 := by
  unfold tickTimer
  split
  · simp_all
  · rename_i h
    have : t.toNat ≠ 0 := fun e => h (BitVec.eq_of_toNat_eq (by simpa using e))
    have := t.isLt
    rw [BitVec.toNat_sub]
    simp
    omega

end Sys2Proof.Machine
end

