-- ==== Sys2Proof/Laws/Display.lean ====
section
/-! SUPPORT. The frame buffer: what a toggle does to each cell, that a sprite never covers a cell twice, and the
drawing loop of R99 as the pure function of R100. -/

namespace Sys2Proof.Machine

theorem Screen.cell_clear (c : Nat) : Screen.cell Screen.clear c = false := by
  unfold Screen.cell Screen.clear
  split <;> simp

/-- A toggle inverts its own cell and leaves every other cell alone. -/
theorem Screen.cell_toggle (fb : Screen) {c : Nat} (hc : c < 2048) (d : Nat) :
    (Screen.toggle fb c).cell d = if d = c then !fb.cell c else fb.cell d := by
  have hc' : c / 64 < 32 := by omega
  have hm : c % 64 < 64 := Nat.mod_lt _ (by decide)
  have hn : d % 64 < 64 := Nat.mod_lt _ (by decide)
  unfold Screen.toggle Screen.cell
  by_cases hd : d / 64 < 32
  · simp only [hc', hd, dite_true, Vector.getElem_set]
    by_cases hr : c / 64 = d / 64
    · simp only [hr, if_true, BitVec.getLsbD_xor, BitVec.getLsbD_shiftLeft, hn, decide_true, Bool.true_and]
      by_cases he : d = c
      · subst he; simp
      · rw [if_neg he]
        by_cases hlt : d % 64 < c % 64
        · simp [hlt]
        · have hne : d % 64 - c % 64 ≠ 0 := by omega
          simp [hne]
    · have he : d ≠ c := fun e => hr (by rw [e])
      simp [hr, he]
  · have he : d ≠ c := by omega
    simp [hd, he]

theorem spriteCell_lt (vx vy : Byte) (k j : Nat) : spriteCell vx vy k j < 2048 := by
  unfold spriteCell; omega

/-- A sprite of at most 32 rows and 64 columns covers no cell twice (R100). -/
theorem spriteCell_inj {vx vy : Byte} {k k' j j' : Nat} (hk : k < 32) (hk' : k' < 32) (hj : j < 64) (hj' : j' < 64)
    (h : spriteCell vx vy k j = spriteCell vx vy k' j') : k = k' ∧ j = j' := by
  unfold spriteCell at h; omega

/-- Is the cell hit by one of the first `j` pixels of row `k`? -/
def rowHits (vx vy : Byte) (k : Nat) (b : Byte) (j c : Nat) : Bool :=
  (List.range j).any fun l => b.getLsbD (7 - l) && spriteCell vx vy k l == c

theorem rowHits_succ (vx vy : Byte) (k : Nat) (b : Byte) (j c : Nat) :
    rowHits vx vy k b (j + 1) c = (rowHits vx vy k b j c || (b.getLsbD (7 - j) && spriteCell vx vy k j == c)) := by
  simp [rowHits, List.range_succ, List.any_append]

theorem rowHits_self {vx vy : Byte} {k : Nat} {b : Byte} {j : Nat} (hk : k < 32) (hj : j < 64) :
    rowHits vx vy k b j (spriteCell vx vy k j) = false := by
  simp only [rowHits, List.any_eq_false, List.mem_range]
  intro l hl
  simp only [Bool.and_eq_true, beq_iff_eq, not_and]
  intro _ h
  have := (spriteCell_inj hk hk (by omega) hj h).2
  omega

/-- One row of the loop: each cell is inverted if it is hit, and the collision bit records a lit cell that is hit. -/
theorem drawRow_spec (vx vy : Byte) {k : Nat} (hk : k < 32) (b : Byte) (acc : Screen × Bool) {j : Nat} (hj : j ≤ 8) :
    (∀ c, (drawRow vx vy k b j acc).1.cell c = (acc.1.cell c ^^ rowHits vx vy k b j c)) ∧
    (drawRow vx vy k b j acc).2 =
      (acc.2 || (List.range j).any fun l => b.getLsbD (7 - l) && acc.1.cell (spriteCell vx vy k l)) := by
  induction j with
  | zero => exact ⟨fun c => by simp [drawRow, rowHits], by simp [drawRow]⟩
  | succ j ih =>
    obtain ⟨ihc, ihf⟩ := ih (by omega)
    have hself := rowHits_self (vx := vx) (vy := vy) (b := b) hk (show j < 64 by omega)
    simp only [drawRow, drawPixel, rowHits_succ, List.range_succ, List.any_append, List.any_cons, List.any_nil,
      Bool.or_false]
    cases hb : b.getLsbD (7 - j) with
    | false => exact ⟨fun c => by simp [ihc], by simp [ihf]⟩
    | true =>
      refine ⟨fun c => ?_, ?_⟩
      · simp only [if_true, Screen.cell_toggle _ (spriteCell_lt vx vy k j), Bool.true_and]
        by_cases he : c = spriteCell vx vy k j
        · subst he; simp [ihc, hself]
        · simp [ihc, he, Ne.symm he]
      · simp [ihf, ihc, hself, Bool.or_assoc]

/-- Is the cell hit by a sprite bit 1 of one of the first `n` rows: the mask S of R100? -/
def spriteHits (m : Memory) (base : Nat) (vx vy : Byte) (n c : Nat) : Bool :=
  (List.range n).any fun k => rowHits vx vy k (m.read (base + k)) 8 c

theorem spriteHits_succ (m : Memory) (base : Nat) (vx vy : Byte) (n c : Nat) :
    spriteHits m base vx vy (n + 1) c =
      (spriteHits m base vx vy n c || rowHits vx vy n (m.read (base + n)) 8 c) := by
  simp [spriteHits, List.range_succ, List.any_append]

theorem spriteHits_iff {m : Memory} {base : Nat} {vx vy : Byte} {n c : Nat} :
    spriteHits m base vx vy n c = true ↔
      ∃ k j, k < n ∧ j < 8 ∧ (m.read (base + k)).getLsbD (7 - j) = true ∧ spriteCell vx vy k j = c := by
  simp only [spriteHits, rowHits, List.any_eq_true, List.mem_range, Bool.and_eq_true, beq_iff_eq]
  constructor
  · rintro ⟨k, hk, j, hj, hb, hc⟩; exact ⟨k, j, hk, hj, hb, hc⟩
  · rintro ⟨k, j, hk, hj, hb, hc⟩; exact ⟨k, hk, j, hj, hb, hc⟩

theorem spriteHits_lt {m : Memory} {base : Nat} {vx vy : Byte} {n c : Nat}
    (h : spriteHits m base vx vy n c = true) : c < 2048 := by
  obtain ⟨k, j, -, -, -, rfl⟩ := spriteHits_iff.mp h
  exact spriteCell_lt vx vy k j

/-- A later row covers no cell of the rows before it. -/
theorem spriteHits_row {m : Memory} {base : Nat} {vx vy : Byte} {n j : Nat} (hn : n < 32) (hj : j < 8) :
    spriteHits m base vx vy n (spriteCell vx vy n j) = false := by
  rw [Bool.eq_false_iff]
  intro h
  obtain ⟨k, l, hk, hl, -, hc⟩ := spriteHits_iff.mp h
  have := (spriteCell_inj (by omega) hn (by omega) (by omega) hc).1
  omega

/-- The loop of R99 is the pure function of R100: each cell is inverted if it is hit, and the collision bit says
whether some cell that is hit was lit before. -/
theorem drawRows_spec (m : Memory) (base : Nat) (vx vy : Byte) (fb : Screen) {n : Nat} (hn : n ≤ 32) :
    (∀ c, (drawRows m base vx vy n (fb, false)).1.cell c = (fb.cell c ^^ spriteHits m base vx vy n c)) ∧
    ((drawRows m base vx vy n (fb, false)).2 = true ↔
      ∃ c, spriteHits m base vx vy n c = true ∧ fb.cell c = true) := by
  induction n with
  | zero => exact ⟨fun c => by simp [drawRows, spriteHits], by simp [drawRows, spriteHits]⟩
  | succ n ih =>
    obtain ⟨ihc, ihf⟩ := ih (by omega)
    obtain ⟨hc, hf⟩ := drawRow_spec vx vy (show n < 32 by omega) (m.read (base + n))
      (drawRows m base vx vy n (fb, false)) (le_refl 8)
    refine ⟨fun c => ?_, ?_⟩
    · simp only [drawRows, hc, ihc, spriteHits_succ]
      cases h1 : spriteHits m base vx vy n c with
      | false => simp
      | true =>
        have : rowHits vx vy n (m.read (base + n)) 8 c = false := by
          rw [Bool.eq_false_iff]
          intro h2
          simp only [rowHits, List.any_eq_true, List.mem_range, Bool.and_eq_true, beq_iff_eq] at h2
          obtain ⟨j, hj, -, rfl⟩ := h2
          rw [spriteHits_row (by omega) hj] at h1
          cases h1
        simp [this]
    · simp only [drawRows, hf, Bool.or_eq_true, ihf, List.any_eq_true, List.mem_range, Bool.and_eq_true, ihc,
        spriteHits_succ]
      constructor
      · rintro (⟨c, h1, h2⟩ | ⟨j, hj, hb, hx⟩)
        · exact ⟨c, .inl h1, h2⟩
        · rw [spriteHits_row (by omega) hj, Bool.xor_false] at hx
          refine ⟨_, .inr ?_, hx⟩
          simp only [rowHits, List.any_eq_true, List.mem_range, Bool.and_eq_true, beq_iff_eq]
          exact ⟨j, hj, hb, rfl⟩
      · rintro ⟨c, h1 | h1, h2⟩
        · exact .inl ⟨c, h1, h2⟩
        · simp only [rowHits, List.any_eq_true, List.mem_range, Bool.and_eq_true, beq_iff_eq] at h1
          obtain ⟨j, hj, hb, rfl⟩ := h1
          exact .inr ⟨j, hj, hb, by rw [spriteHits_row (by omega) hj, Bool.xor_false]; exact h2⟩

/-- The frame buffer and the collision bit of a sprite drawn from a state (R99, R100). -/
theorem State.sprite_spec (s : State) (x y : Reg) (n : Nibble) :
    (∀ c, Screen.cell (s.sprite x y n.toNat).1 c =
      (Screen.cell s.fb c ^^ spriteHits s.mem (s.ea 0) (s.reg x) (s.reg y) n.toNat c)) ∧
    ((s.sprite x y n.toNat).2 = true ↔
      ∃ c, spriteHits s.mem (s.ea 0) (s.reg x) (s.reg y) n.toNat c = true ∧ Screen.cell s.fb c = true) :=
  drawRows_spec s.mem (s.ea 0) (s.reg x) (s.reg y) s.fb (by have := n.isLt; omega)

/-- `DRW` when the sprite lies in memory (R99). -/
theorem execDrw_ok {s : State} {x y : Reg} {n : Nibble} (h : n = 0#4 ∨ s.i.toNat + n.toNat - 1 ≤ 0xFFF) :
    execDrw x y n s = .next
      (((s.setScreen (s.sprite x y n.toNat).1).setReg flagReg (flagByte (s.sprite x y n.toNat).2)).advance 2#16) := by
  unfold execDrw
  rw [s.boundsCheck_none.mpr (by rcases h with rfl | h; exacts [.inl rfl, .inr h])]
  rfl

/-- Frame buffers with the same cells are the same data. -/
theorem Screen.ext_of_cell {fb fb' : Screen} (h : ∀ c, c < 2048 → fb.cell c = fb'.cell c) : fb = fb' := by
  apply Vector.ext
  intro r hr
  apply BitVec.eq_of_getLsbD_eq
  intro p hp
  have := h (r * 64 + p) (by omega)
  have hd : (r * 64 + p) / 64 = r := by omega
  have hm : (r * 64 + p) % 64 = p := by omega
  simpa [Screen.cell, hd, hm, hr] using this

end Sys2Proof.Machine
end

