-- ==== Sys2Proof/Laws/PerInstr.lean ====
section
/-! SUPPORT. Statements made for every instruction, one lemma per constructor: each instruction is well formed, and
its word lies in its own row of the opcode map (spec/30_encoding.md R54, R56). -/

namespace Sys2Proof.Laws

/-- Masks of R56 written along the fields they keep. -/
theorem mask_family : (0xF000#16 : Word) = 0xF#4 ++ 0#12 := by decide
theorem mask_selector : (0xF00F#16 : Word) = 0xF#4 ++ 0#4 ++ 0#4 ++ 0xF#4 := by decide
theorem mask_byte : (0xF0FF#16 : Word) = 0xF#4 ++ 0#4 ++ 0xFF#8 := by decide
theorem mask_family_fields : (0xF000#16 : Word) = 0xF#4 ++ 0#4 ++ 0#8 := by decide
theorem mask_family_draw : (0xF000#16 : Word) = 0xF#4 ++ 0#4 ++ 0#4 ++ 0#4 := by decide

theorem and_nibble (x : BitVec 4) : x &&& 15#4 = x := BitVec.and_allOnes
theorem and_byte (x : BitVec 8) : x &&& 255#8 = x := BitVec.and_allOnes

theorem masked_A (op : BitVec 4) (nnn : Addr) : ((op ++ nnn : Word) &&& 0xF000#16) = op ++ 0#12 := by
  rw [mask_family, BitVec.and_append]
  simp [and_nibble]

theorem masked_I (op : BitVec 4) (x : Reg) (nn : Byte) :
    ((op ++ x ++ nn : Word) &&& 0xF000#16) = op ++ 0#4 ++ 0#8 := by
  rw [mask_family_fields, BitVec.and_append, BitVec.and_append]
  simp [and_nibble]

theorem masked_R (op : BitVec 4) (x y : Reg) (n : Nibble) :
    ((op ++ x ++ y ++ n : Word) &&& 0xF00F#16) = op ++ 0#4 ++ 0#4 ++ n := by
  rw [mask_selector, BitVec.and_append, BitVec.and_append, BitVec.and_append]
  simp [and_nibble]

theorem masked_D (op : BitVec 4) (x y : Reg) (n : Nibble) :
    ((op ++ x ++ y ++ n : Word) &&& 0xF000#16) = op ++ 0#4 ++ 0#4 ++ 0#4 := by
  rw [mask_family_draw, BitVec.and_append, BitVec.and_append, BitVec.and_append]
  simp [and_nibble]

theorem masked_X (op : BitVec 4) (x : Reg) (sel : Byte) :
    ((op ++ x ++ sel : Word) &&& 0xF0FF#16) = op ++ 0#4 ++ sel := by
  rw [mask_byte, BitVec.and_append, BitVec.and_append]
  simp [and_nibble, and_byte]

namespace RowMatch

/-- The operands fit their fields (R54), and the word of the instruction lies in its row (R56). -/
def Statement (i : Instr) : Prop :=
  i.wf = true ∧ ∃ r, opcodeTable[i.rowIndex]? = some r ∧ (encode i &&& r.mask) = r.pattern

theorem reg_fits (x : Reg) : decide (x.toNat < 16) = true := by simpa using x.isLt
theorem byte_fits (x : Byte) : decide (x.toNat < 256) = true := by simpa using x.isLt
theorem addr_fits (x : Addr) : decide (x.toNat < 4096) = true := by simpa using x.isLt

theorem cls : Statement .cls := ⟨rfl, _, rfl, rfl⟩
theorem ret : Statement .ret := ⟨rfl, _, rfl, rfl⟩
theorem jp (nnn : Addr) : Statement (.jp nnn) := ⟨addr_fits nnn, _, rfl, masked_A _ nnn⟩
theorem call (nnn : Addr) : Statement (.call nnn) := ⟨addr_fits nnn, _, rfl, masked_A _ nnn⟩
theorem ldI (nnn : Addr) : Statement (.ldI nnn) := ⟨addr_fits nnn, _, rfl, masked_A _ nnn⟩
theorem jpV0 (nnn : Addr) : Statement (.jpV0 nnn) := ⟨addr_fits nnn, _, rfl, masked_A _ nnn⟩
theorem seImm (x : Reg) (nn : Byte) : Statement (.seImm x nn) := ⟨by simp only [Instr.wf, reg_fits, byte_fits, Bool.and_self], _, rfl, masked_I _ x nn⟩
theorem sneImm (x : Reg) (nn : Byte) : Statement (.sneImm x nn) := ⟨by simp only [Instr.wf, reg_fits, byte_fits, Bool.and_self], _, rfl, masked_I _ x nn⟩
theorem ldImm (x : Reg) (nn : Byte) : Statement (.ldImm x nn) := ⟨by simp only [Instr.wf, reg_fits, byte_fits, Bool.and_self], _, rfl, masked_I _ x nn⟩
theorem addImm (x : Reg) (nn : Byte) : Statement (.addImm x nn) := ⟨by simp only [Instr.wf, reg_fits, byte_fits, Bool.and_self], _, rfl, masked_I _ x nn⟩
theorem rnd (x : Reg) (nn : Byte) : Statement (.rnd x nn) := ⟨by simp only [Instr.wf, reg_fits, byte_fits, Bool.and_self], _, rfl, masked_I _ x nn⟩
theorem seReg (x y : Reg) : Statement (.seReg x y) := ⟨by simp only [Instr.wf, reg_fits, Bool.and_self], _, rfl, masked_R _ x y _⟩
theorem ldReg (x y : Reg) : Statement (.ldReg x y) := ⟨by simp only [Instr.wf, reg_fits, Bool.and_self], _, rfl, masked_R _ x y _⟩
theorem orReg (x y : Reg) : Statement (.orReg x y) := ⟨by simp only [Instr.wf, reg_fits, Bool.and_self], _, rfl, masked_R _ x y _⟩
theorem andReg (x y : Reg) : Statement (.andReg x y) := ⟨by simp only [Instr.wf, reg_fits, Bool.and_self], _, rfl, masked_R _ x y _⟩
theorem xorReg (x y : Reg) : Statement (.xorReg x y) := ⟨by simp only [Instr.wf, reg_fits, Bool.and_self], _, rfl, masked_R _ x y _⟩
theorem addReg (x y : Reg) : Statement (.addReg x y) := ⟨by simp only [Instr.wf, reg_fits, Bool.and_self], _, rfl, masked_R _ x y _⟩
theorem subReg (x y : Reg) : Statement (.subReg x y) := ⟨by simp only [Instr.wf, reg_fits, Bool.and_self], _, rfl, masked_R _ x y _⟩
theorem shr (x y : Reg) : Statement (.shr x y) := ⟨by simp only [Instr.wf, reg_fits, Bool.and_self], _, rfl, masked_R _ x y _⟩
theorem subnReg (x y : Reg) : Statement (.subnReg x y) := ⟨by simp only [Instr.wf, reg_fits, Bool.and_self], _, rfl, masked_R _ x y _⟩
theorem shl (x y : Reg) : Statement (.shl x y) := ⟨by simp only [Instr.wf, reg_fits, Bool.and_self], _, rfl, masked_R _ x y _⟩
theorem sneReg (x y : Reg) : Statement (.sneReg x y) := ⟨by simp only [Instr.wf, reg_fits, Bool.and_self], _, rfl, masked_R _ x y _⟩
theorem drw (x y : Reg) (n : Nibble) : Statement (.drw x y n) := ⟨by simp only [Instr.wf, reg_fits, Bool.and_self], _, rfl, masked_D _ x y n⟩
theorem skp (x : Reg) : Statement (.skp x) := ⟨reg_fits x, _, rfl, masked_X _ x _⟩
theorem sknp (x : Reg) : Statement (.sknp x) := ⟨reg_fits x, _, rfl, masked_X _ x _⟩
theorem ldVxDT (x : Reg) : Statement (.ldVxDT x) := ⟨reg_fits x, _, rfl, masked_X _ x _⟩
theorem ldVxK (x : Reg) : Statement (.ldVxK x) := ⟨reg_fits x, _, rfl, masked_X _ x _⟩
theorem ldDTVx (x : Reg) : Statement (.ldDTVx x) := ⟨reg_fits x, _, rfl, masked_X _ x _⟩
theorem ldSTVx (x : Reg) : Statement (.ldSTVx x) := ⟨reg_fits x, _, rfl, masked_X _ x _⟩
theorem addI (x : Reg) : Statement (.addI x) := ⟨reg_fits x, _, rfl, masked_X _ x _⟩
theorem ldF (x : Reg) : Statement (.ldF x) := ⟨reg_fits x, _, rfl, masked_X _ x _⟩
theorem ldB (x : Reg) : Statement (.ldB x) := ⟨reg_fits x, _, rfl, masked_X _ x _⟩
theorem storeRegs (x : Reg) : Statement (.storeRegs x) := ⟨reg_fits x, _, rfl, masked_X _ x _⟩
theorem loadRegs (x : Reg) : Statement (.loadRegs x) := ⟨reg_fits x, _, rfl, masked_X _ x _⟩

end RowMatch

end Sys2Proof.Laws
end

