-- ==== Sys2Proof/Laws/Encoding.lean ====
section
/-! SUPPORT. The fields of a word written out in the formats of spec/30_encoding.md R55: a word as a number, and each
field cut from it. -/

namespace Sys2Proof

/-- Appended fields as a number. -/
theorem toNat_append_add {m n : Nat} (x : BitVec m) (y : BitVec n) :
    (x ++ y).toNat = x.toNat * 2 ^ n + y.toNat := by
  rw [BitVec.toNat_append, ← Nat.shiftLeft_add_eq_or_of_lt y.isLt, Nat.shiftLeft_eq]

/-! ### Format A: `op`, `nnn` -/

theorem toNat_formatA (op : BitVec 4) (nnn : Addr) : (op ++ nnn : Word).toNat = op.toNat * 4096 + nnn.toNat :=
  toNat_append_add op nnn

theorem fieldOp_A (op : BitVec 4) (nnn : Addr) : fieldOp (op ++ nnn) = op := by
  apply BitVec.eq_of_toNat_eq
  have := nnn.isLt; have := op.isLt
  simp only [fieldOp, BitVec.extractLsb'_toNat, toNat_formatA, Nat.shiftRight_eq_div_pow]
  omega

theorem fieldNNN_A (op : BitVec 4) (nnn : Addr) : fieldNNN (op ++ nnn) = nnn := by
  apply BitVec.eq_of_toNat_eq
  have := nnn.isLt
  simp only [fieldNNN, BitVec.extractLsb'_toNat, toNat_formatA, Nat.shiftRight_eq_div_pow]
  omega

/-! ### Formats I and X: `op`, `x`, a byte -/

theorem toNat_formatI (op x : BitVec 4) (nn : Byte) :
    (op ++ x ++ nn : Word).toNat = op.toNat * 4096 + x.toNat * 256 + nn.toNat := by
  have h1 := toNat_append_add (op ++ x) nn
  have h2 := toNat_append_add op x
  rw [h2] at h1
  exact h1.trans (by omega)

theorem fieldOp_I (op x : BitVec 4) (nn : Byte) : fieldOp (op ++ x ++ nn) = op := by
  apply BitVec.eq_of_toNat_eq
  have := nn.isLt; have := op.isLt; have := x.isLt
  simp only [fieldOp, BitVec.extractLsb'_toNat, toNat_formatI, Nat.shiftRight_eq_div_pow]
  omega

theorem fieldX_I (op x : BitVec 4) (nn : Byte) : fieldX (op ++ x ++ nn) = x := by
  apply BitVec.eq_of_toNat_eq
  have := nn.isLt; have := op.isLt; have := x.isLt
  simp only [fieldX, BitVec.extractLsb'_toNat, toNat_formatI, Nat.shiftRight_eq_div_pow]
  omega

theorem fieldNN_I (op x : BitVec 4) (nn : Byte) : fieldNN (op ++ x ++ nn) = nn := by
  apply BitVec.eq_of_toNat_eq
  have := nn.isLt
  simp only [fieldNN, BitVec.extractLsb'_toNat, toNat_formatI, Nat.shiftRight_eq_div_pow]
  omega

/-! ### Formats R and D: `op`, `x`, `y`, a nibble -/

theorem toNat_formatR (op x y n : BitVec 4) :
    (op ++ x ++ y ++ n : Word).toNat = op.toNat * 4096 + x.toNat * 256 + y.toNat * 16 + n.toNat := by
  have h1 := toNat_append_add (op ++ x ++ y) n
  have h2 := toNat_append_add (op ++ x) y
  have h3 := toNat_append_add op x
  rw [h2, h3] at h1
  exact h1.trans (by omega)

theorem fieldOp_R (op x y n : BitVec 4) : fieldOp (op ++ x ++ y ++ n) = op := by
  apply BitVec.eq_of_toNat_eq
  have := op.isLt; have := x.isLt; have := y.isLt; have := n.isLt
  simp only [fieldOp, BitVec.extractLsb'_toNat, toNat_formatR, Nat.shiftRight_eq_div_pow]
  omega

theorem fieldX_R (op x y n : BitVec 4) : fieldX (op ++ x ++ y ++ n) = x := by
  apply BitVec.eq_of_toNat_eq
  have := op.isLt; have := x.isLt; have := y.isLt; have := n.isLt
  simp only [fieldX, BitVec.extractLsb'_toNat, toNat_formatR, Nat.shiftRight_eq_div_pow]
  omega

theorem fieldY_R (op x y n : BitVec 4) : fieldY (op ++ x ++ y ++ n) = y := by
  apply BitVec.eq_of_toNat_eq
  have := x.isLt; have := y.isLt; have := n.isLt
  simp only [fieldY, BitVec.extractLsb'_toNat, toNat_formatR, Nat.shiftRight_eq_div_pow]
  omega

theorem fieldN_R (op x y n : BitVec 4) : fieldN (op ++ x ++ y ++ n) = n := by
  apply BitVec.eq_of_toNat_eq
  have := n.isLt
  simp only [fieldN, BitVec.extractLsb'_toNat, toNat_formatR, Nat.shiftRight_eq_div_pow]
  omega

/-! ### Two bytes -/

/-- The two bytes of a word put together again. -/
theorem wordBytes_append (w : Word) : (w.extractLsb' 8 8 ++ w.extractLsb' 0 8 : Word) = w := by
  apply BitVec.eq_of_toNat_eq
  have h := toNat_append_add (w.extractLsb' 8 8) (w.extractLsb' 0 8)
  have := w.isLt
  rw [show (w.extractLsb' 8 8 ++ w.extractLsb' 0 8 : Word).toNat =
    (w.extractLsb' 8 8 ++ w.extractLsb' 0 8).toNat from rfl, h]
  simp only [BitVec.extractLsb'_toNat, Nat.shiftRight_eq_div_pow]
  omega

/-- A word is its family, its `x` field and its low byte. -/
theorem word_eq_I (w : Word) : w = (fieldOp w ++ fieldX w ++ fieldNN w : Word) := by
  apply BitVec.eq_of_toNat_eq
  have := w.isLt
  rw [toNat_formatI]
  simp only [fieldOp, fieldX, fieldNN, BitVec.extractLsb'_toNat, Nat.shiftRight_eq_div_pow]
  omega

/-- A word is its family and its address field. -/
theorem word_eq_A (w : Word) : w = (fieldOp w ++ fieldNNN w : Word) := by
  apply BitVec.eq_of_toNat_eq
  have := w.isLt
  rw [toNat_formatA]
  simp only [fieldOp, fieldNNN, BitVec.extractLsb'_toNat, Nat.shiftRight_eq_div_pow]
  omega

/-- A word is its family and its three nibbles. -/
theorem word_eq_R (w : Word) : w = (fieldOp w ++ fieldX w ++ fieldY w ++ fieldN w : Word) := by
  apply BitVec.eq_of_toNat_eq
  have := w.isLt
  rw [toNat_formatR]
  simp only [fieldOp, fieldX, fieldY, fieldN, BitVec.extractLsb'_toNat, Nat.shiftRight_eq_div_pow]
  omega

/-! ### The decoder on a written-out word, family by family -/

theorem decode_A1 (nnn : Addr) : decode (0x1#4 ++ nnn) = .ok (.jp nnn) := by
  simp [decode, fieldOp_A, fieldNNN_A]
theorem decode_A2 (nnn : Addr) : decode (0x2#4 ++ nnn) = .ok (.call nnn) := by
  simp [decode, fieldOp_A, fieldNNN_A]
theorem decode_AA (nnn : Addr) : decode (0xA#4 ++ nnn) = .ok (.ldI nnn) := by
  simp [decode, fieldOp_A, fieldNNN_A]
theorem decode_AB (nnn : Addr) : decode (0xB#4 ++ nnn) = .ok (.jpV0 nnn) := by
  simp [decode, fieldOp_A, fieldNNN_A]
theorem decode_I3 (x : Reg) (nn : Byte) : decode (0x3#4 ++ x ++ nn) = .ok (.seImm x nn) := by
  simp [decode, fieldOp_I, fieldX_I, fieldNN_I]
theorem decode_I4 (x : Reg) (nn : Byte) : decode (0x4#4 ++ x ++ nn) = .ok (.sneImm x nn) := by
  simp [decode, fieldOp_I, fieldX_I, fieldNN_I]
theorem decode_I6 (x : Reg) (nn : Byte) : decode (0x6#4 ++ x ++ nn) = .ok (.ldImm x nn) := by
  simp [decode, fieldOp_I, fieldX_I, fieldNN_I]
theorem decode_I7 (x : Reg) (nn : Byte) : decode (0x7#4 ++ x ++ nn) = .ok (.addImm x nn) := by
  simp [decode, fieldOp_I, fieldX_I, fieldNN_I]
theorem decode_IC (x : Reg) (nn : Byte) : decode (0xC#4 ++ x ++ nn) = .ok (.rnd x nn) := by
  simp [decode, fieldOp_I, fieldX_I, fieldNN_I]
theorem decode_R5 (x y : Reg) (n : Nibble) :
    decode (0x5#4 ++ x ++ y ++ n) = if n = 0#4 then .ok (.seReg x y) else .error .unknown5 := by
  simp [decode, fieldOp_R, fieldX_R, fieldY_R, fieldN_R]
theorem decode_R8 (x y : Reg) (n : Nibble) : decode (0x8#4 ++ x ++ y ++ n) = decodeFamily8 x y n := by
  simp [decode, fieldOp_R, fieldX_R, fieldY_R, fieldN_R]
theorem decode_R9 (x y : Reg) (n : Nibble) :
    decode (0x9#4 ++ x ++ y ++ n) = if n = 0#4 then .ok (.sneReg x y) else .error .unknown9 := by
  simp [decode, fieldOp_R, fieldX_R, fieldY_R, fieldN_R]
theorem decode_D (x y : Reg) (n : Nibble) : decode (0xD#4 ++ x ++ y ++ n) = .ok (.drw x y n) := by
  simp [decode, fieldOp_R, fieldX_R, fieldY_R, fieldN_R]
theorem decode_XE (x : Reg) (sel : Byte) : decode (0xE#4 ++ x ++ sel) = decodeFamilyE x sel := by
  simp [decode, fieldOp_I, fieldX_I, fieldNN_I]
theorem decode_XF (x : Reg) (sel : Byte) : decode (0xF#4 ++ x ++ sel) = decodeFamilyF x sel := by
  simp [decode, fieldOp_I, fieldX_I, fieldNN_I]

/-! ### The masks of R56 as fields, and the last family -/

theorem mask_selector_byte (w : Word) : (w &&& 0xF0FF#16) = (fieldOp w ++ 0#4 ++ fieldNN w : Word) := by
  conv_lhs => rw [word_eq_I w]
  exact Laws.masked_X _ _ _

theorem mask_family_only (w : Word) : (w &&& 0xF000#16) = (fieldOp w ++ 0#12 : Word) := by
  conv_lhs => rw [word_eq_A w]
  exact Laws.masked_A _ _

theorem mask_selector_nibble (w : Word) :
    (w &&& 0xF00F#16) = (fieldOp w ++ 0#4 ++ 0#4 ++ fieldN w : Word) := by
  conv_lhs => rw [word_eq_R w]
  exact Laws.masked_R _ _ _ _

/-- The family that is none of 0 to E is F: the last arm of the decoder. -/
theorem family_F : ∀ op : BitVec 4, (op = 0x0#4 → False) → (op = 0x1#4 → False) → (op = 0x2#4 → False) →
    (op = 0x3#4 → False) → (op = 0x4#4 → False) → (op = 0x5#4 → False) → (op = 0x6#4 → False) →
    (op = 0x7#4 → False) → (op = 0x8#4 → False) → (op = 0x9#4 → False) → (op = 0xA#4 → False) →
    (op = 0xB#4 → False) → (op = 0xC#4 → False) → (op = 0xD#4 → False) → (op = 0xE#4 → False) →
    op = 0xF#4 := by decide

/-- A selector that is none of the nine has no row (R57). -/
theorem decodeFamilyF_unknown {sel : Byte} (h : sel ∉ familyFSelectors) (x : Reg) :
    decodeFamilyF x sel = .error .unknownF := by
  simp [familyFSelectors] at h
  simp [decodeFamilyF, h]

/-! ### Zero extension to the 17 bits of `FAULT_INFO` -/

theorem setWidth17_byte (b : Byte) : (b.setWidth 17 : BitVec 17) = 0#9 ++ b := by
  apply BitVec.eq_of_toNat_eq
  rw [toNat_append_add]
  have := b.isLt
  simp
  omega

theorem setWidth17_addr (a : Addr) : (a.setWidth 17 : BitVec 17) = 0#5 ++ a := by
  apply BitVec.eq_of_toNat_eq
  rw [toNat_append_add]
  have := a.isLt
  simp
  omega

theorem setWidth17_word (w : Word) : (w.setWidth 17 : BitVec 17) = 0#1 ++ w := by
  apply BitVec.eq_of_toNat_eq
  rw [toNat_append_add]
  have := w.isLt
  simp
  omega

end Sys2Proof
end

