-- ==== Sys2Proof/Laws/Exec.lean ====
section
/-! SUPPORT. What an instruction can do: it always answers a next state, and that state is a recorded fault or a
completed (or stalled) instruction, whose effect on memory, `PC`, the stack and the status registers is one of a
few forms. Invariants are proved from these, not from the meanings. -/

namespace Sys2Proof.Machine

/-- What an instruction that does not fault does to the parts of the state an invariant speaks of. -/
structure Completes (s t : State) : Prop where
  fault : t.fault = s.fault
  faultPc : t.faultPc = s.faultPc
  faultInfo : t.faultInfo = s.faultInfo
  diag : t.diag = s.diag
  diagPc : t.diagPc = s.diagPc
  diagWord : t.diagWord = s.diagWord
  key : t.key = s.key
  cfg : t.cfg = s.cfg
  atLaunch : t.atLaunch = s.atLaunch
  /-- Memory is unchanged, or bytes were stored at `I` upward, above the glyph table and inside memory. -/
  mem : t.mem = s.mem ∨ ∃ bs : List Byte, t.mem = s.mem.writeBytes s.i.toNat bs ∧ 0x4F < s.i.toNat ∧
    s.i.toNat + bs.length ≤ 0x1000
  /-- `PC` advanced by 0, 2 or 4, was set to a value of at most 0x10FE, or was popped (R68). -/
  pc : t.pc = s.pc ∨ t.pc = s.pc + 2#16 ∨ t.pc = s.pc + 4#16 ∨ t.pc.toNat ≤ 0x10FE ∨
    ∃ k : Fin 16, k.val < s.sp.val ∧ t.pc = s.stack[k] + 2#16
  /-- Entries were only popped, or `PC` was pushed. -/
  stack : (t.stack = s.stack ∧ t.sp.val ≤ s.sp.val) ∨
    ∃ h : s.sp.val < 16, t.stack = s.stack.set s.sp.val s.pc h ∧ t.sp.val = s.sp.val + 1

/-- An instruction that writes registers, `I`, timers or the display, and advances by 2. -/
theorem Completes.of_advance {s t : State} (hm : t.mem = s.mem) (hp : t.pc = s.pc) (hs : t.stack = s.stack)
    (hsp : t.sp = s.sp) (hf : t.fault = s.fault) (hfp : t.faultPc = s.faultPc) (hfi : t.faultInfo = s.faultInfo)
    (hd : t.diag = s.diag) (hdp : t.diagPc = s.diagPc) (hdw : t.diagWord = s.diagWord) (hk : t.key = s.key)
    (hc : t.cfg = s.cfg) (hl : t.atLaunch = s.atLaunch) : Completes s (t.advance 2#16) where
  fault := hf
  faultPc := hfp
  faultInfo := hfi
  diag := hd
  diagPc := hdp
  diagWord := hdw
  key := hk
  cfg := hc
  atLaunch := hl
  mem := .inl hm
  pc := .inr (.inl (by simp [hp]))
  stack := .inl ⟨hs, by simp [hsp]⟩

theorem Completes.of_skip (s : State) (c : Bool) : Completes s (s.skipIf c) where
  fault := rfl
  faultPc := rfl
  faultInfo := rfl
  diag := rfl
  diagPc := rfl
  diagWord := rfl
  key := rfl
  cfg := rfl
  atLaunch := rfl
  mem := .inl rfl
  pc := by cases c <;> simp
  stack := .inl ⟨rfl, le_refl _⟩

theorem Completes.of_setPc (s : State) {w : Word} (hw : w.toNat ≤ 0x10FE) : Completes s (s.setPc w) where
  fault := rfl
  faultPc := rfl
  faultInfo := rfl
  diag := rfl
  diagPc := rfl
  diagWord := rfl
  key := rfl
  cfg := rfl
  atLaunch := rfl
  mem := .inl rfl
  pc := .inr (.inr (.inr (.inl hw)))
  stack := .inl ⟨rfl, le_refl _⟩

theorem Completes.refl (s : State) : Completes s s where
  fault := rfl
  faultPc := rfl
  faultInfo := rfl
  diag := rfl
  diagPc := rfl
  diagWord := rfl
  key := rfl
  cfg := rfl
  atLaunch := rfl
  mem := .inl rfl
  pc := .inl rfl
  stack := .inl ⟨rfl, le_refl _⟩

theorem Completes.of_store (s : State) {bs : List Byte} (hg : 0x4F < s.i.toNat)
    (hb : s.i.toNat + bs.length ≤ 0x1000) : Completes s ((s.storeAtI bs).advance 2#16) where
  fault := rfl
  faultPc := rfl
  faultInfo := rfl
  diag := rfl
  diagPc := rfl
  diagWord := rfl
  key := rfl
  cfg := rfl
  atLaunch := rfl
  mem := .inr ⟨bs, rfl, hg, hb⟩
  pc := .inr (.inl rfl)
  stack := .inl ⟨rfl, le_refl _⟩

theorem Completes.of_writeAlu (s : State) (x : Reg) (out : AluOut) :
    Completes s ((s.writeAlu x out).advance 2#16) := by
  rw [State.writeAlu_frame]
  exact .of_advance rfl rfl rfl rfl rfl rfl rfl rfl rfl rfl rfl rfl rfl

theorem Completes.of_setRegs (s : State) (bs : List Byte) : Completes s ((s.setRegs bs).advance 2#16) :=
  .of_advance (by simp) (by simp) (by simp) (by simp) (by simp) (by simp) (by simp) (by simp) (by simp) (by simp)
    (by simp) (by simp) (by simp)

/-- What a completed instruction or a recorded fault leaves. -/
def Ends (s t : State) : Prop := (∃ c n, c ≠ .noFault ∧ t = s.raise c n) ∨ Completes s t

theorem ends_call (nnn : Addr) (s t : State) (h : execCall nnn s = .next t) : Ends s t := by
  unfold execCall at h
  rcases s.push_cases s.pc with ⟨hlt, hp⟩ | ⟨-, hp⟩ <;> rw [hp] at h <;> cases h
  · refine .inr ⟨rfl, rfl, rfl, rfl, rfl, rfl, rfl, rfl, rfl, .inl rfl, .inr (.inr (.inr (.inl ?_))), .inr ⟨hlt, rfl, rfl⟩⟩
    have := nnn.isLt
    simp [address]
    omega
  · exact .inl ⟨_, _, by decide, rfl⟩

theorem ends_ret (s t : State) (h : execRet s = .next t) : Ends s t := by
  unfold execRet at h
  rcases s.pop_cases with ⟨hlt, hp⟩ | ⟨-, hp⟩ <;> rw [hp] at h <;> cases h
  · refine .inr ⟨rfl, rfl, rfl, rfl, rfl, rfl, rfl, rfl, rfl, .inl rfl, .inr (.inr (.inr (.inr ?_))),
      .inl ⟨rfl, Nat.sub_le _ _⟩⟩
    exact ⟨⟨s.sp.val - 1, by omega⟩, by simp; omega, rfl⟩
  · exact .inl ⟨_, _, by decide, rfl⟩

theorem offsetTarget_le (s : State) (nnn : Addr) : (s.offsetTarget nnn).toNat ≤ 0x10FE := by
  have h1 := nnn.isLt
  have h2 := (s.reg 0#4).isLt
  simp only [State.offsetTarget, address, BitVec.toNat_add, BitVec.toNat_setWidth]
  omega

theorem ends_check {s t effect : State} {check : Option (FaultCause × BitVec 17)}
    (hc : ∀ c n, check = some (c, n) → c ≠ .noFault) (he : check = none → Completes s effect)
    (h : s.orFault check effect = .next t) : Ends s t := by
  rcases s.orFault_cases h with ⟨c, n, hf, rfl⟩ | ⟨hf, rfl⟩
  · exact .inl ⟨c, n, hc c n hf, rfl⟩
  · exact .inr (he hf)

theorem boundsCheck_fault {s : State} {len : Nat} (c : FaultCause) (n : BitVec 17)
    (h : s.boundsCheck len = some (c, n)) : c ≠ .noFault := by
  rcases s.boundsCheck_cases len with h' | h' <;> rw [h'] at h <;> cases h
  decide

theorem storeCheck_fault {s : State} {len : Nat} (c : FaultCause) (n : BitVec 17)
    (h : s.storeCheck len = some (c, n)) : c ≠ .noFault := by
  rcases s.storeCheck_cases len with h' | h' | h' <;> rw [h'] at h <;> cases h <;> decide

theorem keyCheck_fault {k : Byte} (c : FaultCause) (n : BitVec 17) (h : keyCheck k = some (c, n)) :
    c ≠ .noFault := by
  unfold keyCheck at h
  split at h <;> cases h
  decide

theorem ends_store {s t : State} {bs : List Byte} {len : Nat} (hl : 0 < len) (hbs : bs.length ≤ len)
    (h : s.orFault (s.storeCheck len) ((s.storeAtI bs).advance 2#16) = .next t) : Ends s t := by
  refine ends_check storeCheck_fault (fun hn => ?_) h
  have := (s.storeCheck_none hl).mp hn
  exact .of_store s this.1 (by omega)

/-- Every instruction ends in a recorded fault or in its effect. -/
theorem exec_cases {i : Instr} {s t : State} (h : exec i s = .next t) : Ends s t := by
  cases i with
  | cls => cases h; exact .inr (.of_advance rfl rfl rfl rfl rfl rfl rfl rfl rfl rfl rfl rfl rfl)
  | ret => exact ends_ret s t h
  | jp nnn =>
    cases h
    have := nnn.isLt
    exact .inr (.of_setPc s (by simp only [address, BitVec.toNat_setWidth]; omega))
  | call nnn => exact ends_call nnn s t h
  | seImm x nn => cases h; exact .inr (.of_skip s _)
  | sneImm x nn => cases h; exact .inr (.of_skip s _)
  | seReg x y => cases h; exact .inr (.of_skip s _)
  | sneReg x y => cases h; exact .inr (.of_skip s _)
  | ldImm x nn => cases h; exact .inr (.of_advance rfl rfl rfl rfl rfl rfl rfl rfl rfl rfl rfl rfl rfl)
  | addImm x nn => cases h; exact .inr (.of_advance rfl rfl rfl rfl rfl rfl rfl rfl rfl rfl rfl rfl rfl)
  | ldReg x y => cases h; exact .inr (.of_writeAlu s _ _)
  | orReg x y => cases h; exact .inr (.of_writeAlu s _ _)
  | andReg x y => cases h; exact .inr (.of_writeAlu s _ _)
  | xorReg x y => cases h; exact .inr (.of_writeAlu s _ _)
  | addReg x y => cases h; exact .inr (.of_writeAlu s _ _)
  | subReg x y => cases h; exact .inr (.of_writeAlu s _ _)
  | shr x y => cases h; exact .inr (.of_writeAlu s _ _)
  | subnReg x y => cases h; exact .inr (.of_writeAlu s _ _)
  | shl x y => cases h; exact .inr (.of_writeAlu s _ _)
  | ldI nnn => cases h; exact .inr (.of_advance rfl rfl rfl rfl rfl rfl rfl rfl rfl rfl rfl rfl rfl)
  | jpV0 nnn => cases h; exact .inr (.of_setPc s (offsetTarget_le s nnn))
  | rnd x nn => cases h; exact .inr (.of_advance rfl rfl rfl rfl rfl rfl rfl rfl rfl rfl rfl rfl rfl)
  | drw x y n =>
    have he : Completes s ((((s.setScreen (s.sprite x y n.toNat).1).setReg flagReg
        (flagByte (s.sprite x y n.toNat).2))).advance 2#16) :=
      .of_advance rfl rfl rfl rfl rfl rfl rfl rfl rfl rfl rfl rfl rfl
    exact ends_check boundsCheck_fault (fun _ => he) h
  | skp x => exact ends_check keyCheck_fault (fun _ => .of_skip s _) h
  | sknp x => exact ends_check keyCheck_fault (fun _ => .of_skip s _) h
  | ldVxDT x => cases h; exact .inr (.of_advance rfl rfl rfl rfl rfl rfl rfl rfl rfl rfl rfl rfl rfl)
  | ldVxK x =>
    cases h
    split
    · exact .inr (.refl s)
    · exact .inr (.of_advance rfl rfl rfl rfl rfl rfl rfl rfl rfl rfl rfl rfl rfl)
  | ldDTVx x => cases h; exact .inr (.of_advance rfl rfl rfl rfl rfl rfl rfl rfl rfl rfl rfl rfl rfl)
  | ldSTVx x => cases h; exact .inr (.of_advance rfl rfl rfl rfl rfl rfl rfl rfl rfl rfl rfl rfl rfl)
  | addI x => cases h; exact .inr (.of_advance rfl rfl rfl rfl rfl rfl rfl rfl rfl rfl rfl rfl rfl)
  | ldF x => cases h; exact .inr (.of_advance rfl rfl rfl rfl rfl rfl rfl rfl rfl rfl rfl rfl rfl)
  | ldB x => exact ends_store (by decide) (by simp [decimalDigits]) h
  | storeRegs x => exact ends_store (Nat.succ_pos _) (by simp) h
  | loadRegs x => exact ends_check boundsCheck_fault (fun _ => .of_setRegs s _) h

theorem orFault_next (s : State) (check : Option (FaultCause × BitVec 17)) (effect : State) :
    ∃ t, s.orFault check effect = .next t := by
  unfold State.orFault
  split <;> exact ⟨_, rfl⟩

/-- Every instruction answers a next state: none stops the model. -/
theorem exec_next (i : Instr) (s : State) : ∃ t, exec i s = .next t := by
  cases i with
  | ret =>
    show ∃ t, execRet s = .next t
    unfold execRet
    split <;> exact ⟨_, rfl⟩
  | call nnn =>
    show ∃ t, execCall nnn s = .next t
    unfold execCall
    split <;> exact ⟨_, rfl⟩
  | drw x y n => exact orFault_next s _ _
  | skp x => exact orFault_next s _ _
  | sknp x => exact orFault_next s _ _
  | ldB x => exact orFault_next s _ _
  | storeRegs x => exact orFault_next s _ _
  | loadRegs x => exact orFault_next s _ _
  | _ => exact ⟨_, rfl⟩

end Sys2Proof.Machine
end

