-- ==== Sys2Proof/Laws/Step.lean ====
section
/-! SUPPORT. What a step can do: one inversion lemma for decode and dispatch, one for the whole step. -/

namespace Sys2Proof.Machine

theorem State.halted_iff (s : State) : s.halted = true ↔ s.fault ≠ .noFault := by
  simp [State.halted]

theorem State.not_halted_iff (s : State) : s.halted = false ↔ s.fault = .noFault := by
  simp [State.halted]

theorem State.fetch_eq_some {s : State} {w : Word} :
    s.fetch = some w ↔ s.pc.toNat ≤ 0xFFE ∧ w = s.mem.readWord s.pc.toNat := by
  unfold State.fetch
  split
  · rename_i h; simp [h, eq_comm]
  · rename_i h; simp [h]

theorem State.fetch_eq_none {s : State} : s.fetch = none ↔ 0xFFE < s.pc.toNat := by
  unfold State.fetch
  split <;> simp <;> omega

/-- Decode and dispatch always answer a next state. -/
theorem runWord_next (w : Word) (s : State) : ∃ t, runWord w s = .next t := by
  unfold runWord
  split
  · exact exec_next _ s
  · split <;> exact ⟨_, rfl⟩

/-- A fetched word runs a row of the table, or `LD Vx,ST`, or the unknown-opcode path. -/
theorem runWord_cases {w : Word} {s t : State} (h : runWord w s = .next t) :
    (∃ i, decode w = .ok i ∧ exec i s = .next t) ∨
    (∃ e x, decode w = .error e ∧ decodeReadSound s.cfg.rdstSel w = some x ∧ t = (s.setReg x s.st).advance 2#16) ∨
    (∃ e, decode w = .error e ∧ decodeReadSound s.cfg.rdstSel w = none ∧ t = s.unknown w) := by
  unfold runWord at h
  split at h
  · exact .inl ⟨_, ‹_›, h⟩
  · split at h
    · cases h; exact .inr (.inl ⟨_, _, ‹_›, ‹_›, rfl⟩)
    · cases h; exact .inr (.inr ⟨_, ‹_›, ‹_›, rfl⟩)

/-- A step of a machine that is not halted, after a fetch. -/
theorem step_of_fetch {s d : State} {w : Word} (hh : s.halted = false) (hf : s.fetch = some w)
    (hr : runWord w s = .next d) : step s = .next (d.afterDispatch (wordLabel w s d)) := by
  simp [step, State.cycle, hh, hf, finishWord, hr]

theorem label_of_fetch {s d : State} {w : Word} (hh : s.halted = false) (hf : s.fetch = some w)
    (hr : runWord w s = .next d) : s.label = wordLabel w s d := by
  simp [State.label, State.cycle, hh, hf, finishWord, hr]

theorem step_of_halted {s : State} (hh : s.halted = true) : step s = .next s := by
  simp [step, State.cycle, hh]

theorem label_of_halted {s : State} (hh : s.halted = true) : s.label = .halted := by
  simp [State.label, State.cycle, hh]

theorem step_of_fetch_none {s : State} (hh : s.halted = false) (hf : s.fetch = none) :
    step s = .next (s.raise .fetchBounds (boundsInfo s.pc)).launched := by
  simp [step, State.cycle, hh, hf]

theorem label_of_fetch_none {s : State} (hh : s.halted = false) (hf : s.fetch = none) : s.label = .faulted := by
  simp [State.label, State.cycle, hh, hf]

/-- Everything a step can do (R65, R118). -/
theorem step_cases {s t : State} (h : step s = .next t) :
    (s.halted = true ∧ t = s) ∨
    (s.halted = false ∧ s.fetch = none ∧ t = (s.raise .fetchBounds (boundsInfo s.pc)).launched) ∨
    (∃ w d, s.halted = false ∧ s.fetch = some w ∧ runWord w s = .next d ∧
      t = d.afterDispatch (wordLabel w s d)) := by
  cases hh : s.halted with
  | true => rw [step_of_halted hh] at h; cases h; exact .inl ⟨rfl, rfl⟩
  | false =>
    cases hf : s.fetch with
    | none => rw [step_of_fetch_none hh hf] at h; cases h; exact .inr (.inl ⟨rfl, rfl, rfl⟩)
    | some w =>
      obtain ⟨d, hd⟩ := runWord_next w s
      rw [step_of_fetch hh hf hd] at h
      cases h
      exact .inr (.inr ⟨w, d, rfl, rfl, hd, rfl⟩)

/-- The last part of a step ends the launch sequence, with a tick or without. -/
theorem State.afterDispatch_cases (s : State) (l : Label) :
    s.afterDispatch l = s.launched ∨ s.afterDispatch l = s.tick.launched := by
  unfold State.afterDispatch
  split <;> simp

@[simp] theorem State.afterDispatch_faulted (s : State) : s.afterDispatch .faulted = s.launched := rfl

@[simp] theorem State.afterDispatch_atLaunch (s : State) (l : Label) : (s.afterDispatch l).atLaunch = false := rfl

/-- After the step of a core that is not halted, no `Load` is admitted (R71). -/
theorem step_atLaunch {s t : State} (hh : s.halted = false) (h : step s = .next t) : t.atLaunch = false := by
  rcases step_cases h with ⟨hs, -⟩ | ⟨-, -, rfl⟩ | ⟨w, d, -, -, -, rfl⟩
  · rw [hh] at hs; cases hs
  · rfl
  · rfl

/-- The last part of a step touches the two timers and ends the launch sequence. -/
theorem State.afterDispatch_frame (s : State) (l : Label) :
    s.afterDispatch l =
      { s with dt := (s.afterDispatch l).dt, st := (s.afterDispatch l).st, atLaunch := false } := by
  rcases s.afterDispatch_cases l with h | h <;> rw [h] <;> rfl

@[simp] theorem State.afterDispatch_fault (s : State) (l : Label) : (s.afterDispatch l).fault = s.fault := by
  rcases s.afterDispatch_cases l with h | h <;> rw [h] <;> rfl

theorem runWord_ok {s : State} {w : Word} {i : Instr} (h : decode w = .ok i) : runWord w s = exec i s := by
  unfold runWord
  rw [h]

theorem runWord_unknown {s : State} {w : Word} {e : DecodeError} (h : decode w = .error e)
    (h' : decodeReadSound s.cfg.rdstSel w = none) : runWord w s = .next (s.unknown w) := by
  unfold runWord
  rw [h]
  simp only [h']

theorem exec_cfg {i : Instr} {s t : State} (h : exec i s = .next t) : t.cfg = s.cfg := by
  rcases exec_cases h with ⟨c, n, -, rfl⟩ | h
  · rfl
  · exact h.cfg

/-- The label of an instruction that did not fault (R70). -/
theorem wordLabel_ok {s d : State} {w : Word} {i : Instr} (hd : decode w = .ok i) (hdf : d.fault = .noFault) :
    wordLabel w s d = if i.waitsForKey = true ∧ s.key = 0#16 then .stalled else .executed := by
  simp [wordLabel, wordStalls, wordUnknown, hd, State.halted, hdf]

/-- The end of a step that executed or skipped a word: the tick of `PerStep` (R65, R69). -/
theorem State.afterDispatch_done {s d : State} {l : Label} (h : l = .executed ∨ l = .decodeError)
    (hc : d.cfg = s.cfg) :
    d.afterDispatch l = (if s.cfg.timerMode = .perStep then d.tick else d).launched := by
  rcases h with rfl | rfl <;> simp [State.afterDispatch, Label.ticks, hc]

end Sys2Proof.Machine
end

