-- ==== Sys2Proof/Laws/Events.lean ====
section
/-! SUPPORT. The parts of a well-formed configuration, and memory at reset (R32, R133). -/

namespace Sys2Proof.Machine

/-- What a well-formed configuration promises (R5, R37, R38). -/
theorem Config.wf_parts {c : Config} (h : c.wf = true) :
    c.glyphs.length = 80 ∧ (c.memInit.Pairwise fun a b => a.1 < b.1) ∧
    ∀ d ∈ c.memInit, 0x50 ≤ d.1 ∧ d.1 < 0x1000 := by
  simp only [Config.wf, Config.glyphsFit, Config.memInitRising, Config.memInitInRange, Bool.and_eq_true,
    beq_iff_eq, decide_eq_true_eq] at h
  obtain ⟨⟨⟨⟨-, h2⟩, h3⟩, h4⟩, -⟩ := h
  exact ⟨h2, h3, fun d hd => by simpa using List.all_eq_true.mp h4 d hd⟩

/-- After reset the glyph table reads as `GLYPHS` (R133). -/
theorem read_resetMemory_glyph {c : Config} (h : c.wf = true) {a : Nat} (ha : a < 80) :
    (resetMemory c).read a = c.glyphs.getD a 0#8 := by
  obtain ⟨h1, -, h3⟩ := Config.wf_parts h
  unfold resetMemory
  rw [Memory.read_writeCells_ne (fun d hd => by have := h3 d hd; omega), Memory.read_writeBytes,
    if_pos (by omega)]
  simp

/-- Memory at reset is in canonical form. -/
theorem resetMemory_wf {c : Config} (h : c.wf = true) : (resetMemory c).wf := by
  obtain ⟨h1, -, h3⟩ := Config.wf_parts h
  exact Memory.writeCells_wf (Memory.writeBytes_wf Memory.nil_wf (by omega)) fun d hd => (h3 d hd).2

end Sys2Proof.Machine
end

