-- ==== Sys2Proof/Tests/Slice0.lean ====
section
/-! SUPPORT. Tests. Expected values come from spec/95_test_vectors.md (the rows T1 to T110, named in each comment), from
the encodings of spec/30_encoding.md written out bit by bit, and from hand calculation. Part 1: the checks of
WellFormed. Part 2: decoding. Part 3: one step at a time. Part 4: a witness for each statement that has hypotheses. -/

namespace Sys2Proof.Tests

open Sys2Proof Sys2Proof.Machine Sys2Proof.Claims

/-! ### Part 1: well-formedness -/

/-- A configuration that differs from the default in its glyph table, `MEM_INIT` and `RDST_SEL`. -/
def cfg (sel : Option Byte) (glyphs : List Byte) (memInit : List Host.Cell) : Config :=
  { Config.default with rdstSel := sel, glyphs := glyphs, memInit := memInit }

theorem test_wf_default : Config.default.wf = true := by decide
theorem test_wf_accepts_open_parameters :
    (cfg (some 0x75) defaultGlyphs [(0x50, 1), (0xFFF, 0xFF)]).wf = true := by decide
theorem test_wf_refuses_taken_selector :
    (cfg (some 0x65) defaultGlyphs []).rdstSelFree = false ∧ (cfg (some 0x65) defaultGlyphs []).wf = false := by decide
theorem test_wf_refuses_short_glyphs :
    (cfg none (defaultGlyphs.take 79) []).glyphsFit = false ∧ (cfg none (defaultGlyphs.take 79) []).wf = false := by
  decide
theorem test_wf_refuses_unsorted_memInit :
    (cfg none defaultGlyphs [(0x51, 1), (0x50, 1)]).memInitRising = false ∧
    (cfg none defaultGlyphs [(0x51, 1), (0x50, 1)]).wf = false := by decide
theorem test_wf_refuses_repeated_memInit :
    (cfg none defaultGlyphs [(0x50, 1), (0x50, 2)]).memInitRising = false := by decide
theorem test_wf_refuses_memInit_in_glyphs :
    (cfg none defaultGlyphs [(0x4F, 1)]).memInitInRange = false ∧
    (cfg none defaultGlyphs [(0x4F, 1)]).wf = false := by decide
theorem test_wf_refuses_memInit_outside :
    (cfg none defaultGlyphs [(0x1000, 1)]).memInitInRange = false := by decide
theorem test_wf_refuses_listed_zero :
    (cfg none defaultGlyphs [(0x300, 0)]).memInitListed = false ∧
    (cfg none defaultGlyphs [(0x300, 0)]).wf = false := by decide
/-- Every instruction term is well formed: the field types are the field widths (R54), so no ill-formed one exists. -/
theorem test_wf_instructions : (Instr.drw 0xF#4 0xF#4 0xF#4).wf = true ∧ (Instr.jp 0xFFF#12).wf = true := by decide

theorem test_memory_wf_refuses_unsorted : ¬ Memory.wf [(0x301, 1), (0x300, 1)] := by decide
theorem test_memory_wf_refuses_background : ¬ Memory.wf [(0x000, 0xF0)] ∧ ¬ Memory.wf [(0x300, 0)] := by decide
theorem test_memory_wf_refuses_outside : ¬ Memory.wf [(0x1000, 1)] := by decide
theorem test_memory_write_removes :
    Memory.write [(0x300, 7)] 0x300 0 = [] ∧ Memory.write [(0x300, 7)] 0x2FF 9 = [(0x2FF, 9), (0x300, 7)] := by decide
theorem test_reset_memory_wf : State.reset.mem.wf := by decide

/-! ### Part 2: decoding, from words written out bit by bit (R55, R56) -/

theorem test_decode_family0 :
    decode (0b0000000011100000#16) = .ok (.cls) ∧
    decode (0b0000000011101110#16) = .ok (.ret) := by decide
theorem test_decode_family1_2 :
    decode (0b0001001100000001#16) = .ok (.jp 0x301) ∧
    decode (0b0010101010111100#16) = .ok (.call 0xABC) := by decide
theorem test_decode_family3_4 :
    decode (0b0011101001000010#16) = .ok (.seImm 0xA 0x42) ∧
    decode (0b0100001000000111#16) = .ok (.sneImm 2 0x07) := by decide
theorem test_decode_family5_9 :
    decode (0b0101001101000000#16) = .ok (.seReg 3 4) ∧
    decode (0b1001001101000000#16) = .ok (.sneReg 3 4) := by decide
theorem test_decode_family6_7 :
    decode (0b0110000000000101#16) = .ok (.ldImm 0 0x05) ∧
    decode (0b0111000000000011#16) = .ok (.addImm 0 0x03) := by decide
theorem test_decode_family8_logic :
    decode (0b1000000100100000#16) = .ok (.ldReg 1 2) ∧
    decode (0b1000000100100001#16) = .ok (.orReg 1 2) ∧
    decode (0b1000000100100010#16) = .ok (.andReg 1 2) ∧
    decode (0b1000000100100011#16) = .ok (.xorReg 1 2) := by decide
theorem test_decode_family8_flags :
    decode (0b1000000000010100#16) = .ok (.addReg 0 1) ∧
    decode (0b1000000000010101#16) = .ok (.subReg 0 1) ∧
    decode (0b1000000100100110#16) = .ok (.shr 1 2) ∧
    decode (0b1000000000010111#16) = .ok (.subnReg 0 1) ∧
    decode (0b1000000100101110#16) = .ok (.shl 1 2) := by decide
theorem test_decode_familyA_B_C :
    decode (0b1010001100000000#16) = .ok (.ldI 0x300) ∧
    decode (0b1011001100000000#16) = .ok (.jpV0 0x300) ∧
    decode (0b1100000100001111#16) = .ok (.rnd 1 0x0F) := by decide
theorem test_decode_familyD_E :
    decode (0b1101000000010010#16) = .ok (.drw 0 1 2) ∧
    decode (0b1110010010011110#16) = .ok (.skp 4) ∧
    decode (0b1110010010100001#16) = .ok (.sknp 4) := by decide
theorem test_decode_familyF_timers :
    decode (0b1111001100000111#16) = .ok (.ldVxDT 3) ∧
    decode (0b1111010100001010#16) = .ok (.ldVxK 5) ∧
    decode (0b1111000000010101#16) = .ok (.ldDTVx 0) ∧
    decode (0b1111000100011000#16) = .ok (.ldSTVx 1) := by decide
theorem test_decode_familyF_memory :
    decode (0b1111001000011110#16) = .ok (.addI 2) ∧
    decode (0b1111001000101001#16) = .ok (.ldF 2) ∧
    decode (0b1111000000110011#16) = .ok (.ldB 0) ∧
    decode (0b1111001001010101#16) = .ok (.storeRegs 2) ∧
    decode (0b1111001001100101#16) = .ok (.loadRegs 2) := by decide
/-- R60, T10, T19, T20, T46, T77, T101: words of no row. -/
theorem test_decode_refuses :
    decode 0x0000#16 = .error .unknown0 ∧ decode 0x00E1#16 = .error .unknown0 ∧ decode 0x0123#16 = .error .unknown0 ∧
    decode 0x5121#16 = .error .unknown5 ∧ decode 0x8128#16 = .error .unknown8 ∧ decode 0x812F#16 = .error .unknown8 ∧
    decode 0x9121#16 = .error .unknown9 ∧ decode 0xE09F#16 = .error .unknownE ∧ decode 0xE0A0#16 = .error .unknownE ∧
    decode 0xFFFF#16 = .error .unknownF ∧ decode 0xF000#16 = .error .unknownF ∧ decode 0xF085#16 = .error .unknownF := by
  decide
theorem test_decode_bytes : decodeBytes [0x60, 0x05, 0x70] = .ok (.ldImm 0 5, [0x70]) ∧
    decodeBytes [0x60] = .error .truncated ∧ encodeBytes (.ldImm 0 5) = [0x60, 0x05] := by decide
theorem test_decodeTableWord : decodeTableWord 16 0x6005 = some (.ldImm 0 5) ∧ decodeTableWord 16 0x0000 = none := by
  decide

/-! ### Part 3: one step each -/

/-- A program word at `PC`, in a state built from reset. -/
def prog (w : Word) (f : State → State) : State := (f State.reset).placeWord w

/-- What is read from the state a result answers with. -/
def get {α : Type} (r : Result) (g : State → α) : Option α :=
  match r with
  | .next t => some (g t)
  | .fault _ => none
  | .refused _ => none

/-- The fault triple of spec/95. -/
def triple (t : State) : FaultCause × Word × BitVec 17 := (t.fault, t.faultPc, t.faultInfo)

/-- The rows of a screen with a lit cell: each with its number, column px being bit px. -/
def lit (fb : Screen) : List (BitVec 64 × Nat) := fb.toList.zipIdx.filter fun p => p.1 != 0

/-- A state with some registers set. -/
def regs (l : List (Reg × Byte)) (s : State) : State := l.foldl (fun s p => s.setReg p.1 p.2) s

/-- A state with some bytes of memory set. -/
def bytes (a : Nat) (l : List Byte) (s : State) : State := { s with mem := s.mem.writeBytes a l }

/-- The configuration with external ticks. -/
def external (s : State) : State := { s with cfg := { s.cfg with timerMode := .external } }

theorem test_withFetchWord : get (step (State.reset.withFetchWord 16 0x6005)) (fun t => (t.reg 0, t.pc)) =
    some (0x05, 0x202) := by decide

/-- T1. -/
theorem test_cls : get (step (prog 0x00E0 fun s => { s with fb := (Screen.toggle s.fb 5).toggle 2047, dt := 9, st := 1 })) (fun t => (lit t.fb, t.draw, t.pc, t.dt, t.st)) =
    some ([], true, 0x202, 8, 0) := by decide
/-- T3. -/
theorem test_ret_empty : get (step (prog 0x00EE fun s => s)) (fun t => (triple t, t.pc, t.sp.val)) =
    some ((.stackUnderflow, 0x200, 0), 0x200, 0) := by decide
/-- T4. -/
theorem test_ret : get (step (prog 0x00EE fun s => { s with pc := 0x400, sp := 2, stack := (s.stack.set 0 0x200).set 1 0xFFE })) (fun t => (t.sp.val, t.pc)) =
    some (1, 0x1000) := by decide
/-- T5. -/
theorem test_jp : get (step (prog 0x1FFF fun s => s)) (fun t => t.pc) =
    some (0x0FFF) := by decide
/-- T8. -/
theorem test_call : get (step (prog 0x2ABC fun s => { s with sp := 15 })) (fun t => (t.stack[15], t.sp.val, t.pc)) =
    some (0x200, 16, 0xABC) := by decide
/-- T9. -/
theorem test_call_full : get (step (prog 0x2ABC fun s => { s with sp := 16 })) (fun t => (triple t, t.pc, t.sp.val)) =
    some ((.stackOverflow, 0x200, 0xABC), 0x200, 16) := by decide
/-- T11. -/
theorem test_seImm : get (step (prog 0x3A42 fun s => regs [(10, 0x42)] s)) (fun t => t.pc) =
    some (0x204) := by decide
/-- T12. -/
theorem test_seImm_not : get (step (prog 0x3A42 fun s => regs [(10, 0x43)] s)) (fun t => t.pc) =
    some (0x202) := by decide
/-- T13. -/
theorem test_sneImm : get (step (prog 0x4A42 fun s => regs [(10, 0x42)] s)) (fun t => t.pc) =
    some (0x202) := by decide
/-- T14. -/
theorem test_sneImm_not : get (step (prog 0x4A42 fun s => regs [(10, 0x43)] s)) (fun t => t.pc) =
    some (0x204) := by decide
/-- T15. -/
theorem test_seReg : get (step (prog 0x5120 fun s => regs [(1, 1), (2, 2)] s)) (fun t => t.pc) =
    some (0x202) := by decide
/-- T16. -/
theorem test_seReg_same : get (step (prog 0x5AA0 fun s => regs [(10, 0x99)] s)) (fun t => t.pc) =
    some (0x204) := by decide
/-- T17. -/
theorem test_sneReg : get (step (prog 0x9120 fun s => regs [(1, 1), (2, 2)] s)) (fun t => t.pc) =
    some (0x204) := by decide
/-- T18. -/
theorem test_sneReg_same : get (step (prog 0x9120 fun s => regs [(1, 2), (2, 2)] s)) (fun t => t.pc) =
    some (0x202) := by decide
/-- T22. -/
theorem test_ldImm : get (step (prog 0x6FAB fun s => s)) (fun t => (t.reg 15, t.pc)) =
    some (0xAB, 0x202) := by decide
/-- T23. -/
theorem test_addImm : get (step (prog 0x70FF fun s => regs [(0, 2), (15, 0x55)] s)) (fun t => (t.reg 0, t.reg 15)) =
    some (1, 0x55) := by decide
/-- T24. -/
theorem test_addImm_VF : get (step (prog 0x7F03 fun s => regs [(15, 0xFE)] s)) (fun t => t.reg 15) =
    some (1) := by decide
/-- T26. -/
theorem test_ldReg : get (step (prog 0x8120 fun s => regs [(1, 0x11), (2, 0x22)] s)) (fun t => (t.reg 1, t.reg 2)) =
    some (0x22, 0x22) := by decide
/-- T27. -/
theorem test_orReg : get (step (prog 0x8121 fun s => regs [(1, 0xF0), (2, 0x0F), (15, 0x77)] s)) (fun t => (t.reg 1, t.reg 15)) =
    some (0xFF, 0x77) := by decide
/-- T28. -/
theorem test_andReg : get (step (prog 0x8122 fun s => regs [(1, 0xF0), (2, 0x3C)] s)) (fun t => t.reg 1) =
    some (0x30) := by decide
/-- T29. -/
theorem test_xorReg : get (step (prog 0x8123 fun s => regs [(1, 0xF0), (2, 0x3C)] s)) (fun t => t.reg 1) =
    some (0xCC) := by decide
/-- T32. -/
theorem test_addReg : get (step (prog 0x8014 fun s => regs [(0, 0xFF), (1, 0x01)] s)) (fun t => (t.reg 0, t.reg 15)) =
    some (0, 1) := by decide
/-- T35. -/
theorem test_addReg_VF_source : get (step (prog 0x80F4 fun s => regs [(0, 0x10), (15, 1)] s)) (fun t => (t.reg 0, t.reg 15)) =
    some (0x11, 0) := by decide
/-- T36. -/
theorem test_subReg_equal : get (step (prog 0x8015 fun s => regs [(0, 7), (1, 7)] s)) (fun t => (t.reg 0, t.reg 15)) =
    some (0, 1) := by decide
/-- T37, with BORROW_FLAG = Borrow. -/
theorem test_subReg_borrow : get (step (prog 0x8015 fun s => regs [(1, 1)] { s with cfg := { s.cfg with borrowFlag := .borrow } })) (fun t => (t.reg 0, t.reg 15)) =
    some (0xFF, 1) := by decide
/-- T40. -/
theorem test_subnReg : get (step (prog 0x8017 fun s => regs [(0, 1)] s)) (fun t => (t.reg 0, t.reg 15, t.reg 1)) =
    some (0xFF, 0, 0) := by decide
/-- T50. -/
theorem test_subnReg_VF : get (step (prog 0x8F17 fun s => regs [(15, 5), (1, 3)] s)) (fun t => (t.reg 15, t.reg 1)) =
    some (0xFE, 3) := by decide
/-- T42. -/
theorem test_shr : get (step (prog 0x8126 fun s => regs [(1, 0x05), (2, 0xF0)] s)) (fun t => (t.reg 1, t.reg 15, t.reg 2)) =
    some (0x02, 1, 0xF0) := by decide
/-- T42, with SHIFT_SRC = Y. -/
theorem test_shr_Y : get (step (prog 0x8126 fun s => regs [(1, 0x05), (2, 0xF0)] { s with cfg := { s.cfg with shiftSrc := .y } })) (fun t => (t.reg 1, t.reg 15, t.reg 2)) =
    some (0x78, 0, 0xF0) := by decide
/-- T43. -/
theorem test_shl : get (step (prog 0x812E fun s => regs [(1, 0x81), (2, 0x40)] s)) (fun t => (t.reg 1, t.reg 15)) =
    some (0x02, 1) := by decide
/-- T52, with VF_ORDER = ResultThenFlag. -/
theorem test_shl_VF : get (step (prog 0x8F0E fun s => regs [(15, 0xC0)] { s with cfg := { s.cfg with vfOrder := .resultThenFlag } })) (fun t => t.reg 15) =
    some (1) := by decide
/-- T54. -/
theorem test_ldI : get (step (prog 0xAFFF fun s => s)) (fun t => (t.i, t.pc)) =
    some (0xFFF, 0x202) := by decide
/-- T56. -/
theorem test_jpV0 : get (step (prog 0xBFFF fun s => regs [(0, 0xFF)] s)) (fun t => t.pc) =
    some (0x10FE) := by decide
/-- T58: `RND V3,0x0F` when the sampled byte is 0xA7. -/
theorem test_rnd : get (rndWith 0xA7 3 0x0F State.reset) (fun t => (t.reg 3, t.pc, t.rndIndex)) =
    some (0x07, 0x202, 1) := by decide
/-- T59: the mask 0 gives 0 whatever byte the step samples. -/
theorem test_rnd_mask0 : get (step (prog 0xC300 fun s => regs [(3, 0x11)] s)) (fun t => t.pc) = some 0x202 ∧
    ∀ r : Byte, r &&& 0x00#8 = 0x00#8 := ⟨rfl, fun r => by simp⟩
/-- T61. -/
theorem test_drw_wraps : get (step (prog 0xD012 fun s => bytes 0x212 [0xF0, 0x81] (regs [(0, 62), (1, 31)] (s.setI 0x212)))) (fun t => (lit t.fb, t.reg 15, t.draw)) =
    some ([(0x4000000000000020, 0), (0xC000000000000003, 31)], 0, true) := by decide
/-- T64. -/
theorem test_drw_collision : get (step (prog 0xD011 fun s => bytes 0x300 [0xC0] { s with i := 0x300, fb := Screen.toggle s.fb 1 })) (fun t => (lit t.fb, t.reg 15, t.draw)) =
    some ([(1, 0)], 1, true) := by decide
/-- T71. -/
theorem test_skp : get (step (prog 0xE09E fun s => regs [(0, 15)] { s with key := 0x8000 })) (fun t => t.pc) =
    some (0x204) := by decide
/-- T75. -/
theorem test_skp_index : get (step (prog 0xE09E fun s => regs [(0, 16)] s)) (fun t => (triple t, t.pc)) =
    some ((.keyIndex, 0x200, 0x10), 0x200) := by decide
/-- T72. -/
theorem test_sknp : get (step (prog 0xE0A1 fun s => regs [(0, 15)] { s with key := 0x8000 })) (fun t => t.pc) =
    some (0x202) := by decide
/-- T74. -/
theorem test_sknp_up : get (step (prog 0xE0A1 fun s => s)) (fun t => t.pc) =
    some (0x204) := by decide
/-- T78. -/
theorem test_ldVxDT : get (step (prog 0xF307 fun s => { s with dt := 0x2A })) (fun t => (t.reg 3, t.dt, t.pc)) =
    some (0x2A, 0x29, 0x202) := by decide
/-- T78, with TIMER_MODE = External. -/
theorem test_ldVxDT_external : get (step (prog 0xF307 fun s => external { s with dt := 0x2A })) (fun t => (t.reg 3, t.dt)) =
    some (0x2A, 0x2A) := by decide
/-- T80. -/
theorem test_ldDTVx : get (step (prog 0xF015 fun s => regs [(0, 1)] s)) (fun t => t.dt) =
    some (0) := by decide
/-- T82. -/
theorem test_ldSTVx : get (step (prog 0xF118 fun s => regs [(1, 0x1E)] s)) (fun t => (t.st, t.dt)) =
    some (0x1D, 0) := by decide
/-- T83. -/
theorem test_ldVxK_stall : get (step (prog 0xF50A fun s => regs [(5, 0xEE)] { s with dt := 5, st := 1 })) (fun t => (t.pc, t.reg 5, t.dt, t.st)) =
    some (0x200, 0xEE, 4, 0) := by decide
/-- T86. -/
theorem test_ldVxK : get (step (prog 0xF50A fun s => { s with key := 0x0208 })) (fun t => (t.reg 5, t.pc)) =
    some (3, 0x202) := by decide
/-- T88. -/
theorem test_addI : get (step (prog 0xF21E fun s => regs [(2, 1)] (s.setI 0xFFFF))) (fun t => t.i) =
    some (0) := by decide
/-- T87. -/
theorem test_addI_noflag : get (step (prog 0xF21E fun s => regs [(2, 1), (15, 0x33)] (s.setI 0x0FFF))) (fun t => (t.i, t.reg 15)) =
    some (0x1000, 0x33) := by decide
/-- T89. -/
theorem test_ldF : get (step (prog 0xF229 fun s => regs [(2, 0x1A)] s)) (fun t => t.i) =
    some (0x32) := by decide
/-- T90. -/
theorem test_ldB : get (step (prog 0xF033 fun s => regs [(0, 255)] (s.setI 0xFFD))) (fun t => (t.mem.readBytes 0xFFD 3, t.i, t.pc)) =
    some ([2, 5, 5], 0xFFD, 0x202) := by decide
/-- T93. -/
theorem test_ldB_glyph : get (step (prog 0xF033 fun s => regs [(0, 255)] (s.setI 0x04F))) (fun t => (triple t, t.mem.readBytes 0x4F 3)) =
    some ((.glyphWrite, 0x200, 0x4F), [0x80, 0, 0]) := by decide
/-- T94, with V[14] = 0x0E. -/
theorem test_storeRegs : get (step (prog 0xFF55 fun s => regs [(14, 0x0E), (15, 0xAA)] (s.setI 0xFF0))) (fun t => (t.mem.readBytes 0xFFD 3, t.i)) =
    some ([0, 0x0E, 0xAA], 0xFF0) := by decide
/-- T95. -/
theorem test_storeRegs_bounds : get (step (prog 0xFF55 fun s => s.setI 0xFF1)) (fun t => (triple t, t.mem.read 0xFF1)) =
    some ((.dataBounds, 0x200, 0x1000), 0) := by decide
/-- T98. -/
theorem test_loadRegs : get (step (prog 0xF465 fun s => regs [(5, 9)] s)) (fun t => ((List.range 6).map (fun k => t.reg (BitVec.ofNat 4 k)), t.i)) =
    some ([0xF0, 0x90, 0x90, 0x90, 0xF0, 9], 0) := by decide
/-- T99. -/
theorem test_loadRegs_bounds : get (step (prog 0xF165 fun s => regs [(0, 1), (1, 2)] (s.setI 0xFFF))) (fun t => (triple t, t.reg 0, t.reg 1)) =
    some ((.dataBounds, 0x200, 0x1000), 1, 2) := by decide
/-- The example of R112, with RDST_SEL = 0x75. -/
theorem test_ldVxST : get (step (prog 0xF375 fun s => { s with st := 0x10, cfg := cfg (some 0x75) defaultGlyphs [] })) (fun t => (t.reg 3, t.st, t.diag)) =
    some (0x10, 0x0F, false) := by decide
/-- T101. -/
theorem test_decode_error : get (step (prog 0xFFFF fun s => { s with dt := 3 })) (fun t => (t.pc, t.diag, t.diagPc, t.diagWord, t.dt)) =
    some (0x202, true, 0x200, 0xFFFF, 2) := by decide
/-- T105. -/
theorem test_strict : get (step (prog 0x0000 fun s => { s with cfg := { s.cfg with strictDecode := true } })) (fun t => (triple t, t.pc, t.diag)) =
    some ((.illegalOpcode, 0x200, 0), 0x200, false) := by decide
/-- T102. -/
theorem test_fetch_bounds : get (step (prog 0x0000 fun s => { s with pc := 0xFFF })) (fun t => (triple t, t.pc)) =
    some ((.fetchBounds, 0xFFF, 0x1000), 0xFFF) := by decide
/-- T106: a halted step changes nothing. -/
theorem test_halted : step { State.reset with fault := .keyIndex, dt := 3 } =
    .next { State.reset with fault := .keyIndex, dt := 3 } := rfl
/-- T108: an external tick at 0 stays at 0. -/
theorem test_tick : get (event .tick (external { State.reset with dt := 2 })) (fun t => (t.dt, t.st)) =
    some (1, 0) := by decide
/-- T110 and T109 on a small image: the bytes land at 0x200, also when keys went down after the reset. -/
theorem test_load : get (event (.load [0x60, 0x05]) State.reset) (fun t => t.mem.readBytes 0x1FF 4) =
    some [0, 0x60, 0x05, 0] ∧
    get (run [.setKeys 1, .load [0x60]] State.reset) (fun t => t.mem.read 0x200) = some 0x60 := by decide
/-- R71, U22: no load after a step, not even after a stall that changed nothing (`MEM_INIT` holds F00A at 0x200), nor
after a load that changed nothing, until the next reset. -/
theorem test_load_once :
    get (run [.step, .load [0x60]] (State.resetFor (cfg none defaultGlyphs [(0x200, 0xF0), (0x201, 0x0A)]) 0))
      (fun t => t.pc) = none ∧
    get (run [.load [], .load [0x60]] State.reset) (fun t => t.pc) = none ∧
    get (run [.load [], .reset, .load [0x60]] State.reset) (fun t => t.mem.read 0x200) = some 0x60 := by decide
/-- S1: two steps of the source's own scenario. -/
theorem test_S1 : get (run [.load [0x60, 0x05, 0x70, 0x03], .step, .step] State.reset)
    (fun t => (t.reg 0, t.pc, t.reg 15)) = some (8, 0x204, 0) := by decide

/-! ### Part 4: a concrete state and operands for each statement that has hypotheses, and for each of its clauses -/

/-- A state with a program word at 0x200. -/
def at0 (w : Word) : State := prog w id

/-- The stack pointer set. -/
def withSp (n : Fin 17) : State := { State.reset with sp := n }

/-- `I` set. -/
def withI (w : Word) : State := State.reset.setI w

theorem witness_DecodeOfEncode : (Instr.drw 0xF#4 0xF#4 0xF#4).wf = true ∧ (Instr.call 0#12).wf = true := by decide
theorem witness_EncodeOfDecode : decode 0x812E#16 = .ok (.shl 1#4 2#4) := by decide
theorem witness_DecoderFollows : (0x75#8 : Byte) ∉ familyFSelectors ∧
    (0xF375#16 &&& 0xF0FF#16) = (0xF000#16 ||| (0x75#8).setWidth 16) := by decide
theorem witness_Ret : (withSp 1).sp.val = (0 : Fin 16).val + 1 ∧ (withSp 16).sp.val = (15 : Fin 16).val + 1 ∧
    (withSp 0).sp.val = 0 := by decide
theorem witness_Call : (withSp 0).sp.val = (0 : Fin 16).val ∧ (withSp 15).sp.val = (15 : Fin 16).val ∧
    (withSp 16).sp.val = 16 := by decide
theorem witness_SkipsImm : (regs [(0xF, 0xFF)] State.reset).reg 0xF = 0xFF#8 ∧ State.reset.reg 0xF ≠ 0xFF#8 := by
  decide
theorem witness_SkipsReg : State.reset.reg 0 = State.reset.reg 0xF ∧
    (regs [(0xF, 1)] State.reset).reg 0 ≠ (regs [(0xF, 1)] State.reset).reg 0xF ∧ (0xF#4 : Nibble) ≠ 0x0#4 := by decide
theorem witness_SkipsKeys :
    (((regs [(0, 15)] State.reset).setKeys 0x8000).reg 0).toNat ≤ 15 ∧
    ((regs [(0, 15)] State.reset).setKeys 0x8000).key.getLsbD 15 = true ∧
    ((regs [(0, 15)] State.reset).setKeys 0x7FFF).key.getLsbD 15 = false ∧
    15 < ((regs [(0, 16)] State.reset).reg 0).toNat := by decide
theorem witness_AddImm : (0xE#4 : Reg) ≠ 0xF#4 := by decide
/-- Both settings of `VF_ORDER` with `x = 15`, and `x ≠ 15`, for the register writes of R85. -/
theorem witness_WritesResultAndFlag : State.reset.cfg.vfOrder = .flagThenResult ∧
    ({ State.reset.cfg with vfOrder := .resultThenFlag } : Config).vfOrder = .resultThenFlag ∧
    (0xE#4 : Reg) ≠ 0xF#4 := by decide
/-- Both settings of `BORROW_FLAG`. -/
theorem witness_Subtracts : State.reset.cfg.borrowFlag = .notBorrow ∧
    ({ State.reset.cfg with borrowFlag := .borrow } : Config).borrowFlag = .borrow := by decide
/-- Both settings of `SHIFT_SRC`: the value is the one register, or the other. -/
theorem witness_Shifts :
    (∃ (s : State) (v : Byte), s.cfg.shiftSrc = .x ∧ (s.cfg.shiftSrc = .x → v = s.reg 1) ∧
      (s.cfg.shiftSrc = .y → v = s.reg 2) ∧ v = 0x81) ∧
    ∃ (s : State) (v : Byte), s.cfg.shiftSrc = .y ∧ (s.cfg.shiftSrc = .x → v = s.reg 1) ∧
      (s.cfg.shiftSrc = .y → v = s.reg 2) ∧ v = 0x40 :=
  ⟨⟨regs [(1, 0x81), (2, 0x40)] State.reset, 0x81, by decide⟩,
   ⟨regs [(1, 0x81), (2, 0x40)] { State.reset with cfg := { State.reset.cfg with shiftSrc := .y } }, 0x40, by decide⟩⟩
theorem witness_WriteOrder : (0xE#4 : Reg) ≠ 0xF#4 ∧ Instr.subReg 0xE#4 0xF#4 ∈ flagWritingAlu 0xE#4 0xF#4 ∧
    ∃ t, exec (.subReg 0xE#4 0xF#4) State.reset = .next t := ⟨by decide, by decide, _, rfl⟩
/-- The three timer instructions at 0x200, in both timer modes. -/
theorem witness_Timers : Fetches (at0 0xF307) (.ldVxDT 3) ∧ Fetches (at0 0xF015) (.ldDTVx 0) ∧
    Fetches (external (at0 0xF118)) (.ldSTVx 1) ∧ (at0 0xF015).cfg.timerMode = .perStep ∧
    (external (at0 0xF118)).cfg.timerMode = .external := by unfold Fetches; decide
theorem witness_LdK : State.reset.key = 0#16 ∧ (State.reset.setKeys 0x8000).key ≠ 0#16 ∧
    (State.reset.setKeys 0x8000).cfg.keyPick = .lowest := by decide
/-- The lowest and the highest address of the store, and the first address past each bound (T90 to T93). -/
theorem witness_LdB : 0x04F < (withI 0x050).ea 0 ∧ (withI 0x050).ea 2 ≤ 0xFFF ∧ 0x04F < (withI 0xFFD).ea 0 ∧
    (withI 0xFFD).ea 2 ≤ 0xFFF ∧ 0xFFF < (withI 0xFFE).ea 2 ∧ (withI 0x04F).ea 0 ≤ 0x04F := by decide
theorem witness_StoreRegs : 0x04F < (withI 0x050).ea 0 ∧ (withI 0xFF0).ea (0xF#4 : Reg).toNat ≤ 0xFFF ∧
    0x04F < (withI 0xFF0).ea 0 ∧ 0xFFF < (withI 0xFF1).ea (0xF#4 : Reg).toNat ∧ (withI 0x04F).ea 0 ≤ 0x04F := by
  decide
theorem witness_LoadRegs : (withI 0x000).ea (0x0#4 : Reg).toNat ≤ 0xFFF ∧
    (withI 0xFF0).ea (0xF#4 : Reg).toNat ≤ 0xFFF ∧ 0xFFF < (withI 0x1000).ea (0x0#4 : Reg).toNat := by decide
theorem witness_StoreThenLoad : 0x04F < (withI 0xFF0).ea 0 ∧ (withI 0xFF0).ea (0xF#4 : Reg).toNat ≤ 0xFFF := by decide
/-- `LD V3,ST` with `RDST_SEL = 0x75`, in both timer modes. -/
def readsSound : State := { at0 0xF375 with cfg := cfg (some 0x75) defaultGlyphs [] }
theorem witness_ReadSound : (0x75#8 : Byte) ∉ familyFSelectors ∧ readsSound.cfg.rdstSel = some 0x75 ∧
    readsSound.fault = .noFault ∧ readsSound.pc.toNat ≤ 0xFFE ∧
    readsSound.mem.read readsSound.pc.toNat = 0xF#4 ++ 0x3#4 ∧
    readsSound.mem.read (readsSound.pc.toNat + 1) = 0x75#8 ∧ readsSound.cfg.timerMode = .perStep ∧
    (external readsSound).cfg.timerMode = .external ∧ (external readsSound).cfg.rdstSel = some 0x75 := by decide
/-- The empty sprite at any `I`, the sprite that ends at the last byte, and the one that leaves memory (T66 to T68). -/
theorem witness_Drw : (0#4 : Nibble) = 0#4 ∧ (withI 0xFFF).i.toNat + (1#4 : Nibble).toNat - 1 ≤ 0xFFF ∧
    (2#4 : Nibble) ≠ 0#4 ∧ 0xFFF < (withI 0xFFF).i.toNat + (2#4 : Nibble).toNat - 1 := by decide
/-- Glyph 0 drawn at the origin hits cell 0 and not cell 65; with cell 0 lit before, that is a collision (T70). -/
theorem witness_SpriteHits : SpriteHits State.reset 0 0 5 0 ∧ ¬ SpriteHits State.reset 0 0 1 65 ∧
    Screen.cell (Screen.toggle State.reset.fb 0) 0 = true ∧ Screen.cell State.reset.fb 0 = false := by
  refine ⟨⟨0, 0, by decide, by decide, by decide, by decide⟩, ?_, by decide, by decide⟩
  rintro ⟨k, j, hk, hj, -, h⟩
  have hr : (State.reset.reg 0).toNat = 0 := by decide
  rw [hr] at h
  omega
theorem witness_DoubleDraw : (0#4 : Reg) ≠ 0xF#4 ∧ (0xE#4 : Reg) ≠ 0xF#4 ∧
    (withI 0xFFF).i.toNat + (1#4 : Nibble).toNat - 1 ≤ 0xFFF := by decide
/-- The four forms of a step: it faults, it completes with external ticks, it completes and ticks, it stalls. -/
theorem witness_StepRuns :
    (Fetches (at0 0x00EE) .ret ∧ ∃ d, exec .ret (at0 0x00EE) = .next d ∧ d.fault ≠ .noFault) ∧
    (Fetches (external (at0 0x6005)) (.ldImm 0 5) ∧
      ∃ d, exec (.ldImm 0 5) (external (at0 0x6005)) = .next d ∧ d.fault = .noFault) ∧
    (Fetches (at0 0x6005) (.ldImm 0 5) ∧ (at0 0x6005).cfg.timerMode = .perStep ∧
      ∃ d, exec (.ldImm 0 5) (at0 0x6005) = .next d ∧ d.fault = .noFault) ∧
    (Fetches (at0 0xF50A) (.ldVxK 5) ∧ (at0 0xF50A).key = 0#16 ∧
      ∃ d, exec (.ldVxK 5) (at0 0xF50A) = .next d ∧ d.fault = .noFault) := by
  unfold Fetches
  exact ⟨⟨by decide, _, rfl, by decide⟩, ⟨by decide, _, rfl, by decide⟩, ⟨by decide, by decide, _, rfl, by decide⟩,
    ⟨by decide, by decide, _, rfl, by decide⟩⟩
theorem witness_FetchOutside : State.reset.fault = .noFault ∧ 0xFFE < (State.reset.setPc 0xFFF).pc.toNat ∧
    0xFFF < (State.reset.setPc 0x1000).pc.toNat := by decide
/-- An unknown word at 0x200, with and without `STRICT_DECODE`, and with a decode error recorded before. -/
theorem witness_Unknown : FetchesUnknown (at0 0x5121) 0x5121 ∧ (at0 0x5121).cfg.strictDecode = false ∧
    (at0 0x5121).diag = false ∧ FetchesUnknown { at0 0x5121 with diag := true } 0x5121 ∧
    FetchesUnknown { at0 0x5121 with cfg := { Config.default with strictDecode := true } } 0x5121 := by
  refine ⟨⟨?_, ?_, ?_, ⟨.unknown5, ?_⟩, ?_⟩, ?_, ?_, ⟨?_, ?_, ?_, ⟨.unknown5, ?_⟩, ?_⟩,
    ⟨?_, ?_, ?_, ⟨.unknown5, ?_⟩, ?_⟩⟩ <;> decide
theorem witness_NextFetch : 1 ≤ (0xF#4 : Reg).toNat ∧ (withI 0x202).i = (withI 0x202).pc + 2#16 ∧
    0x04F < (withI 0x202).ea 0 ∧ (withI 0x202).ea (0xF#4 : Reg).toNat ≤ 0xFFF := by decide
theorem witness_CallThenRet : (withSp 0).sp.val < 16 ∧ (withSp 15).sp.val < 16 := by decide
/-- A state for each cause of R115 at the boundary of its condition (for `FetchBounds` and `IllegalOpcode`:
witness_FetchOutside and witness_Unknown), -/
theorem witness_FaultConditions :
    Fetches { at0 0x2ABC with sp := 16 } (.call 0xABC) ∧ Fetches (at0 0x00EE) .ret ∧ (at0 0x00EE).sp.val = 0 ∧
    (Fetches { at0 0xF033 with i := 0xFFE } (.ldB 0) ∧ 0xFFF < (0xFFE#16).toNat + dataLength (.ldB 0) - 1) ∧
    (Fetches { at0 0xF033 with i := 0x04F } (.ldB 0) ∧ stores (.ldB 0) = true) ∧
    Fetches (regs [(0, 16)] (at0 0xE09E)) (.skp 0) := by
  unfold Fetches
  decide
/-- and what the step from it records. -/
theorem witness_FaultCauses :
    get (step { at0 0x2ABC with sp := 16 }) triple = some (.stackOverflow, 0x200, 0xABC) ∧
    get (step (at0 0x00EE)) triple = some (.stackUnderflow, 0x200, 0) ∧
    get (step (State.reset.setPc 0xFFF)) triple = some (.fetchBounds, 0xFFF, 0x1000) ∧
    get (step { at0 0xF033 with i := 0xFFE }) triple = some (.dataBounds, 0x200, 0x1000) ∧
    get (step { at0 0xF033 with i := 0x04F }) triple = some (.glyphWrite, 0x200, 0x4F) ∧
    get (step (regs [(0, 16)] (at0 0xE09E))) triple = some (.keyIndex, 0x200, 0x10) ∧
    get (step { at0 0x5121 with cfg := { Config.default with strictDecode := true } }) triple =
      some (.illegalOpcode, 0x200, 0x5121) := by decide
theorem witness_AFault : (at0 0x00EE).fault = .noFault ∧ get (step (at0 0x00EE)) (fun t => t.fault) =
    some .stackUnderflow ∧ Event.ackDraw ≠ .reset := by decide
/-- A halted state, which `Reset` leaves. -/
def haltedState : State := { State.reset with fault := .keyIndex, dt := 3 }
theorem witness_Halted : haltedState.fault ≠ .noFault ∧ (external haltedState).cfg.timerMode = .external ∧
    get (event .reset haltedState) (fun t => t.fault) = some .noFault := by decide
theorem witness_Tick : (external State.reset).cfg.timerMode = .external ∧ (external State.reset).fault = .noFault ∧
    State.reset.cfg.timerMode = .perStep := by decide
theorem witness_TimersIncrease : get (step (regs [(0, 9)] (at0 0xF015))) (fun t => t.dt) = some 8 ∧
    (at0 0xF015).dt = 0 := by decide
theorem witness_Stall : Fetches (at0 0xF50A) (.ldVxK 5) ∧ (at0 0xF50A).key = 0#16 ∧
    (at0 0xF50A).cfg.timerMode = .perStep ∧ (at0 0xF50A).cfg.stallTicks = true ∧
    Fetches (external (at0 0xF50A)) (.ldVxK 5) ∧ (external (at0 0xF50A)).cfg.timerMode = .external := by
  unfold Fetches
  decide
/-- A state that a step leaves inside the invariant: a word placed at 0x200. -/
theorem witness_Invariant : Safety.Inv (at0 0x6005) ∧ ∃ t, step (at0 0x6005) = .next t := by
  refine ⟨⟨by decide, ?_, ⟨by decide, ?_⟩, ⟨fun _ => by decide, fun _ => by decide⟩, by decide, fun _ => rfl⟩, _, rfl⟩
  · unfold Safety.glyphsIntact
    decide
  · exact fun k hk => absurd hk (Nat.not_lt_zero _)
theorem witness_Runs : Config.default.wf = true ∧ (∃ s, launch Config.default [] = .next s) ∧
    ∃ t, run [.setKeys 1, .step, .ackDraw] State.reset = .next t := ⟨by decide, ⟨_, rfl⟩, ⟨_, rfl⟩⟩
theorem witness_Glyphs : Event.step ≠ .reset ∧ 79 < 80 ∧
    get (event .step { at0 0xF033 with i := 0x050 }) (fun t => t.mem.read 79) = some 0x80 := by decide
theorem witness_OnlyTheNamed : ∃ t, exec (.loadRegs 0xF#4) (withI 0) = .next t ∧
    t.reg 0xF#4 ≠ (withI 0).reg 0xF#4 := ⟨_, rfl, by decide⟩
theorem witness_OnlyKeys : (∀ x, Instr.rnd 1#4 2#8 ≠ .skp x ∧ Instr.rnd 1#4 2#8 ≠ .sknp x ∧
    Instr.rnd 1#4 2#8 ≠ .ldVxK x) ∧ ∃ t, exec (.rnd 1#4 2#8) State.reset = .next t :=
  ⟨fun _ => ⟨nofun, nofun, nofun⟩, _, rfl⟩
theorem witness_NoTableST : ∃ t, exec (.ldVxDT 3#4) { State.reset with st := 5 } = .next t := ⟨_, rfl⟩
/-- Two states that differ in a stack entry not in use only. -/
theorem witness_UnusedStack : AgreeOnStackInUse (at0 0x2300) { at0 0x2300 with stack := Vector.replicate 16 7#16 } ∧
    (at0 0x2300).stack ≠ Vector.replicate 16 7#16 ∧ ∃ t, step (at0 0x2300) = .next t :=
  ⟨⟨rfl, fun k hk => absurd hk (Nat.not_lt_zero _)⟩, by decide, _, rfl⟩
theorem witness_Configuration : ∃ t, event .reset haltedState = .next t := ⟨_, rfl⟩
/-- T7: the word 0x1200 at 0x200. -/
theorem witness_SelfJump : Safety.endedWell (at0 0x1200) = true := by decide
/-- The largest image and one byte more (T109, T110), a state that takes no image, a step, and an event that leaves
the launch sequence open. -/
theorem witness_Load : State.reset.atLaunch = true ∧ (List.replicate 3584 0#8).length ≤ 3584 ∧
    3584 < (List.replicate 3585 0#8).length ∧ State.reset.launched.atLaunch = false ∧
    State.reset.fault = .noFault ∧ (∃ t, event .step State.reset = .next t) ∧
    Event.ackDraw ≠ .reset ∧ get (event .ackDraw State.reset) (fun t => t.atLaunch) = some true := by
  refine ⟨rfl, Nat.le_of_eq List.length_replicate, ?_, rfl, rfl, ⟨_, rfl⟩, by decide, by decide⟩
  rw [List.length_replicate]
  decide
theorem witness_ResetEvent : haltedState.cfg.wf = true ∧ haltedState.fault ≠ .noFault ∧
    get (event .reset { haltedState with diag := true }) (fun t => (t.fault, t.diag)) = some (.noFault, false) := by
  decide

end Sys2Proof.Tests
end

section
/-! The step on a fetched instruction (spec/40_step.md R65, R66; spec/20_memory.md R40): the fetch that `Fetches`
promises, the label of a faulting instruction, and what each label and timer mode make of the tick. -/

namespace Sys2Proof.Machine

/-- A fault recorded by the dispatch decides the label (R70). -/
theorem wordLabel_of_fault {s d : State} {w : Word} (hd : d.fault ≠ .noFault) : wordLabel w s d = .faulted := by
  simp [wordLabel, d.halted_iff.mpr hd]

/-- With external ticks no step ticks, whatever its label (R65, R69). -/
theorem State.afterDispatch_external {s : State} (h : s.cfg.timerMode = .external) (l : Label) :
    s.afterDispatch l = s.launched := by
  cases l <;> simp [State.afterDispatch, Label.ticks, h]

/-- With a tick in every step, a stall ticks exactly with `STALL_TICKS` (R65). -/
theorem State.afterDispatch_stalled {s : State} (h : s.cfg.timerMode = .perStep) :
    s.afterDispatch .stalled = (if s.cfg.stallTicks then s.tick else s).launched := by
  simp [State.afterDispatch, Label.ticks, h]

end Sys2Proof.Machine

namespace Sys2Proof.Claims

open Sys2Proof Sys2Proof.Machine

/-- The fetch reads the two bytes at `PC`, the high byte first (R40, R66). -/
theorem Fetches.fetch_eq {s : State} {i : Instr} (h : Fetches s i) : s.fetch = some (s.mem.readWord s.pc.toNat) := by
  obtain ⟨-, hpc, -⟩ := h
  exact State.fetch_eq_some.mpr ⟨hpc, rfl⟩

/-- The fetched word decodes to the instruction. -/
theorem Fetches.decode_readWord {s : State} {i : Instr} (h : Fetches s i) :
    decode (s.mem.readWord s.pc.toNat) = .ok i := by
  obtain ⟨-, -, hdec⟩ := h
  exact hdec

theorem Fetches.not_halted {s : State} {i : Instr} (h : Fetches s i) : s.halted = false := by
  obtain ⟨hf, -, -⟩ := h
  exact s.not_halted_iff.mpr hf

/-- A step on a fetched instruction is its dispatch, then the tick that its label asks for (R65). -/
theorem Fetches.step_eq {s d : State} {i : Instr} (h : Fetches s i) (hx : exec i s = .next d) :
    step s = .next (d.afterDispatch (wordLabel (s.mem.readWord s.pc.toNat) s d)) :=
  step_of_fetch h.not_halted h.fetch_eq ((runWord_ok h.decode_readWord).trans hx)

/-- Settles O33: the step is the dispatch and the tick of its label, and the label is `Faulted`, `Stalled` or
`Executed` by the conditions of the four clauses. -/
theorem stepRunsTheDecodedInstruction : Obligations.StepRunsTheDecodedInstruction := by
  intro s d i h hx
  have hstep := h.step_eq hx
  have hcfg : d.cfg = s.cfg := exec_cfg hx
  refine ⟨fun hf => ?fault, fun _ hm => ?external, fun hf hm hs => ?executed, fun hf hm hs => ?stalled⟩
  case fault => rw [hstep, wordLabel_of_fault hf, State.afterDispatch_faulted]
  case external => rw [hstep, State.afterDispatch_external (hcfg ▸ hm)]
  case executed =>
    rw [hstep, wordLabel_ok h.decode_readWord hf, if_neg hs, State.afterDispatch_done (.inl rfl) hcfg, if_pos hm]
  case stalled =>
    rw [hstep, wordLabel_ok h.decode_readWord hf, if_pos hs, State.afterDispatch_stalled (hcfg ▸ hm), hcfg]

end Sys2Proof.Claims
end

section
/-! The events of the host (spec/40_step.md R69 to R74, spec/70_reset_and_hazards.md R132, R133): what an event can do
to the state, what memory reads as after `Reset`, and that `FAULT` and `DIAG` outlive every other event. -/

namespace Sys2Proof.Machine

/-- Everything an event can do (R9): `Reset`, `Step`, or a change of the timers, the latch, the draw flag and memory
that leaves the registers, the status registers and the configuration alone. -/
theorem event_cases {e : Event} {s t : State} (h : event e s = .next t) :
    (e = .reset ∧ t = s.resetEvent) ∨ (e = .step ∧ step s = .next t) ∨
    t = { s with dt := t.dt, st := t.st, key := t.key, draw := t.draw, mem := t.mem, atLaunch := t.atLaunch } := by
  cases e with
  | step => exact .inr (.inl ⟨rfl, h⟩)
  | reset => cases h; exact .inl ⟨rfl, rfl⟩
  | setKeys k => cases h; exact .inr (.inr rfl)
  | ackDraw => cases h; exact .inr (.inr rfl)
  | tick =>
    simp only [event, State.externalTick] at h
    split at h <;> cases h
    split <;> exact .inr (.inr rfl)
  | load image =>
    simp only [event, State.loadImage] at h
    split at h
    · split at h <;> cases h
      exact .inr (.inr rfl)
    · cases h

/-- Only `Reset` leaves the halted state: every other event keeps the cause of the fault (R74, R120). -/
theorem event_keeps_fault {e : Event} {s t : State} (h : event e s = .next t) (he : e ≠ .reset)
    (hf : s.fault ≠ .noFault) : t.fault = s.fault := by
  rcases event_cases h with ⟨hr, -⟩ | ⟨-, hstep⟩ | ht
  · exact absurd hr he
  · rw [step_of_halted (s.halted_iff.mpr hf)] at hstep
    cases hstep
    rfl
  · rw [ht]

/-! ### `DIAG` is sticky (R26, R59) -/

@[simp] theorem State.afterDispatch_diag (s : State) (l : Label) : (s.afterDispatch l).diag = s.diag := by
  rw [s.afterDispatch_frame l]

theorem State.unknown_keeps_diag {s : State} (w : Word) (hd : s.diag = true) : (s.unknown w).diag = true := by
  unfold State.unknown State.diagnose
  split <;> simp [hd]

/-- No instruction writes `DIAG`. -/
theorem exec_diag {i : Instr} {s t : State} (h : exec i s = .next t) : t.diag = s.diag := by
  rcases exec_cases h with ⟨c, n, -, rfl⟩ | hc
  · rfl
  · exact hc.diag

theorem runWord_keeps_diag {w : Word} {s t : State} (h : runWord w s = .next t) (hd : s.diag = true) :
    t.diag = true := by
  rcases runWord_cases h with ⟨i, -, hx⟩ | ⟨e, x, -, -, rfl⟩ | ⟨e, -, -, rfl⟩
  · exact (exec_diag hx).trans hd
  · exact hd
  · exact State.unknown_keeps_diag w hd

theorem step_keeps_diag {s t : State} (h : step s = .next t) (hd : s.diag = true) : t.diag = true := by
  rcases step_cases h with ⟨-, rfl⟩ | ⟨-, -, rfl⟩ | ⟨w, d, -, -, hr, rfl⟩
  · exact hd
  · exact hd
  · rw [State.afterDispatch_diag]
    exact runWord_keeps_diag hr hd

/-- Only `Reset` clears `DIAG` (R74). -/
theorem event_keeps_diag {e : Event} {s t : State} (h : event e s = .next t) (he : e ≠ .reset)
    (hd : s.diag = true) : t.diag = true := by
  rcases event_cases h with ⟨hr, -⟩ | ⟨-, hstep⟩ | ht
  · exact absurd hr he
  · exact step_keeps_diag hstep hd
  · rw [ht]
    exact hd

/-! ### The values after `Reset` (R32, R133) -/

theorem State.reg_resetEvent (s : State) (x : Reg) : s.resetEvent.reg x = 0#8 := by
  simp [State.resetEvent, State.resetFor, State.reset, State.reg]

theorem State.cell_resetEvent (s : State) (c : Nat) : Screen.cell s.resetEvent.fb c = false :=
  Screen.cell_clear c

/-- Above the glyph table an unlisted address reads as 0 (R133). -/
theorem Memory.background_above {a : Nat} (ha : 80 ≤ a) : Memory.background a = 0#8 :=
  List.getD_eq_default _ _ ha

/-- The parameter `GLYPHS` has a byte for each address of the table, and memory at reset holds it (R38, R133). -/
theorem getElem?_glyphs_eq_read_resetMemory {c : Config} (h : c.wf = true) {a : Nat} (ha : a < 80) :
    some ((resetMemory c).read a) = c.glyphs[a]? := by
  obtain ⟨hlen, -, -⟩ := Config.wf_parts h
  have hlt : a < c.glyphs.length := by omega
  rw [read_resetMemory_glyph h ha, List.getD_eq_getElem _ _ hlt, List.getElem?_eq_getElem hlt]

/-- After reset the rest of memory reads as `MEM_INIT` (R133): a listed address as its byte, any other as 0. -/
theorem read_resetMemory_above {c : Config} (h : c.wf = true) {a : Nat} (ha : 80 ≤ a) :
    (resetMemory c).read a = Claims.memInitByte c a := by
  obtain ⟨hlen, hrising, -⟩ := Config.wf_parts h
  unfold resetMemory Claims.memInitByte
  split
  case h_1 d hd =>
    have hda : d.1 = a := by simpa using List.find?_some hd
    rw [← hda]
    exact Memory.read_writeCells_mem hrising (List.mem_of_find?_eq_some hd)
  case h_2 hnone =>
    have hunlisted : ∀ d ∈ c.memInit, d.1 ≠ a := by simpa using hnone
    rw [Memory.read_writeCells_ne hunlisted, Memory.read_writeBytes_outside _ (.inr (by omega))]
    exact Memory.background_above ha

end Sys2Proof.Machine

namespace Sys2Proof.Claims

open Sys2Proof Sys2Proof.Machine

/-- Settles O59: `Reset` answers the reset state of the configuration, whose memory reads as `GLYPHS` and `MEM_INIT`;
any other event keeps a recorded fault and a recorded decode error. -/
theorem resetEventRestoresTheResetValues : Obligations.ResetEventRestoresTheResetValues := by
  refine ⟨fun s hwf => ⟨s.resetEvent, rfl, s.reg_resetEvent, rfl, rfl, rfl, rfl, rfl, fun c _ => s.cell_resetEvent c,
    rfl, rfl, rfl, rfl, rfl, rfl, rfl, rfl, rfl, rfl, fun a ha => getElem?_glyphs_eq_read_resetMemory hwf ha,
    fun a ha _ => read_resetMemory_above hwf ha⟩, fun e s t h => ⟨fun hf hclear => ?fault, fun hd hclear => ?diag⟩⟩
  case fault =>
    by_contra he
    exact hf ((event_keeps_fault h he hf).symm.trans hclear)
  case diag =>
    by_contra he
    exact absurd (event_keeps_diag h he hd) (by simp [hclear])

/-- Settles O57: `SetKeys` is an event of every state, halted or not, and its effect is the one field `KEY`. -/
theorem setKeysReplacesTheLatch : Obligations.SetKeysReplacesTheLatch := by
  intro s k
  rfl

end Sys2Proof.Claims
end

section
/-! The absolute jump (spec/41_fam0_1_2_flow.md R77): its target as the operand under four zero bits (R62), and its
dispatch. -/

namespace Sys2Proof.Machine

/-- The zero-extended address has `nnn` under four zero bits (R62). -/
theorem address_eq_append (nnn : Addr) : address nnn = 0x0#4 ++ nnn :=
  BitVec.setWidth_eq_append (by decide)

theorem exec_jp (nnn : Addr) (s : State) : exec (.jp nnn) s = .next (s.setPc (address nnn)) := rfl

end Sys2Proof.Machine

namespace Sys2Proof.Claims

open Sys2Proof Sys2Proof.Machine

/-- Settles O8: the dispatch writes `PC` alone, and what it writes is the zero-extended operand. -/
theorem jpGoesToItsAddress : Obligations.JpGoesToItsAddress := by
  intro nnn s
  exact ⟨decode_A1 nnn, s.setPc (address nnn), exec_jp nnn s, rfl, address_eq_append nnn⟩

end Sys2Proof.Claims
end

section
/-! The conditional skips (spec/42_fam3_4_5_9_skips.md): a skip writes `PC` alone, by 4 where its condition holds and
by 2 where it fails (R68), and the dispatch of the two skips that compare an immediate (R79, R80). -/

namespace Sys2Proof.Machine

theorem State.skipIf_frame (s : State) (c : Bool) : s.skipIf c = { s with pc := (s.skipIf c).pc } := rfl

theorem State.skipIf_pc_of_true (s : State) {c : Bool} (h : c = true) : (s.skipIf c).pc = s.pc + 4#16 := by
  rw [State.skipIf_pc, if_pos h]

theorem State.skipIf_pc_of_false (s : State) {c : Bool} (h : c = false) : (s.skipIf c).pc = s.pc + 2#16 := by
  rw [State.skipIf_pc, if_neg (Bool.eq_false_iff.mp h)]

theorem exec_seImm (x : Reg) (nn : Byte) (s : State) : exec (.seImm x nn) s = .next (s.skipIf (s.reg x == nn)) := rfl

theorem exec_sneImm (x : Reg) (nn : Byte) (s : State) : exec (.sneImm x nn) s = .next (s.skipIf (s.reg x != nn)) := rfl

end Sys2Proof.Machine

namespace Sys2Proof.Claims

open Sys2Proof Sys2Proof.Machine

/-- Settles O11: both dispatches are one skip, `SE` on the test of equality and `SNE` on its complement, so the two
outcomes of each are the two values of its test. -/
theorem skipsComparingAnImmediate : Obligations.SkipsComparingAnImmediate := by
  intro x nn s
  refine ⟨decode_I3 x nn, decode_I4 x nn,
    ⟨_, exec_seImm x nn s, s.skipIf_frame _, fun heq => ?seSkips, fun hne => ?seFalls⟩,
    ⟨_, exec_sneImm x nn s, s.skipIf_frame _, fun hne => ?sneSkips, fun heq => ?sneFalls⟩⟩
  case seSkips => exact s.skipIf_pc_of_true (beq_iff_eq.mpr heq)
  case seFalls => exact s.skipIf_pc_of_false (beq_eq_false_iff_ne.mpr hne)
  case sneSkips => exact s.skipIf_pc_of_true (bne_iff_ne.mpr hne)
  case sneFalls => exact s.skipIf_pc_of_false (bne_eq_false_iff_eq.mpr heq)

end Sys2Proof.Claims
end

section
/-! Load and add immediate (spec/43_fam6_7_immediate.md): both write one register and advance `PC` by 2, the load with
the operand (R83) and the addition with a sum that wraps at 8 bits (R84). -/

namespace Sys2Proof.Machine

theorem exec_ldImm (x : Reg) (nn : Byte) (s : State) :
    exec (.ldImm x nn) s = .next ((s.setReg x nn).advance 2#16) := rfl

theorem exec_addImm (x : Reg) (nn : Byte) (s : State) :
    exec (.addImm x nn) s = .next ((s.setReg x (s.reg x + nn)).advance 2#16) := rfl

/-- The sum of two bytes, as the numeral of the sum mod 256 (R84). -/
theorem byte_add_eq_ofNat_mod (a b : Byte) : a + b = BitVec.ofNat 8 ((a.toNat + b.toNat) % 256) := by
  apply BitVec.eq_of_toNat_eq
  rw [BitVec.toNat_add, BitVec.toNat_ofNat, Nat.mod_mod]

end Sys2Proof.Machine

namespace Sys2Proof.Claims

open Sys2Proof Sys2Proof.Machine

/-- A register write followed by the advance of 2 is the effect `WritesRegister` describes (R7, R68). -/
theorem writesRegister_setReg_advance (s : State) (x : Reg) (b : Byte) :
    WritesRegister s ((s.setReg x b).advance 2#16) x b :=
  ⟨rfl, rfl, s.reg_setReg_same x b, fun _ hr => s.reg_setReg_ne hr b⟩

/-- An instruction that writes one register keeps `VF` unless it names it (R14). -/
theorem WritesRegister.keeps_flag {s t : State} {x : Reg} {b : Byte} (h : WritesRegister s t x b) (hx : x ≠ 0xF#4) :
    t.reg 0xF#4 = s.reg 0xF#4 := by
  obtain ⟨-, -, -, hothers⟩ := h
  exact hothers 0xF#4 hx.symm

/-- Settles O14: the dispatch is the write of the operand and the advance. -/
theorem ldImmLoadsTheImmediate : Obligations.LdImmLoadsTheImmediate := by
  intro x nn s
  exact ⟨decode_I6 x nn, _, exec_ldImm x nn s, writesRegister_setReg_advance s x nn⟩

/-- Settles O15: the byte written is the 8-bit sum, which is the sum mod 256, and that is the only register written. -/
theorem addImmWrapsWithoutFlag : Obligations.AddImmWrapsWithoutFlag := by
  intro x nn s
  have hwrites := writesRegister_setReg_advance s x (s.reg x + nn)
  exact ⟨decode_I7 x nn, _, exec_addImm x nn s, byte_add_eq_ofNat_mod (s.reg x) nn ▸ hwrites, hwrites.keeps_flag⟩

end Sys2Proof.Claims
end

section
/-! The register operations without a shift or a borrow (spec/44_fam8_alu.md): the dispatch of LD, OR, AND and XOR,
which write one register (R86 to R89), and of ADD, which writes a result and a flag in the order of `VF_ORDER`
(R85, R90). -/

namespace Sys2Proof

theorem decode_ldReg (x y : Reg) : decode (0x8#4 ++ x ++ y ++ 0x0#4) = .ok (.ldReg x y) := decode_R8 x y 0x0#4

theorem decode_orReg (x y : Reg) : decode (0x8#4 ++ x ++ y ++ 0x1#4) = .ok (.orReg x y) := decode_R8 x y 0x1#4

theorem decode_andReg (x y : Reg) : decode (0x8#4 ++ x ++ y ++ 0x2#4) = .ok (.andReg x y) := decode_R8 x y 0x2#4

theorem decode_xorReg (x y : Reg) : decode (0x8#4 ++ x ++ y ++ 0x3#4) = .ok (.xorReg x y) := decode_R8 x y 0x3#4

theorem decode_addReg (x y : Reg) : decode (0x8#4 ++ x ++ y ++ 0x4#4) = .ok (.addReg x y) := decode_R8 x y 0x4#4

end Sys2Proof

namespace Sys2Proof.Machine

theorem exec_ldReg (x y : Reg) (s : State) :
    exec (.ldReg x y) s = .next ((s.setReg x (s.reg y)).advance 2#16) := rfl

theorem exec_orReg (x y : Reg) (s : State) :
    exec (.orReg x y) s = .next ((s.setReg x (s.reg x ||| s.reg y)).advance 2#16) := rfl

theorem exec_andReg (x y : Reg) (s : State) :
    exec (.andReg x y) s = .next ((s.setReg x (s.reg x &&& s.reg y)).advance 2#16) := rfl

theorem exec_xorReg (x y : Reg) (s : State) :
    exec (.xorReg x y) s = .next ((s.setReg x (s.reg x ^^^ s.reg y)).advance 2#16) := rfl

theorem exec_addReg (x y : Reg) (s : State) :
    exec (.addReg x y) s = .next ((s.writeAlu x (aluAdd (s.reg x) (s.reg y))).advance 2#16) := rfl

/-- The sum of R90 as a remainder, with its carry. -/
theorem aluAdd_eq (a b : Byte) :
    aluAdd a b = (BitVec.ofNat 8 ((a.toNat + b.toNat) % 256), some (decide (255 < a.toNat + b.toNat))) := by
  have hsum : BitVec.ofNat 8 (a.toNat + b.toNat) = BitVec.ofNat 8 ((a.toNat + b.toNat) % 256) := by
    apply BitVec.eq_of_toNat_eq
    rw [BitVec.toNat_ofNat, BitVec.toNat_ofNat, Nat.mod_mod]
  rw [aluAdd, hsum]

theorem flagByte_decide (p : Prop) [Decidable p] : flagByte (decide p) = if p then 1#8 else 0#8 := by
  simp only [flagByte, decide_eq_true_eq]

@[simp] theorem State.writeAlu_pc (s : State) (x : Reg) (out : AluOut) : (s.writeAlu x out).pc = s.pc := by
  rw [State.writeAlu_frame]

/-! ### The registers after the two writes of R85, by the register read -/

/-- The result is read back where the flag does not overwrite it. -/
theorem State.reg_writeAlu_result (s : State) {x : Reg} (h : x ≠ flagReg ∨ s.cfg.vfOrder = .flagThenResult)
    (r : Byte) (f : Bool) : (s.writeAlu x (r, some f)).reg x = r := by
  rw [State.reg_writeAlu, if_pos ⟨rfl, h⟩]

/-- `VF` holds the flag where the result does not overwrite it. -/
theorem State.reg_writeAlu_flag (s : State) {x : Reg} (h : x ≠ flagReg ∨ s.cfg.vfOrder = .resultThenFlag)
    (r : Byte) (f : Bool) : (s.writeAlu x (r, some f)).reg flagReg = flagByte f := by
  have hkept : ¬ (flagReg = x ∧ (x ≠ flagReg ∨ s.cfg.vfOrder = .flagThenResult)) := by
    rintro ⟨rfl, hx | horder⟩
    · exact hx rfl
    · simp [horder] at h
  rw [State.reg_writeAlu, if_neg hkept, if_pos rfl]

theorem State.reg_writeAlu_other (s : State) {x y : Reg} (hx : y ≠ x) (hf : y ≠ flagReg) (r : Byte) (f : Bool) :
    (s.writeAlu x (r, some f)).reg y = s.reg y := by
  rw [State.reg_writeAlu, if_neg (fun ⟨hyx, _⟩ => hx hyx), if_neg hf]

end Sys2Proof.Machine

namespace Sys2Proof.Claims

open Sys2Proof Sys2Proof.Machine

/-- The two writes of R85 followed by the advance of 2 are the effect `WritesResultAndFlag` describes. -/
theorem writesResultAndFlag_writeAlu_advance (s : State) (x : Reg) (r : Byte) (f : Bool) :
    WritesResultAndFlag s ((s.writeAlu x (r, some f)).advance 2#16) x r (flagByte f) := by
  refine ⟨?frame, ?pc, fun hx => ⟨s.reg_writeAlu_result (.inl hx) r f, s.reg_writeAlu_flag (.inl hx) r f⟩,
    ?resultLast, fun _ horder => s.reg_writeAlu_flag (.inr horder) r f,
    fun _ hx hf => s.reg_writeAlu_other hx hf r f⟩
  case frame => rw [State.writeAlu_frame]; rfl
  case pc => rw [State.advance_pc, State.writeAlu_pc]
  case resultLast =>
    rintro rfl horder
    exact s.reg_writeAlu_result (.inr horder) r f

/-- Settles O17: each dispatch is the write of its result into `Vx` and the advance. -/
theorem logicalOperationsWriteNoFlag : Obligations.LogicalOperationsWriteNoFlag := by
  intro x y s
  exact ⟨decode_ldReg x y, decode_orReg x y, decode_andReg x y, decode_xorReg x y,
    ⟨_, exec_ldReg x y s, writesRegister_setReg_advance s x _⟩,
    ⟨_, exec_orReg x y s, writesRegister_setReg_advance s x _⟩,
    ⟨_, exec_andReg x y s, writesRegister_setReg_advance s x _⟩,
    ⟨_, exec_xorReg x y s, writesRegister_setReg_advance s x _⟩⟩

/-- Settles O18: the dispatch is the two writes of R85 with the sum and the carry of R90, and the advance. -/
theorem addRegWritesSumAndCarry : Obligations.AddRegWritesSumAndCarry := by
  intro x y s
  refine ⟨decode_addReg x y, _, exec_addReg x y s, ?_⟩
  rw [aluAdd_eq, ← flagByte_decide]
  exact writesResultAndFlag_writeAlu_advance s x _ _

end Sys2Proof.Claims
end

section
/-! The load of the index register (spec/45_famA_B_C.md R95): its dispatch, and the effect that the instructions which
write `I` share, one write of `I` and the advance of 2. -/

namespace Sys2Proof.Machine

theorem exec_ldI (nnn : Addr) (s : State) :
    exec (.ldI nnn) s = .next ((s.setI (address nnn)).advance 2#16) := rfl

theorem State.setI_advance_frame (s : State) (w : Word) :
    (s.setI w).advance 2#16 = { s with i := w, pc := s.pc + 2#16 } := rfl

end Sys2Proof.Machine

namespace Sys2Proof.Claims

open Sys2Proof Sys2Proof.Machine

/-- Settles O22: the dispatch is the write of the zero-extended operand into `I` and the advance. -/
theorem ldILoadsTheAddress : Obligations.LdILoadsTheAddress := by
  intro nnn s
  exact ⟨decode_AA nnn, _, exec_ldI nnn s, s.setI_advance_frame (address nnn), address_eq_append nnn⟩

end Sys2Proof.Claims
end

section
/-! The timer instructions (spec/48_famF_misc.md R103, R105, R106): their rows and dispatch, and the timers after a step
that completes, which its own tick has decremented with `TIMER_MODE = PerStep` and left alone otherwise (R65, R69). -/

namespace Sys2Proof

theorem decode_ldVxDT (x : Reg) : decode (0xF#4 ++ x ++ 0x07#8) = .ok (.ldVxDT x) := decode_XF x 0x07#8

theorem decode_ldDTVx (x : Reg) : decode (0xF#4 ++ x ++ 0x15#8) = .ok (.ldDTVx x) := decode_XF x 0x15#8

theorem decode_ldSTVx (x : Reg) : decode (0xF#4 ++ x ++ 0x18#8) = .ok (.ldSTVx x) := decode_XF x 0x18#8

end Sys2Proof

namespace Sys2Proof.Machine

theorem exec_ldVxDT (x : Reg) (s : State) : exec (.ldVxDT x) s = .next ((s.setReg x s.dt).advance 2#16) := rfl

theorem exec_ldDTVx (x : Reg) (s : State) :
    exec (.ldDTVx x) s = .next { s with dt := s.reg x, pc := s.pc + 2#16 } := rfl

theorem exec_ldSTVx (x : Reg) (s : State) :
    exec (.ldSTVx x) s = .next { s with st := s.reg x, pc := s.pc + 2#16 } := rfl

end Sys2Proof.Machine

namespace Sys2Proof.Claims

open Sys2Proof Sys2Proof.Machine

/-- An instruction that records no fault and does not wait for a key completes: its dispatch, then
the tick of `PerStep` (R65). -/
theorem Fetches.step_completes {s d : State} {i : Instr} (h : Fetches s i) (hx : exec i s = .next d)
    (hf : d.fault = s.fault) (hw : i.waitsForKey = false) :
    step s = .next (if s.cfg.timerMode = .perStep then d.tick else d).launched := by
  have hnone : d.fault = .noFault := hf.trans (s.not_halted_iff.mp h.not_halted)
  rw [h.step_eq hx, wordLabel_ok h.decode_readWord hnone, if_neg (by simp [hw]),
    State.afterDispatch_done (.inl rfl) (exec_cfg hx)]

/-- The step of such an instruction keeps the registers of its dispatch, and its tick acts on the timers that the
dispatch left (R65, R69). -/
theorem Fetches.step_timers {s d : State} {i : Instr} (h : Fetches s i) (hx : exec i s = .next d)
    (hf : d.fault = s.fault) (hw : i.waitsForKey = false) :
    ∃ t, step s = .next t ∧ t.v = d.v ∧
      (s.cfg.timerMode = .perStep → t.dt.toNat = d.dt.toNat - 1 ∧ t.st.toNat = d.st.toNat - 1) ∧
      (s.cfg.timerMode = .external → t.dt = d.dt ∧ t.st = d.st) := by
  have hstep := h.step_completes hx hf hw
  cases hm : s.cfg.timerMode with
  | perStep =>
    rw [if_pos hm] at hstep
    exact ⟨_, hstep, rfl, fun _ => ⟨tickTimer_toNat d.dt, tickTimer_toNat d.st⟩, nofun⟩
  | external =>
    rw [if_neg (by simp [hm])] at hstep
    exact ⟨_, hstep, rfl, nofun, fun _ => ⟨rfl, rfl⟩⟩

/-- Settles O24: each dispatch writes one register or one timer, so none faults, and the tick of the step acts on the
timers after that write. -/
theorem timerReadsAndWrites : Obligations.TimerReadsAndWrites := by
  intro x s
  refine ⟨decode_ldVxDT x, decode_ldDTVx x, decode_ldSTVx x,
    ⟨_, exec_ldVxDT x s, writesRegister_setReg_advance s x s.dt⟩, ⟨_, exec_ldDTVx x s, rfl⟩,
    ⟨_, exec_ldSTVx x s, rfl⟩, fun h => ?readDelay, fun h => ?writeDelay, fun h => ?writeSound⟩
  case readDelay =>
    obtain ⟨t, hstep, hv, hper, hext⟩ := h.step_timers (exec_ldVxDT x s) rfl rfl
    have hread : t.reg x = s.dt := (State.reg_congr hv x).trans (s.reg_setReg_same x s.dt)
    exact ⟨t, hstep, hread, fun hm => (hper hm).left, fun hm => (hext hm).left⟩
  case writeDelay =>
    obtain ⟨t, hstep, -, hticks⟩ := h.step_timers (exec_ldDTVx x s) rfl rfl
    exact ⟨t, hstep, hticks⟩
  case writeSound =>
    obtain ⟨t, hstep, -, hper, hext⟩ := h.step_timers (exec_ldSTVx x s) rfl rfl
    exact ⟨t, hstep, fun hm => (hper hm).symm, fun hm => (hext hm).symm⟩

end Sys2Proof.Claims
end

section
/-! The encoding (spec/30_encoding.md): the decoder on the word of each instruction (R54 to R57), and the words that it
rejects (R60). -/

namespace Sys2Proof

/-! ### The decoder on the word of each instruction -/

theorem decode_cls : decode 0x00E0#16 = .ok .cls := rfl

theorem decode_ret : decode 0x00EE#16 = .ok .ret := rfl

theorem decode_seReg (x y : Reg) : decode (0x5#4 ++ x ++ y ++ 0x0#4) = .ok (.seReg x y) := decode_R5 x y 0x0#4

theorem decode_sneReg (x y : Reg) : decode (0x9#4 ++ x ++ y ++ 0x0#4) = .ok (.sneReg x y) := decode_R9 x y 0x0#4

theorem decode_subReg (x y : Reg) : decode (0x8#4 ++ x ++ y ++ 0x5#4) = .ok (.subReg x y) := decode_R8 x y 0x5#4

theorem decode_shr (x y : Reg) : decode (0x8#4 ++ x ++ y ++ 0x6#4) = .ok (.shr x y) := decode_R8 x y 0x6#4

theorem decode_subnReg (x y : Reg) : decode (0x8#4 ++ x ++ y ++ 0x7#4) = .ok (.subnReg x y) := decode_R8 x y 0x7#4

theorem decode_shl (x y : Reg) : decode (0x8#4 ++ x ++ y ++ 0xE#4) = .ok (.shl x y) := decode_R8 x y 0xE#4

theorem decode_skp (x : Reg) : decode (0xE#4 ++ x ++ 0x9E#8) = .ok (.skp x) := decode_XE x 0x9E#8

theorem decode_sknp (x : Reg) : decode (0xE#4 ++ x ++ 0xA1#8) = .ok (.sknp x) := decode_XE x 0xA1#8

theorem decode_ldVxK (x : Reg) : decode (0xF#4 ++ x ++ 0x0A#8) = .ok (.ldVxK x) := decode_XF x 0x0A#8

theorem decode_addI (x : Reg) : decode (0xF#4 ++ x ++ 0x1E#8) = .ok (.addI x) := decode_XF x 0x1E#8

theorem decode_ldF (x : Reg) : decode (0xF#4 ++ x ++ 0x29#8) = .ok (.ldF x) := decode_XF x 0x29#8

theorem decode_ldB (x : Reg) : decode (0xF#4 ++ x ++ 0x33#8) = .ok (.ldB x) := decode_XF x 0x33#8

theorem decode_storeRegs (x : Reg) : decode (0xF#4 ++ x ++ 0x55#8) = .ok (.storeRegs x) := decode_XF x 0x55#8

theorem decode_loadRegs (x : Reg) : decode (0xF#4 ++ x ++ 0x65#8) = .ok (.loadRegs x) := decode_XF x 0x65#8

/-- The decoder inverts the encoder: the word of each instruction is a written-out word of its family. -/
theorem decode_encode (i : Instr) : decode (encode i) = .ok i := by
  cases i with
  | cls => exact decode_cls
  | ret => exact decode_ret
  | jp nnn => exact decode_A1 nnn
  | call nnn => exact decode_A2 nnn
  | seImm x nn => exact decode_I3 x nn
  | sneImm x nn => exact decode_I4 x nn
  | seReg x y => exact decode_seReg x y
  | ldImm x nn => exact decode_I6 x nn
  | addImm x nn => exact decode_I7 x nn
  | ldReg x y => exact decode_ldReg x y
  | orReg x y => exact decode_orReg x y
  | andReg x y => exact decode_andReg x y
  | xorReg x y => exact decode_xorReg x y
  | addReg x y => exact decode_addReg x y
  | subReg x y => exact decode_subReg x y
  | shr x y => exact decode_shr x y
  | subnReg x y => exact decode_subnReg x y
  | shl x y => exact decode_shl x y
  | sneReg x y => exact decode_sneReg x y
  | ldI nnn => exact decode_AA nnn
  | jpV0 nnn => exact decode_AB nnn
  | rnd x nn => exact decode_IC x nn
  | drw x y n => exact decode_D x y n
  | skp x => exact decode_skp x
  | sknp x => exact decode_sknp x
  | ldVxDT x => exact decode_ldVxDT x
  | ldVxK x => exact decode_ldVxK x
  | ldDTVx x => exact decode_ldDTVx x
  | ldSTVx x => exact decode_ldSTVx x
  | addI x => exact decode_addI x
  | ldF x => exact decode_ldF x
  | ldB x => exact decode_ldB x
  | storeRegs x => exact decode_storeRegs x
  | loadRegs x => exact decode_loadRegs x

/-- Two bytes of a word at the head of a stream are decoded as the word, and the rest is left (R40). -/
theorem decodeBytes_wordBytes_append {w : Word} {i : Instr} (h : decode w = .ok i) (rest : List Byte) :
    decodeBytes (wordBytes w ++ rest) = .ok (i, rest) := by
  simp only [wordBytes, List.cons_append, List.nil_append, decodeBytes, wordBytes_append, h]

/-! ### A word that decodes is the word of its instruction -/

theorem encode_of_decodeFamily0 {w : Word} {i : Instr} (h : decodeFamily0 w = .ok i) : encode i = w := by
  unfold decodeFamily0 at h
  split_ifs at h with hcls hret <;> cases h
  · exact hcls.symm
  · exact hret.symm

theorem encode_of_decodeFamily8 {x y : Reg} {sel : Nibble} {i : Instr} (h : decodeFamily8 x y sel = .ok i) :
    encode i = 0x8#4 ++ x ++ y ++ sel := by
  unfold decodeFamily8 at h
  split_ifs at h with h0 h1 h2 h3 h4 h5 h6 h7 hE <;> cases h <;> subst sel <;> rfl

theorem encode_of_decodeFamilyE {x : Reg} {sel : Byte} {i : Instr} (h : decodeFamilyE x sel = .ok i) :
    encode i = 0xE#4 ++ x ++ sel := by
  unfold decodeFamilyE at h
  split_ifs at h with hdown hup <;> cases h <;> subst sel <;> rfl

theorem encode_of_decodeFamilyF {x : Reg} {sel : Byte} {i : Instr} (h : decodeFamilyF x sel = .ok i) :
    encode i = 0xF#4 ++ x ++ sel := by
  unfold decodeFamilyF at h
  split_ifs at h with h07 h0A h15 h18 h1E h29 h33 h55 h65 <;> cases h <;> subst sel <;> rfl

/-- A word is written out in the format of its family, so no bit of it is lost (R55). -/
theorem encode_of_decode {w : Word} {i : Instr} (h : decode w = .ok i) : encode i = w := by
  have formatA (op : BitVec 4) (hop : fieldOp w = op) : (op ++ fieldNNN w : Word) = w := hop ▸ (word_eq_A w).symm
  have formatI (op : BitVec 4) (hop : fieldOp w = op) : (op ++ fieldX w ++ fieldNN w : Word) = w :=
    hop ▸ (word_eq_I w).symm
  have formatR (op : BitVec 4) (hop : fieldOp w = op) : (op ++ fieldX w ++ fieldY w ++ fieldN w : Word) = w :=
    hop ▸ (word_eq_R w).symm
  unfold decode at h
  split at h
  case h_1 => exact encode_of_decodeFamily0 h
  case h_2 hop => cases h; exact formatA _ hop
  case h_3 hop => cases h; exact formatA _ hop
  case h_4 hop => cases h; exact formatI _ hop
  case h_5 hop => cases h; exact formatI _ hop
  case h_6 hop =>
    split_ifs at h with hn
    cases h
    have hw := formatR _ hop
    rw [hn] at hw
    exact hw
  case h_7 hop => cases h; exact formatI _ hop
  case h_8 hop => cases h; exact formatI _ hop
  case h_9 hop => exact (encode_of_decodeFamily8 h).trans (formatR _ hop)
  case h_10 hop =>
    split_ifs at h with hn
    cases h
    have hw := formatR _ hop
    rw [hn] at hw
    exact hw
  case h_11 hop => cases h; exact formatA _ hop
  case h_12 hop => cases h; exact formatA _ hop
  case h_13 hop => cases h; exact formatI _ hop
  case h_14 hop => cases h; exact formatR _ hop
  case h_15 hop => exact (encode_of_decodeFamilyE h).trans (formatI _ hop)
  case h_16 h0 h1 h2 h3 h4 h5 h6 h7 h8 h9 hA hB hC hD hE =>
    exact (encode_of_decodeFamilyF h).trans (formatI _ (family_F _ h0 h1 h2 h3 h4 h5 h6 h7 h8 h9 hA hB hC hD hE))

end Sys2Proof

namespace Sys2Proof.Claims

open Sys2Proof Sys2Proof.Machine

/-- Settles O1: the decoder inverts the encoder on every instruction, and a byte stream is decoded by its head word. -/
theorem decodeOfEncodeIsTheInstruction : Obligations.DecodeOfEncodeIsTheInstruction := by
  intro i _
  exact ⟨decode_encode i, decodeBytes_wordBytes_append (decode_encode i)⟩

/-- Settles O2: each arm of the decoder keeps every field of the word it reads. -/
theorem encodeOfDecodeIsTheWord : Obligations.EncodeOfDecodeIsTheWord := by
  intro w i h
  exact encode_of_decode h

/-- Settles O5: the decoder evaluated on fixed words. -/
theorem writtenOutWordsDecode : Obligations.WrittenOutWordsDecode := by
  exact ⟨rfl, rfl, rfl, rfl, rfl, rfl, rfl, rfl, rfl, rfl, rfl, rfl, rfl, rfl⟩

end Sys2Proof.Claims
end

section
/-! The opcode map (spec/30_encoding.md R56, R57) and the unknown words (R60): which fields a row of the map fixes, the
row of `LD Vx,ST`, and the words that the decoder rejects, family by family. -/

namespace Sys2Proof

/-! ### The words a row holds, by their fields -/

theorem OpcodeRow.holds_iff (r : OpcodeRow) (w : Word) : r.holds w = true ↔ (w &&& r.mask) = r.pattern := beq_iff_eq

/-- Rows whose patterns differ on the bits that both fix hold no word in common. -/
theorem OpcodeRow.disjoint_of_ne {r q : OpcodeRow} (h : (r.pattern &&& q.mask) ≠ (q.pattern &&& r.mask)) (w : Word) :
    ¬ (r.holds w = true ∧ q.holds w = true) := by
  rintro ⟨hr, hq⟩
  rw [OpcodeRow.holds_iff] at hr hq
  apply h
  rw [← hr, ← hq, BitVec.and_assoc, BitVec.and_assoc, BitVec.and_comm r.mask]

theorem mask_family_eq_iff {w : Word} {op : BitVec 4} :
    (w &&& 0xF000#16) = (op ++ 0#12 : Word) ↔ fieldOp w = op := by
  rw [mask_family_only]
  constructor
  · intro h
    simpa only [fieldOp_A] using congrArg fieldOp h
  · rintro rfl
    rfl

theorem mask_nibble_eq_iff {w : Word} {op n : BitVec 4} :
    (w &&& 0xF00F#16) = (op ++ 0#4 ++ 0#4 ++ n : Word) ↔ fieldOp w = op ∧ fieldN w = n := by
  rw [mask_selector_nibble]
  constructor
  · intro h
    exact ⟨by simpa only [fieldOp_R] using congrArg fieldOp h, by simpa only [fieldN_R] using congrArg fieldN h⟩
  · rintro ⟨rfl, rfl⟩
    rfl

theorem mask_byte_eq_iff {w : Word} {op : BitVec 4} {sel : Byte} :
    (w &&& 0xF0FF#16) = (op ++ 0#4 ++ sel : Word) ↔ fieldOp w = op ∧ fieldNN w = sel := by
  rw [mask_selector_byte]
  constructor
  · intro h
    exact ⟨by simpa only [fieldOp_I] using congrArg fieldOp h, by simpa only [fieldNN_I] using congrArg fieldNN h⟩
  · rintro ⟨rfl, rfl⟩
    rfl

/-- The families that a row fixes by `op` alone (R56). -/
def plainFamilies : List (BitVec 4) := [0x1, 0x2, 0x3, 0x4, 0x6, 0x7, 0xA, 0xB, 0xC, 0xD]

/-- The rows that fix `op` and `w[3:0]` (R56: families 5, 8 and 9). -/
def nibbleSelectors : List (BitVec 4 × Nibble) :=
  [(0x5, 0x0), (0x8, 0x0), (0x8, 0x1), (0x8, 0x2), (0x8, 0x3), (0x8, 0x4), (0x8, 0x5), (0x8, 0x6), (0x8, 0x7),
   (0x8, 0xE), (0x9, 0x0)]

/-- The rows that fix `op` and `w[7:0]` (R56: families E and F). -/
def byteSelectors : List (BitVec 4 × Byte) :=
  [(0xE, 0x9E), (0xE, 0xA1), (0xF, 0x07), (0xF, 0x0A), (0xF, 0x15), (0xF, 0x18), (0xF, 0x1E), (0xF, 0x29), (0xF, 0x33),
   (0xF, 0x55), (0xF, 0x65)]

/-- The four forms of a row of the opcode map: the whole word, the family, the family with a nibble, the family with a
byte. -/
theorem opcodeTable_forms : ∀ r ∈ opcodeTable,
    (r.mask = 0xFFFF#16 ∧ (r.pattern = 0x00E0#16 ∨ r.pattern = 0x00EE#16)) ∨
    (r.mask = 0xF000#16 ∧ ∃ op ∈ plainFamilies, r.pattern = op ++ 0#12) ∨
    (r.mask = 0xF00F#16 ∧ ∃ p ∈ nibbleSelectors, r.pattern = p.1 ++ 0#4 ++ 0#4 ++ p.2) ∨
    (r.mask = 0xF0FF#16 ∧ ∃ p ∈ byteSelectors, r.pattern = p.1 ++ 0#4 ++ p.2) := by
  decide

theorem decode_plainFamily {w : Word} (h : fieldOp w ∈ plainFamilies) : ∃ i, decode w = .ok i := by
  simp only [plainFamilies, List.mem_cons, List.not_mem_nil, or_false] at h
  unfold decode
  rcases h with h | h | h | h | h | h | h | h | h | h <;> rw [h] <;> exact ⟨_, rfl⟩

theorem decode_nibbleSelector (x y : Reg) :
    ∀ p ∈ nibbleSelectors, ∃ i, decode (p.1 ++ x ++ y ++ p.2) = .ok i := by
  simp [nibbleSelectors, decode_R5, decode_R8, decode_R9, decodeFamily8]

theorem decode_byteSelector (x : Reg) : ∀ p ∈ byteSelectors, ∃ i, decode (p.1 ++ x ++ p.2) = .ok i := by
  simp [byteSelectors, decode_XE, decode_XF, decodeFamilyE, decodeFamilyF]

/-- A word in a row of the map is an instruction. -/
theorem decode_ok_of_row {r : OpcodeRow} (hr : r ∈ opcodeTable) {w : Word} (hw : r.holds w = true) :
    ∃ i, decode w = .ok i := by
  rw [OpcodeRow.holds_iff] at hw
  rcases opcodeTable_forms r hr with ⟨hm, hp⟩ | ⟨hm, op, hop, hp⟩ | ⟨hm, p, hsel, hp⟩ | ⟨hm, p, hsel, hp⟩
  · have hall : (w &&& 0xFFFF#16) = w := BitVec.and_allOnes
    rw [hm, hall] at hw
    rcases hp with hp | hp <;> rw [hw, hp] <;> exact ⟨_, rfl⟩
  · rw [hm, hp, mask_family_eq_iff] at hw
    exact decode_plainFamily (hw ▸ hop)
  · rw [hm, hp, mask_nibble_eq_iff] at hw
    rw [word_eq_R w, hw.1, hw.2]
    exact decode_nibbleSelector _ _ p hsel
  · rw [hm, hp, mask_byte_eq_iff] at hw
    rw [word_eq_I w, hw.1, hw.2]
    exact decode_byteSelector _ p hsel

/-- The word of every instruction lies in its row. -/
theorem rowMatch (i : Instr) : Laws.RowMatch.Statement i := by
  cases i with
  | cls => exact Laws.RowMatch.cls
  | ret => exact Laws.RowMatch.ret
  | jp nnn => exact Laws.RowMatch.jp nnn
  | call nnn => exact Laws.RowMatch.call nnn
  | seImm x nn => exact Laws.RowMatch.seImm x nn
  | sneImm x nn => exact Laws.RowMatch.sneImm x nn
  | seReg x y => exact Laws.RowMatch.seReg x y
  | ldImm x nn => exact Laws.RowMatch.ldImm x nn
  | addImm x nn => exact Laws.RowMatch.addImm x nn
  | ldReg x y => exact Laws.RowMatch.ldReg x y
  | orReg x y => exact Laws.RowMatch.orReg x y
  | andReg x y => exact Laws.RowMatch.andReg x y
  | xorReg x y => exact Laws.RowMatch.xorReg x y
  | addReg x y => exact Laws.RowMatch.addReg x y
  | subReg x y => exact Laws.RowMatch.subReg x y
  | shr x y => exact Laws.RowMatch.shr x y
  | subnReg x y => exact Laws.RowMatch.subnReg x y
  | shl x y => exact Laws.RowMatch.shl x y
  | sneReg x y => exact Laws.RowMatch.sneReg x y
  | ldI nnn => exact Laws.RowMatch.ldI nnn
  | jpV0 nnn => exact Laws.RowMatch.jpV0 nnn
  | rnd x nn => exact Laws.RowMatch.rnd x nn
  | drw x y n => exact Laws.RowMatch.drw x y n
  | skp x => exact Laws.RowMatch.skp x
  | sknp x => exact Laws.RowMatch.sknp x
  | ldVxDT x => exact Laws.RowMatch.ldVxDT x
  | ldVxK x => exact Laws.RowMatch.ldVxK x
  | ldDTVx x => exact Laws.RowMatch.ldDTVx x
  | ldSTVx x => exact Laws.RowMatch.ldSTVx x
  | addI x => exact Laws.RowMatch.addI x
  | ldF x => exact Laws.RowMatch.ldF x
  | ldB x => exact Laws.RowMatch.ldB x
  | storeRegs x => exact Laws.RowMatch.storeRegs x
  | loadRegs x => exact Laws.RowMatch.loadRegs x

/-- A word that decodes is in the row of its instruction. -/
theorem row_of_decode_ok {w : Word} {i : Instr} (h : decode w = .ok i) : ∃ r ∈ opcodeTable, r.holds w = true := by
  obtain ⟨-, r, hr, hmatch⟩ := rowMatch i
  rw [encode_of_decode h] at hmatch
  exact ⟨r, List.mem_of_getElem? hr, r.holds_iff w |>.mpr hmatch⟩

/-! ### The row of `LD Vx,ST` (R57) -/

theorem decodeReadSound_eq_some {sel : Option Byte} {w : Word} {x : Reg} :
    decodeReadSound sel w = some x ↔ (fieldOp w = 0xF#4 ∧ sel = some (fieldNN w)) ∧ fieldX w = x := by
  unfold decodeReadSound
  split <;> simp [*]

theorem decodeReadSound_eq_none {sel : Option Byte} {w : Word} :
    decodeReadSound sel w = none ↔ ¬ (fieldOp w = 0xF#4 ∧ sel = some (fieldNN w)) := by
  unfold decodeReadSound
  split <;> simp [*]

/-- The pattern of the row of `LD Vx,ST` along its fields. -/
theorem readSound_pattern (s : Byte) : (0xF000#16 ||| s.setWidth 16 : Word) = 0xF#4 ++ 0#4 ++ s := by
  have hfields : (0xF000#16 : Word) = 0xF#4 ++ 0#4 ++ 0#8 := rfl
  have hsel : (s.setWidth 16 : Word) = 0#4 ++ 0#4 ++ s := BitVec.setWidth_eq_append (by decide)
  rw [hfields, hsel, BitVec.or_append, BitVec.or_append]
  simp

theorem readSound_row_iff {s : Byte} {w : Word} :
    (w &&& 0xF0FF#16) = (0xF000#16 ||| s.setWidth 16) ↔ fieldOp w = 0xF#4 ∧ fieldNN w = s := by
  rw [readSound_pattern, mask_byte_eq_iff]

/-! ### The unknown words (R60) -/

theorem decodeFamily0_error {w : Word} :
    (∃ e, decodeFamily0 w = .error e) ↔ w ≠ 0x00E0#16 ∧ w ≠ 0x00EE#16 := by
  unfold decodeFamily0
  split_ifs with hcls hret <;> simp [*]

/-- The nibbles that select no operation of family 8 are the others (R60). -/
theorem family8_selectors : ∀ sel : Nibble, sel ∈ [0x8#4, 0x9#4, 0xA#4, 0xB#4, 0xC#4, 0xD#4, 0xF#4] ↔
    sel ≠ 0x0#4 ∧ sel ≠ 0x1#4 ∧ sel ≠ 0x2#4 ∧ sel ≠ 0x3#4 ∧ sel ≠ 0x4#4 ∧ sel ≠ 0x5#4 ∧ sel ≠ 0x6#4 ∧
      sel ≠ 0x7#4 ∧ sel ≠ 0xE#4 := by
  decide

theorem decodeFamily8_error {x y : Reg} {sel : Nibble} :
    (∃ e, decodeFamily8 x y sel = .error e) ↔ sel ∈ [0x8#4, 0x9#4, 0xA#4, 0xB#4, 0xC#4, 0xD#4, 0xF#4] := by
  rw [family8_selectors]
  unfold decodeFamily8
  split_ifs with h0 h1 h2 h3 h4 h5 h6 h7 hE <;> simp [*]

theorem decodeFamilyE_error {x : Reg} {sel : Byte} :
    (∃ e, decodeFamilyE x sel = .error e) ↔ sel ≠ 0x9E#8 ∧ sel ≠ 0xA1#8 := by
  unfold decodeFamilyE
  split_ifs with hdown hup <;> simp [*]

theorem decodeFamilyF_error {x : Reg} {sel : Byte} :
    (∃ e, decodeFamilyF x sel = .error e) ↔
      sel ∉ [0x07#8, 0x0A#8, 0x15#8, 0x18#8, 0x1E#8, 0x29#8, 0x33#8, 0x55#8, 0x65#8] := by
  unfold decodeFamilyF
  split_ifs with h07 h0A h15 h18 h1E h29 h33 h55 h65 <;> simp [*]

end Sys2Proof

namespace Sys2Proof.Claims

open Sys2Proof Sys2Proof.Machine

/-- Settles O3: rows are disjoint because their patterns differ on a bit both fix, a row holds the words of its
instruction and no unknown word, and the row of `LD Vx,ST` fixes `op` and `w[7:0]`. -/
theorem decoderFollowsTheOpcodeMap : Obligations.DecoderFollowsTheOpcodeMap := by
  have hpatterns : opcodeTable.Pairwise fun r q => (r.pattern &&& q.mask) ≠ (q.pattern &&& r.mask) := by decide
  refine ⟨rfl, hpatterns.imp OpcodeRow.disjoint_of_ne, fun w => ⟨fun ⟨i, hi⟩ => row_of_decode_ok hi,
    fun ⟨r, hr, hw⟩ => decode_ok_of_row hr hw⟩, fun w => ?absent, fun s w x => ?selected, fun s w hs hw => ?free⟩
  case absent => exact decodeReadSound_eq_none.mpr fun ⟨_, h⟩ => nomatch h
  case selected =>
    rw [decodeReadSound_eq_some, readSound_row_iff, Option.some_inj, eq_comm (a := s), eq_comm (a := x)]
  case free =>
    obtain ⟨hop, hsel⟩ := readSound_row_iff.mp hw
    rw [word_eq_I w, hop, hsel, decode_XF, decodeFamilyF_unknown hs]
    exact ⟨_, rfl⟩

/-- Settles O4: the family decides which selectors the decoder asks for, and each family rejects the others. -/
theorem unknownWordsByFamily : Obligations.UnknownWordsByFamily := by
  intro w
  unfold decode
  split
  case h_1 hop => simp [hop, decodeFamily0_error]
  case h_6 hop => split_ifs with hn <;> simp [hop, hn]
  case h_9 hop => simp only [decodeFamily8_error]; simp [hop]
  case h_10 hop => split_ifs with hn <;> simp [hop, hn]
  case h_15 hop => simp [hop, decodeFamilyE_error]
  case h_16 h0 h1 h2 h3 h4 h5 h6 h7 h8 h9 hA hB hC hD hE =>
    have hop := family_F _ h0 h1 h2 h3 h4 h5 h6 h7 h8 h9 hA hB hC hD hE
    simp only [decodeFamilyF_error]
    simp [hop]
  all_goals next hop => simp [hop]

end Sys2Proof.Claims
end

section
/-! Control flow (spec/41_fam0_1_2_flow.md R75, R76, R78; spec/45_famA_B_C.md R96) and the skips on two registers and on
the key state (spec/42_fam3_4_5_9_skips.md R81, R82; spec/47_famE_keys.md R101, R102): the dispatch of each, with its
faults. -/

namespace Sys2Proof.Machine

theorem exec_cls (s : State) : exec .cls s = .next ((s.setScreen Screen.clear).advance 2#16) := rfl

/-- `RET` with `k + 1` entries in use pops the latest, which is the address of the `CALL` (R76). -/
theorem exec_ret {s : State} {k : Fin 16} (h : s.sp.val = k.val + 1) :
    exec .ret s = .next { s with sp := k.castSucc, pc := s.stack[k] + 2#16 } := by
  have hpop : s.pop = some (s.stack[k], { s with sp := k.castSucc }) := by
    simp only [State.pop, h, Nat.succ_pos, dite_true, Nat.add_sub_cancel]
    rfl
  show execRet s = _
  rw [execRet, hpop]
  rfl

theorem exec_ret_empty {s : State} (h : s.sp.val = 0) : exec .ret s = .next (s.raise .stackUnderflow 0#17) := by
  have hpop : s.pop = none := by simp [State.pop, h]
  show execRet s = _
  rw [execRet, hpop]

/-- `CALL` with `k < 16` entries in use pushes its own address (R78). -/
theorem exec_call (nnn : Addr) {s : State} {k : Fin 16} (h : s.sp.val = k.val) :
    exec (.call nnn) s = .next { s with stack := s.stack.set k s.pc, sp := k.succ, pc := address nnn } := by
  have hpush : s.push s.pc = some { s with stack := s.stack.set k s.pc, sp := k.succ } := by
    simp only [State.push, h, k.isLt, dite_true]
    rfl
  show execCall nnn s = _
  rw [execCall, hpush]
  rfl

theorem exec_call_full (nnn : Addr) {s : State} (h : s.sp.val = 16) :
    exec (.call nnn) s = .next (s.raise .stackOverflow (nnn.setWidth 17)) := by
  have hpush : s.push s.pc = none := by simp [State.push, h]
  show execCall nnn s = _
  rw [execCall, hpush]

theorem exec_jpV0 (nnn : Addr) (s : State) : exec (.jpV0 nnn) s = .next (s.setPc (s.offsetTarget nnn)) := rfl

/-- The target of `JP V0,nnn` is the exact sum: it does not reach 65536 (R96). -/
theorem State.toNat_offsetTarget (s : State) (nnn : Addr) :
    (s.offsetTarget nnn).toNat = nnn.toNat + (s.reg 0#4).toNat := by
  have hnnn := nnn.isLt
  have hreg := (s.reg 0#4).isLt
  simp only [State.offsetTarget, address, BitVec.toNat_add, BitVec.toNat_setWidth]
  omega

theorem exec_seReg (x y : Reg) (s : State) : exec (.seReg x y) s = .next (s.skipIf (s.reg x == s.reg y)) := rfl

theorem exec_sneReg (x y : Reg) (s : State) : exec (.sneReg x y) s = .next (s.skipIf (s.reg x != s.reg y)) := rfl

theorem exec_skp {x : Reg} {s : State} (h : (s.reg x).toNat ≤ 15) :
    exec (.skp x) s = .next (s.skipIf (s.keyDown (s.reg x).toNat)) := by
  show execSkp x s = _
  rw [execSkp, keyCheck_none.mpr (by omega), State.orFault_none]

theorem exec_sknp {x : Reg} {s : State} (h : (s.reg x).toNat ≤ 15) :
    exec (.sknp x) s = .next (s.skipIf (!s.keyDown (s.reg x).toNat)) := by
  show execSknp x s = _
  rw [execSknp, keyCheck_none.mpr (by omega), State.orFault_none]

theorem exec_skp_fault {x : Reg} {s : State} (h : 15 < (s.reg x).toNat) :
    exec (.skp x) s = .next (s.raise .keyIndex ((s.reg x).setWidth 17)) := by
  show execSkp x s = _
  rw [execSkp, keyCheck_some h, State.orFault_some]

theorem exec_sknp_fault {x : Reg} {s : State} (h : 15 < (s.reg x).toNat) :
    exec (.sknp x) s = .next (s.raise .keyIndex ((s.reg x).setWidth 17)) := by
  show execSknp x s = _
  rw [execSknp, keyCheck_some h, State.orFault_some]

end Sys2Proof.Machine

namespace Sys2Proof.Claims

open Sys2Proof Sys2Proof.Machine

/-- A recorded fault is the effect `Faults` describes (R116). -/
theorem faults_raise (s : State) (cause : FaultCause) (info : BitVec 17) : Faults s (s.raise cause info) cause info := rfl

/-- Settles O6: the dispatch is the cleared screen and the advance. -/
theorem clsClearsTheScreen : Obligations.ClsClearsTheScreen :=
  ⟨decode_cls, fun s => ⟨_, exec_cls s, rfl, fun c _ => Screen.cell_clear c, rfl, rfl⟩⟩

/-- Settles O7: the dispatch with entries in use, and on the empty stack. -/
theorem retPopsAndAddsTwo : Obligations.RetPopsAndAddsTwo :=
  ⟨decode_ret, fun _ _ hsp => ⟨_, exec_ret hsp, rfl, rfl, rfl⟩,
    fun s hsp => ⟨_, exec_ret_empty hsp, faults_raise s _ _⟩⟩

/-- Settles O9: the dispatch with room on the stack writes one entry, and on the full stack records the fault. -/
theorem callPushesItsOwnAddress : Obligations.CallPushesItsOwnAddress := by
  intro nnn s
  refine ⟨decode_A2 nnn, fun k hsp => ⟨_, exec_call nnn hsp, rfl, rfl, ?pushed, fun j hj => ?others,
    address_eq_append nnn⟩, fun hsp => ⟨_, exec_call_full nnn hsp, ?full⟩⟩
  case pushed => exact Vector.getElem_set_self ..
  case others => exact Vector.getElem_set_ne k.isLt j.isLt fun h => hj (Fin.ext h.symm)
  case full =>
    rw [setWidth17_addr]
    exact faults_raise s _ _

/-- Settles O39: `RET` pops the entry that `CALL` pushed, and no entry below it was written. -/
theorem callThenRetResumes : Obligations.CallThenRetResumes := by
  intro nnn s hsp
  have hcall := exec_call nnn (s := s) (k := ⟨s.sp.val, hsp⟩) rfl
  have hpushed : (s.stack.set s.sp.val s.pc hsp)[s.sp.val] = s.pc := Vector.getElem_set_self ..
  refine ⟨_, _, hcall, exec_ret (k := ⟨s.sp.val, hsp⟩) rfl, ?resumes, fun k hk => ?kept⟩
  case resumes =>
    exact congrArg (fun w : Word => { s with stack := s.stack.set s.sp.val s.pc hsp, pc := w + 2#16 }) hpushed
  case kept => exact Vector.getElem_set_ne hsp k.isLt (Nat.ne_of_gt hk)

/-- Settles O10: the dispatch writes `PC` alone, and its sum stays below 65536. -/
theorem jpV0AddsRegisterZero : Obligations.JpV0AddsRegisterZero := by
  intro nnn s
  exact ⟨decode_AB nnn, _, exec_jpV0 nnn s, rfl, s.toNat_offsetTarget nnn⟩

/-- Settles O12: both dispatches are one skip, on the test of equality and on its complement, and the last digit selects
the row. -/
theorem skipsComparingTwoRegisters : Obligations.SkipsComparingTwoRegisters := by
  intro x y s
  refine ⟨decode_seReg x y, decode_sneReg x y, fun n hn => ⟨?unknown5, ?unknown9⟩,
    ⟨_, exec_seReg x y s, s.skipIf_frame _, fun heq => ?seSkips, fun hne => ?seFalls⟩,
    ⟨_, exec_sneReg x y s, s.skipIf_frame _, fun hne => ?sneSkips, fun heq => ?sneFalls⟩⟩
  case unknown5 => rw [decode_R5, if_neg hn]
  case unknown9 => rw [decode_R9, if_neg hn]
  case seSkips => exact s.skipIf_pc_of_true (beq_iff_eq.mpr heq)
  case seFalls => exact s.skipIf_pc_of_false (beq_eq_false_iff_ne.mpr hne)
  case sneSkips => exact s.skipIf_pc_of_true (bne_iff_ne.mpr hne)
  case sneFalls => exact s.skipIf_pc_of_false (bne_eq_false_iff_eq.mpr heq)

/-- Settles O13: for an index of a key both dispatches are one skip, on the key and on its complement; above 15 both
record the fault. -/
theorem skipsOnKeyState : Obligations.SkipsOnKeyState := by
  intro x s
  refine ⟨decode_skp x, decode_sknp x, fun hkey => ⟨⟨_, exec_skp hkey, s.skipIf_frame _,
      fun hdown => s.skipIf_pc_of_true hdown, fun hup => s.skipIf_pc_of_false hup⟩,
    ⟨_, exec_sknp hkey, s.skipIf_frame _, fun hup => s.skipIf_pc_of_true ?up,
      fun hdown => s.skipIf_pc_of_false ?down⟩⟩, fun habove => ?_⟩
  case up => rw [State.keyDown, hup, Bool.not_false]
  case down => rw [State.keyDown, hdown, Bool.not_true]
  rw [← setWidth17_byte]
  exact ⟨⟨_, exec_skp_fault habove, faults_raise s _ _⟩, ⟨_, exec_sknp_fault habove, faults_raise s _ _⟩⟩

end Sys2Proof.Claims
end

section
/-! The register operations that remain (spec/44_fam8_alu.md R85, R91 to R94; spec/45_famA_B_C.md R97;
spec/48_famF_misc.md R104, R107, R108): the subtractions and the shifts with their flags, the order of the two writes of
R85, the masked random byte, index arithmetic, and the wait for a key. -/

namespace Sys2Proof.Machine

theorem exec_rnd (x : Reg) (nn : Byte) (s : State) :
    exec (.rnd x nn) s = rndWith (Config.rnd s.rndIndex) x nn s := rfl

theorem exec_subReg (x y : Reg) (s : State) :
    exec (.subReg x y) s = .next ((s.writeAlu x (aluSub s.cfg.borrowFlag (s.reg x) (s.reg y))).advance 2#16) := rfl

theorem exec_subnReg (x y : Reg) (s : State) :
    exec (.subnReg x y) s = .next ((s.writeAlu x (aluSub s.cfg.borrowFlag (s.reg y) (s.reg x))).advance 2#16) := rfl

theorem exec_shr (x y : Reg) (s : State) :
    exec (.shr x y) s =
      .next ((s.writeAlu x (aluShr (shiftOperand s.cfg.shiftSrc (s.reg x) (s.reg y)))).advance 2#16) := rfl

theorem exec_shl (x y : Reg) (s : State) :
    exec (.shl x y) s =
      .next ((s.writeAlu x (aluShl (shiftOperand s.cfg.shiftSrc (s.reg x) (s.reg y)))).advance 2#16) := rfl

theorem exec_addI (x : Reg) (s : State) :
    exec (.addI x) s = .next ((s.setI (s.i + (s.reg x).setWidth 16)).advance 2#16) := rfl

theorem exec_ldF (x : Reg) (s : State) : exec (.ldF x) s = .next ((s.setI (glyphAddress (s.reg x))).advance 2#16) := rfl

theorem exec_ldVxK_stall (x : Reg) {s : State} (h : s.key = 0#16) : exec (.ldVxK x) s = .next s := by
  show execLdVxK x s = _
  rw [execLdVxK, if_pos h]

theorem exec_ldVxK_pressed (x : Reg) {s : State} (h : s.key ≠ 0#16) :
    exec (.ldVxK x) s = .next ((s.setReg x ((pickKey s.cfg.keyPick s.key).setWidth 8)).advance 2#16) := by
  show execLdVxK x s = _
  rw [execLdVxK, if_neg h]

/-! ### Flags and operands -/

theorem setWidth8_key (k : Reg) : (k.setWidth 8 : Byte) = 0#4 ++ k := BitVec.setWidth_eq_append (by decide)

theorem aluSub_eq (p : BorrowFlag) (a b : Byte) :
    aluSub p a b = (BitVec.ofNat 8 ((a.toNat + 256 - b.toNat) % 256), some (borrowBit p a b)) :=
  Prod.ext (aluSub_result p a b) rfl

theorem flagByte_getLsbD (v : Byte) (k : Nat) : flagByte (v.getLsbD k) = BitVec.ofNat 8 (v.toNat / 2 ^ k % 2) := by
  rw [BitVec.getLsbD, Nat.testBit_eq_decide_div_mod_eq, flagByte_decide]
  rcases Nat.mod_two_eq_zero_or_one (v.toNat / 2 ^ k) with h | h <;> rw [h] <;> rfl

theorem aluShr_eq (v : Byte) : aluShr v = (BitVec.ofNat 8 (v.toNat / 2), some (v.getLsbD 0)) :=
  Prod.ext (aluShr_result v) rfl

theorem aluShl_eq (v : Byte) : aluShl v = (BitVec.ofNat 8 (v.toNat * 2 % 256), some (v.getLsbD 7)) :=
  Prod.ext (aluShl_result v) rfl

theorem flagByte_shr (v : Byte) : flagByte (v.getLsbD 0) = BitVec.ofNat 8 (v.toNat % 2) := by
  rw [flagByte_getLsbD, Nat.pow_zero, Nat.div_one]

theorem flagByte_shl (v : Byte) : flagByte (v.getLsbD 7) = BitVec.ofNat 8 (v.toNat / 128) := by
  have hbit : v.toNat / 2 ^ 7 % 2 = v.toNat / 128 := by have := v.isLt; omega
  rw [flagByte_getLsbD, hbit]

theorem shiftOperand_eq {src : ShiftSrc} {a b v : Byte} (hx : src = .x → v = a) (hy : src = .y → v = b) :
    shiftOperand src a b = v := by
  cases src with
  | x => exact (hx rfl).symm
  | y => exact (hy rfl).symm

/-- The address of a glyph stays below 16 bits: it is at most 75 (R108). -/
theorem toNat_glyphAddress (b : Byte) : (glyphAddress b).toNat = 5 * (b.extractLsb' 0 4).toNat := by
  have hnibble : (b.extractLsb' 0 4).toNat = b.toNat % 16 := by simp
  rw [hnibble, glyphAddress, BitVec.toNat_ofNat]
  omega

/-! ### The order of the two writes of R85 -/

/-- The state under another setting of `VF_ORDER`. -/
def State.withVfOrder (s : State) (o : VfOrder) : State := { s with cfg := { s.cfg with vfOrder := o } }

theorem State.setReg_comm (s : State) {x y : Reg} (h : x ≠ y) (a b : Byte) :
    (s.setReg x a).setReg y b = (s.setReg y b).setReg x a := by
  have hne : x.toNat ≠ y.toNat := fun e => h (BitVec.eq_of_toNat_eq e)
  simp only [State.setReg, Vector.set_comm _ _ hne]

/-- Writes to two different registers can be exchanged. -/
theorem State.writeAlu_eq_of_ne (s : State) {x : Reg} (hx : x ≠ flagReg) (r : Byte) (f : Bool) :
    s.writeAlu x (r, some f) = (s.setReg x r).setReg flagReg (flagByte f) := by
  unfold State.writeAlu
  cases s.cfg.vfOrder with
  | flagThenResult => exact s.setReg_comm hx.symm _ _
  | resultThenFlag => rfl

theorem State.writeAlu_withVfOrder (s : State) {x : Reg} (hx : x ≠ flagReg) (r : Byte) (f : Bool) (o : VfOrder) :
    (s.withVfOrder o).writeAlu x (r, some f) = (s.writeAlu x (r, some f)).withVfOrder o := by
  rw [State.writeAlu_eq_of_ne _ hx, State.writeAlu_eq_of_ne _ hx]
  rfl

end Sys2Proof.Machine

namespace Sys2Proof.Claims

open Sys2Proof Sys2Proof.Machine

/-- Settles O16: the dispatch is the meaning for the sampled byte, and that meaning, for every byte, writes one register
and takes one sample. -/
theorem rndLoadsAMaskedByte : Obligations.RndLoadsAMaskedByte := by
  intro x nn s
  have hmeaning (r : Byte) : ∃ t, rndWith r x nn s = .next t ∧
      t = { s with v := t.v, rndIndex := s.rndIndex + 1, pc := s.pc + 2#16 } ∧ t.reg x = (r &&& nn) ∧
      ∀ q, q ≠ x → t.reg q = s.reg q :=
    ⟨_, rfl, rfl, s.reg_setReg_same x _, fun _ hq => s.reg_setReg_ne hq _⟩
  exact ⟨decode_IC x nn, hmeaning _, exec_rnd x nn s, hmeaning⟩

/-- Settles O19: each dispatch is the two writes of R85 with the difference and the borrow indication of its operands,
and the indication under each setting of `BORROW_FLAG` is a comparison. -/
theorem subtractsWriteDifferenceAndBorrow : Obligations.SubtractsWriteDifferenceAndBorrow := by
  intro x y s
  refine ⟨decode_subReg x y, decode_subnReg x y, ⟨_, exec_subReg x y s, ?sub⟩, ⟨_, exec_subnReg x y s, ?subn⟩⟩
  all_goals
    rw [aluSub_eq]
    cases s.cfg.borrowFlag <;> simp only [← flagByte_decide] <;> exact writesResultAndFlag_writeAlu_advance s x _ _

/-- Settles O20: the operand is the register `SHIFT_SRC` names, and each dispatch is the two writes of R85 with half or
twice that operand and the bit shifted out. -/
theorem shiftsWriteTheBitShiftedOut : Obligations.ShiftsWriteTheBitShiftedOut := by
  intro x y s v hx hy
  have hoperand : shiftOperand s.cfg.shiftSrc (s.reg x) (s.reg y) = v := shiftOperand_eq hx hy
  refine ⟨decode_shr x y, decode_shl x y, ⟨_, exec_shr x y s, ?shr⟩, ⟨_, exec_shl x y s, ?shl⟩⟩
  case shr =>
    rw [hoperand, aluShr_eq, ← flagByte_shr]
    exact writesResultAndFlag_writeAlu_advance s x _ _
  case shl =>
    rw [hoperand, aluShl_eq, ← flagByte_shl]
    exact writesResultAndFlag_writeAlu_advance s x _ _

/-- Settles O21: with two different registers the order of the two writes does not matter. -/
theorem writeOrderMattersOnlyForVF : Obligations.WriteOrderMattersOnlyForVF := by
  intro x y i s t o hx hi h
  have hwrites (r : Byte) (f : Bool) : ((s.withVfOrder o).writeAlu x (r, some f)).advance 2#16 =
      ((s.writeAlu x (r, some f)).advance 2#16).withVfOrder o := by
    rw [s.writeAlu_withVfOrder hx]
    rfl
  simp only [flagWritingAlu, List.mem_cons, List.not_mem_nil, or_false] at hi
  rcases hi with rfl | rfl | rfl | rfl | rfl <;> cases h <;> exact congrArg _ (hwrites _ _)

/-- Settles O23: each dispatch is one write of `I` and the advance. -/
theorem indexArithmeticWritesNoFlag : Obligations.IndexArithmeticWritesNoFlag := by
  intro x s
  refine ⟨decode_addI x, decode_ldF x, ⟨_, exec_addI x s, s.setI_advance_frame _, ?sum⟩,
    ⟨_, exec_ldF x s, s.setI_advance_frame _, toNat_glyphAddress (s.reg x)⟩⟩
  case sum =>
    have hreg := (s.reg x).isLt
    simp only [State.advance_i, State.setI_i, BitVec.toNat_add, BitVec.toNat_setWidth]
    omega

/-- Settles O25: an empty latch stalls; otherwise the dispatch writes the key that `KEY_PICK` names. -/
theorem ldKWaitsForAKey : Obligations.LdKWaitsForAKey := by
  intro x s
  refine ⟨decode_ldVxK x, exec_ldVxK_stall x, fun hkey =>
    ⟨_, pickKey s.cfg.keyPick s.key, exec_ldVxK_pressed x hkey, ?writes, pickKey_pressed _ hkey,
      fun hlowest j hj => ?lowest⟩⟩
  case writes =>
    rw [← setWidth8_key]
    exact writesRegister_setReg_advance s x _
  case lowest =>
    rw [hlowest] at hj
    exact (lowestKey_spec hkey).right j hj

end Sys2Proof.Claims
end

section
/-! The moves between registers and memory at `I` (spec/48_famF_misc.md R109 to R111; spec/20_memory.md R43, R45, R52):
the dispatch of each, with its faults, and the bytes after a store. -/

namespace Sys2Proof.Machine

/-! ### The bytes after a store at `I` -/

/-- The bytes stored stand at `I` upward. -/
theorem State.read_storeAtI (s : State) {bs : List Byte} {k : Nat} (h : k < bs.length) :
    (s.storeAtI bs).mem.read (s.ea k) = bs.getD k 0#8 := by
  have hea : s.ea k = s.i.toNat + k := rfl
  rw [State.storeAtI_mem, Memory.read_writeBytes, hea, if_pos (by omega), Nat.add_sub_cancel_left]

theorem State.read_storeAtI_outside (s : State) {bs : List Byte} {a : Nat}
    (h : a < s.ea 0 ∨ s.ea bs.length ≤ a) : (s.storeAtI bs).mem.read a = s.mem.read a :=
  Memory.read_writeBytes_outside _ h

/-- After the first registers were stored, `V[r]` stands at `I + r` (R110). -/
theorem State.read_storeAtI_firstRegs (s : State) {x r : Reg} (h : r.toNat ≤ x.toNat) :
    (s.storeAtI (s.firstRegs (x.toNat + 1))).mem.read (s.ea r.toNat) = s.reg r := by
  have hx := x.isLt
  rw [s.read_storeAtI (by rw [State.length_firstRegs]; omega), s.getD_firstRegs (by omega)]

/-! ### The dispatch -/

/-- A store of `len` bytes inside the writable part of memory passes its checks. -/
theorem State.storeCheck_ok (s : State) {len : Nat} (hg : 0x04F < s.ea 0) (hb : s.ea len ≤ 0xFFF) :
    s.storeCheck (len + 1) = none := by
  have hea (k : Nat) : s.ea k = s.i.toNat + k := rfl
  rw [hea] at hg hb
  exact (s.storeCheck_none (Nat.succ_pos len)).mpr ⟨by omega, by omega⟩

theorem State.storeCheck_leaves (s : State) {len : Nat} (hb : 0xFFF < s.ea len) :
    s.storeCheck (len + 1) = some (.dataBounds, boundsInfo s.i) :=
  s.storeCheck_bounds (Nat.succ_pos len) hb

theorem exec_ldB {x : Reg} {s : State} (hg : 0x04F < s.ea 0) (hb : s.ea 2 ≤ 0xFFF) :
    exec (.ldB x) s = .next ((s.storeAtI (decimalDigits (s.reg x))).advance 2#16) := by
  show execLdB x s = _
  rw [execLdB, s.storeCheck_ok hg hb, State.orFault_none]

theorem exec_ldB_leaves (x : Reg) {s : State} (hb : 0xFFF < s.ea 2) :
    exec (.ldB x) s = .next (s.raise .dataBounds (boundsInfo s.i)) := by
  show execLdB x s = _
  rw [execLdB, s.storeCheck_leaves hb, State.orFault_some]

theorem exec_ldB_glyph (x : Reg) {s : State} (hg : s.ea 0 ≤ 0x04F) :
    exec (.ldB x) s = .next (s.raise .glyphWrite (s.i.setWidth 17)) := by
  show execLdB x s = _
  rw [execLdB, s.storeCheck_glyph (by decide) hg (by decide), State.orFault_some]

theorem exec_storeRegs {x : Reg} {s : State} (hg : 0x04F < s.ea 0) (hb : s.ea x.toNat ≤ 0xFFF) :
    exec (.storeRegs x) s = .next ((s.storeAtI (s.firstRegs (x.toNat + 1))).advance 2#16) := by
  show execStoreRegs x s = _
  rw [execStoreRegs, s.storeCheck_ok hg hb, State.orFault_none]

theorem exec_storeRegs_leaves {x : Reg} {s : State} (hb : 0xFFF < s.ea x.toNat) :
    exec (.storeRegs x) s = .next (s.raise .dataBounds (boundsInfo s.i)) := by
  show execStoreRegs x s = _
  rw [execStoreRegs, s.storeCheck_leaves hb, State.orFault_some]

theorem exec_storeRegs_glyph (x : Reg) {s : State} (hg : s.ea 0 ≤ 0x04F) :
    exec (.storeRegs x) s = .next (s.raise .glyphWrite (s.i.setWidth 17)) := by
  show execStoreRegs x s = _
  rw [execStoreRegs, s.storeCheck_glyph (Nat.succ_pos _) hg x.isLt, State.orFault_some]

theorem exec_loadRegs {x : Reg} {s : State} (hb : s.ea x.toNat ≤ 0xFFF) :
    exec (.loadRegs x) s = .next ((s.setRegs (s.loadAtI (x.toNat + 1))).advance 2#16) := by
  show execLoadRegs x s = _
  rw [execLoadRegs, s.boundsCheck_none.mpr (.inr hb), State.orFault_none]

theorem exec_loadRegs_leaves {x : Reg} {s : State} (hb : 0xFFF < s.ea x.toNat) :
    exec (.loadRegs x) s = .next (s.raise .dataBounds (boundsInfo s.i)) := by
  show execLoadRegs x s = _
  rw [execLoadRegs, s.boundsCheck_some (Nat.succ_pos _) hb, State.orFault_some]

/-! ### The registers after a load -/

/-- Loading the bytes at `I` gives `V[r]` the byte at `I + r`, for each register loaded (R111). -/
theorem State.reg_setRegs_loadAtI (s : State) {x r : Reg} (h : r.toNat ≤ x.toNat) :
    (s.setRegs (s.loadAtI (x.toNat + 1))).reg r = s.mem.read (s.ea r.toNat) := by
  rw [State.reg_setRegs, List.getD_eq_getElem?_getD, State.loadAtI, Memory.getElem?_readBytes, if_pos (by omega)]
  rfl

theorem State.reg_setRegs_loadAtI_above (s : State) {x r : Reg} (h : x.toNat < r.toNat) :
    (s.setRegs (s.loadAtI (x.toNat + 1))).reg r = s.reg r := by
  rw [State.reg_setRegs, List.getD_eq_getElem?_getD, State.loadAtI, Memory.getElem?_readBytes, if_neg (by omega)]
  rfl

theorem State.setRegs_advance_frame (s : State) (bs : List Byte) :
    (s.setRegs bs).advance 2#16 = { s with v := ((s.setRegs bs).advance 2#16).v, pc := s.pc + 2#16 } := by
  simp only [State.advance, State.setRegs]

end Sys2Proof.Machine

namespace Sys2Proof.Claims

open Sys2Proof Sys2Proof.Machine

/-- Settles O26: inside writable memory the dispatch is the store of the three digits and the advance; the two faults are
those its check finds. -/
theorem ldBStoresThreeDigits : Obligations.LdBStoresThreeDigits := by
  intro x s
  have hread {k : Nat} (hk : k < 3) : (s.storeAtI (decimalDigits (s.reg x))).mem.read (s.ea k) =
      (decimalDigits (s.reg x)).getD k 0#8 := s.read_storeAtI hk
  have hbyte {n : Nat} (hn : n < 256) : (BitVec.ofNat 8 n).toNat = n := Nat.mod_eq_of_lt hn
  have hx := (s.reg x).isLt
  refine ⟨decode_ldB x, fun hg hb => ⟨_, exec_ldB hg hb, rfl, ?hundreds, ?tens, ?ones, fun a ha => ?outside⟩,
    fun hb => ⟨_, exec_ldB_leaves x hb, faults_raise s _ _⟩, fun hg => ⟨_, exec_ldB_glyph x hg, ?glyph⟩⟩
  case hundreds => exact (congrArg BitVec.toNat (hread (k := 0) (by decide))).trans (hbyte (by omega))
  case tens => exact (congrArg BitVec.toNat (hread (k := 1) (by decide))).trans (hbyte (by omega))
  case ones => exact (congrArg BitVec.toNat (hread (k := 2) (by decide))).trans (hbyte (by omega))
  case outside => exact s.read_storeAtI_outside (ha.imp_right Nat.succ_le_of_lt)
  case glyph =>
    rw [setWidth17_word]
    exact faults_raise s _ _

/-- Settles O27: inside writable memory the dispatch is the store of the first registers and the advance; the two faults
are those its check finds. -/
theorem storeRegsStoresZeroToX : Obligations.StoreRegsStoresZeroToX := by
  intro x s
  have hlen : (s.firstRegs (x.toNat + 1)).length = x.toNat + 1 := by
    have := x.isLt
    rw [State.length_firstRegs]
    omega
  refine ⟨decode_storeRegs x, fun hg hb => ⟨_, exec_storeRegs hg hb, rfl, fun r hr => s.read_storeAtI_firstRegs hr,
    fun a ha => s.read_storeAtI_outside ?outside⟩, fun hb => ⟨_, exec_storeRegs_leaves hb, faults_raise s _ _⟩,
    fun hg => ⟨_, exec_storeRegs_glyph x hg, ?glyph⟩⟩
  case outside =>
    rw [hlen]
    exact ha.imp_right Nat.succ_le_of_lt
  case glyph =>
    rw [setWidth17_word]
    exact faults_raise s _ _

/-- Settles O28: inside memory the dispatch sets the first registers to the bytes at `I` and advances; otherwise its
check finds the fault. -/
theorem loadRegsLoadsZeroToX : Obligations.LoadRegsLoadsZeroToX := by
  intro x s
  refine ⟨decode_loadRegs x, fun hb => ⟨_, exec_loadRegs hb, s.setRegs_advance_frame _, fun r hr => ?loaded,
    fun r hr => ?above⟩, fun hb => ⟨_, exec_loadRegs_leaves hb, faults_raise s _ _⟩⟩
  case loaded => rw [State.reg_advance, s.reg_setRegs_loadAtI hr]
  case above => rw [State.reg_advance, s.reg_setRegs_loadAtI_above hr]

/-- Settles O29: the load reads the bytes that the store wrote, as `I` is unchanged. -/
theorem storeThenLoadRestores : Obligations.StoreThenLoadRestores := by
  intro x s v hg hb
  exact ⟨_, _, exec_storeRegs hg hb, exec_loadRegs hb, fun r hr =>
    (State.reg_setRegs_loadAtI _ hr).trans (s.read_storeAtI_firstRegs hr)⟩

/-- Settles O38: the next `PC` is `I`, where the store put `V[0]` and `V[1]`. -/
theorem nextFetchSeesTheStore : Obligations.NextFetchSeesTheStore := by
  intro x s hx hi hg hb
  refine ⟨_, exec_storeRegs hg hb, ?_⟩
  have hbytes (r : Reg) (hr : r.toNat ≤ x.toNat) := s.read_storeAtI_firstRegs hr
  have hpc : (s.pc + 2#16).toNat = s.ea 0 := by rw [← hi]; rfl
  have hlast : s.ea 1 ≤ s.ea x.toNat := Nat.add_le_add_left hx _
  rw [State.fetch_eq_some, State.advance_pc, State.storeAtI_pc, hpc]
  refine ⟨Nat.le_of_succ_le_succ (hlast.trans hb : s.ea 0 + 1 ≤ 0xFFE + 1), ?_⟩
  exact (congrArg₂ (fun b c : Byte => (b ++ c : Word)) (hbytes 0#4 (Nat.zero_le _)) (hbytes 1#4 hx)).symm

end Sys2Proof.Claims
end

section
/-! Drawing (spec/46_famD_draw.md R98 to R100): the state after a sprite is drawn, by cells and registers, and the mask S
of R100, which drawing does not change. -/

namespace Sys2Proof.Machine

/-- The state after `DRW Vx,Vy,n` of a sprite inside memory (R99). -/
def State.drawn (s : State) (x y : Reg) (n : Nibble) : State :=
  ((s.setScreen (s.sprite x y n.toNat).1).setReg flagReg (flagByte (s.sprite x y n.toNat).2)).advance 2#16

/-- The mask S of R100 for `DRW Vx,Vy,n`: is the cell hit by a sprite bit 1? -/
def State.hits (s : State) (x y : Reg) (n : Nibble) (c : Nat) : Bool :=
  spriteHits s.mem (s.ea 0) (s.reg x) (s.reg y) n.toNat c

theorem exec_drw {x y : Reg} {n : Nibble} {s : State} (h : n = 0#4 ∨ s.i.toNat + n.toNat - 1 ≤ 0xFFF) :
    exec (.drw x y n) s = .next (s.drawn x y n) := execDrw_ok h

theorem exec_drw_leaves {x y : Reg} {n : Nibble} {s : State} (hn : n ≠ 0#4) (h : 0xFFF < s.i.toNat + n.toNat - 1) :
    exec (.drw x y n) s = .next (s.raise .dataBounds (boundsInfo s.i)) := by
  have hpos : 0 < n.toNat := Nat.pos_of_ne_zero fun h0 => hn (BitVec.eq_of_toNat_eq h0)
  show execDrw x y n s = _
  rw [execDrw, s.boundsCheck_some hpos h, State.orFault_some]

theorem State.drawn_frame (s : State) (x y : Reg) (n : Nibble) :
    s.drawn x y n = { s with v := (s.drawn x y n).v, fb := (s.drawn x y n).fb, draw := true, pc := s.pc + 2#16 } := rfl

/-- Drawing inverts the cells of the mask and no other. -/
theorem State.cell_drawn (s : State) (x y : Reg) (n : Nibble) (c : Nat) :
    Screen.cell (s.drawn x y n).fb c = (Screen.cell s.fb c ^^ s.hits x y n c) :=
  (s.sprite_spec x y n).left c

theorem State.reg_drawn_of_ne (s : State) {x y r : Reg} {n : Nibble} (h : r ≠ flagReg) :
    (s.drawn x y n).reg r = s.reg r :=
  State.reg_setReg_ne _ h _

theorem flagByte_eq_one {f : Bool} : flagByte f = 1#8 ↔ f = true := by cases f <;> decide

theorem flagByte_eq_zero {f : Bool} : flagByte f = 0#8 ↔ ¬ f = true := by cases f <;> decide

theorem State.reg_drawn_flag (s : State) (x y : Reg) (n : Nibble) :
    (s.drawn x y n).reg flagReg = flagByte (s.sprite x y n.toNat).2 :=
  State.reg_setReg_same _ _ _

/-- `VF` is 1 when a lit cell was hit (R99). -/
theorem State.reg_drawn_flag_eq_one (s : State) (x y : Reg) (n : Nibble) :
    (s.drawn x y n).reg flagReg = 1#8 ↔ ∃ c, s.hits x y n c = true ∧ Screen.cell s.fb c = true := by
  rw [State.reg_drawn_flag, flagByte_eq_one]
  exact (s.sprite_spec x y n).right

theorem State.reg_drawn_flag_eq_zero (s : State) (x y : Reg) (n : Nibble) :
    (s.drawn x y n).reg flagReg = 0#8 ↔ ¬ ∃ c, s.hits x y n c = true ∧ Screen.cell s.fb c = true := by
  rw [State.reg_drawn_flag, flagByte_eq_zero]
  exact not_congr (s.sprite_spec x y n).right

/-- The mask depends on memory, `I` and the coordinates, which drawing leaves alone when they are not in `VF`. -/
theorem State.hits_drawn (s : State) {x y : Reg} (n : Nibble) (hx : x ≠ flagReg) (hy : y ≠ flagReg) (c : Nat) :
    (s.drawn x y n).hits x y n c = s.hits x y n c := by
  unfold State.hits
  rw [s.reg_drawn_of_ne hx, s.reg_drawn_of_ne hy]
  rfl

end Sys2Proof.Machine

namespace Sys2Proof.Claims

open Sys2Proof Sys2Proof.Machine

theorem spriteHits_iff_hits {s : State} {x y : Reg} {n : Nibble} {c : Nat} :
    SpriteHits s x y n.toNat c ↔ s.hits x y n c = true := spriteHits_iff.symm

/-- Settles O31: the drawing loop inverts the cells of the mask, and its collision bit says whether one was lit. -/
theorem drwXorsTheSprite : Obligations.DrwXorsTheSprite := by
  intro x y n s
  simp only [spriteHits_iff_hits]
  refine ⟨decode_D x y n, fun hin => ⟨_, exec_drw hin, s.drawn_frame x y n, fun c _ hhit => ?inverted,
    fun c _ hmiss => ?kept, (s.reg_drawn_flag_eq_one x y n).mpr, (s.reg_drawn_flag_eq_zero x y n).mpr,
    fun r hr => s.reg_drawn_of_ne hr⟩, fun hn hout => ⟨_, exec_drw_leaves hn hout, faults_raise s _ _⟩⟩
  case inverted => rw [s.cell_drawn, hhit, Bool.xor_true]
  case kept => rw [s.cell_drawn, Bool.eq_false_iff.mpr hmiss, Bool.xor_false]

/-- Settles O32: the second draw has the mask of the first, so each cell is inverted twice or not at all, and the cells
it finds lit are the cells of the mask that were off. -/
theorem doubleDrawRestoresTheScreen : Obligations.DoubleDrawRestoresTheScreen := by
  intro x y n s hx hy hin
  refine ⟨_, _, exec_drw hin, exec_drw (s := s.drawn x y n) hin, ?screen, ?flag⟩
  case screen =>
    refine Screen.ext_of_cell fun c _ => ?_
    rw [State.cell_drawn, State.cell_drawn, s.hits_drawn n hx hy, Bool.xor_assoc, Bool.xor_self, Bool.xor_false]
  case flag =>
    rw [State.reg_drawn_flag_eq_one]
    refine exists_congr fun c => ?_
    rw [s.hits_drawn n hx hy, spriteHits_iff_hits, s.cell_drawn]
    refine and_congr_right fun hhit => ?_
    rw [hhit, Bool.xor_true, Bool.not_eq_true']

end Sys2Proof.Claims
end

section
/-! What a step meets at `PC` (spec/40_step.md R65, R66, R70; spec/30_encoding.md R57 to R60; spec/20_memory.md R44): no
word, an instruction, `LD Vx,ST` or an unknown word, and the step and its label in each case. -/

namespace Sys2Proof.Machine

/-- The end of a step that executed or skipped a word: the tick of `PerStep`, and the end of the launch sequence (R65,
R71). -/
def State.finish (d : State) : State := (if d.cfg.timerMode = .perStep then d.tick else d).launched

theorem State.afterDispatch_eq_finish (d : State) {l : Label} (h : l = .executed ∨ l = .decodeError) :
    d.afterDispatch l = d.finish := State.afterDispatch_done h rfl

theorem State.finish_perStep {d : State} (h : d.cfg.timerMode = .perStep) : d.finish = d.tick.launched := by
  rw [State.finish, if_pos h]

theorem State.finish_external {d : State} (h : d.cfg.timerMode = .external) : d.finish = d.launched := by
  rw [State.finish, if_neg (by simp [h])]

/-- The end of a step touches the timers and the launch sequence. -/
theorem State.finish_frame (d : State) :
    d.finish = { d with dt := d.finish.dt, st := d.finish.st, atLaunch := false } := by
  cases h : d.cfg.timerMode with
  | perStep => rw [State.finish_perStep h]; rfl
  | external => rw [State.finish_external h]; rfl

theorem State.reg_finish (d : State) (r : Reg) : d.finish.reg r = d.reg r := by
  rw [State.finish_frame]
  rfl

theorem State.finish_timers_perStep {d : State} (h : d.cfg.timerMode = .perStep) :
    d.finish.dt.toNat = d.dt.toNat - 1 ∧ d.finish.st.toNat = d.st.toNat - 1 := by
  rw [State.finish_perStep h]
  exact ⟨tickTimer_toNat d.dt, tickTimer_toNat d.st⟩

theorem State.finish_timers_external {d : State} (h : d.cfg.timerMode = .external) :
    d.finish.dt = d.dt ∧ d.finish.st = d.st := by
  rw [State.finish_external h]
  exact ⟨rfl, rfl⟩

/-! ### The word labels (R70) -/

theorem wordStalls_iff {w : Word} {s : State} :
    wordStalls w s = true ↔ ∃ x, decode w = .ok (.ldVxK x) ∧ s.key = 0#16 := by
  unfold wordStalls
  cases decode w with
  | error e => simp
  | ok i => cases i <;> simp [Instr.waitsForKey]

theorem wordUnknown_iff {w : Word} {s : State} :
    wordUnknown w s = true ↔ (∃ e, decode w = .error e) ∧ decodeReadSound s.cfg.rdstSel w = none := by
  unfold wordUnknown
  cases decode w <;> simp

theorem wordLabel_ne_halted (w : Word) (s d : State) : wordLabel w s d ≠ .halted := by
  unfold wordLabel
  split_ifs <;> simp

theorem wordLabel_eq_faulted {w : Word} {s d : State} : wordLabel w s d = .faulted ↔ d.fault ≠ .noFault := by
  rw [← State.halted_iff]
  unfold wordLabel
  split_ifs with hd hs hu <;> simp [hd]

theorem wordLabel_eq_stalled {w : Word} {s d : State} :
    wordLabel w s d = .stalled ↔ d.fault = .noFault ∧ wordStalls w s = true := by
  rw [← State.not_halted_iff]
  unfold wordLabel
  split_ifs with hd hs hu <;> simp [*]

theorem wordLabel_eq_decodeError {w : Word} {s d : State} :
    wordLabel w s d = .decodeError ↔ d.fault = .noFault ∧ wordStalls w s = false ∧ wordUnknown w s = true := by
  rw [← State.not_halted_iff]
  unfold wordLabel
  split_ifs with hd hs hu <;> simp [*]

theorem wordLabel_eq_executed {w : Word} {s d : State} :
    wordLabel w s d = .executed ↔ d.fault = .noFault ∧ wordStalls w s = false ∧ wordUnknown w s = false := by
  rw [← State.not_halted_iff]
  unfold wordLabel
  split_ifs with hd hs hu <;> simp [*]

theorem wordStalls_of_error {w : Word} {s : State} {e : DecodeError} (h : decode w = .error e) :
    wordStalls w s = false := by
  unfold wordStalls
  rw [h]

/-- The label of every step (R70). -/
theorem label_cases (s : State) :
    (s.halted = true ∧ s.label = .halted) ∨
    (s.halted = false ∧ s.fetch = none ∧ s.label = .faulted) ∨
    (∃ w d, s.halted = false ∧ s.fetch = some w ∧ runWord w s = .next d ∧ s.label = wordLabel w s d) := by
  cases hh : s.halted with
  | true => exact .inl ⟨rfl, label_of_halted hh⟩
  | false =>
    cases hf : s.fetch with
    | none => exact .inr (.inl ⟨rfl, rfl, label_of_fetch_none hh hf⟩)
    | some w =>
      obtain ⟨d, hd⟩ := runWord_next w s
      exact .inr (.inr ⟨w, d, rfl, rfl, hd, label_of_fetch hh hf hd⟩)

/-- Every step answers a next state (R70). -/
theorem step_next (s : State) : ∃ t, step s = .next t := by
  rcases label_cases s with ⟨hh, -⟩ | ⟨hh, hf, -⟩ | ⟨w, d, hh, hf, hd, -⟩
  · exact ⟨_, step_of_halted hh⟩
  · exact ⟨_, step_of_fetch_none hh hf⟩
  · exact ⟨_, step_of_fetch hh hf hd⟩

/-- Above 0x1000 the `FAULT_INFO` of an address is the address (R43, R44). -/
theorem boundsInfo_above {a : Word} (h : 0xFFF < a.toNat) : boundsInfo a = 0#1 ++ a := by
  rw [boundsInfo, Nat.max_eq_left h, BitVec.ofNat_toNat, setWidth17_word]

/-! ### `LD Vx,ST` and the unknown words -/

theorem runWord_readSound {s : State} {w : Word} {e : DecodeError} {x : Reg} (h : decode w = .error e)
    (hx : decodeReadSound s.cfg.rdstSel w = some x) : runWord w s = .next ((s.setReg x s.st).advance 2#16) := by
  unfold runWord
  rw [h]
  simp only [hx]
  rfl

/-- Reading the sound timer is an executed step (R70, R112). -/
theorem wordLabel_readSound {s : State} {w : Word} {e : DecodeError} {x : Reg} (hf : s.fault = .noFault)
    (h : decode w = .error e) (hx : decodeReadSound s.cfg.rdstSel w = some x) :
    wordLabel w s ((s.setReg x s.st).advance 2#16) = .executed := by
  refine wordLabel_eq_executed.mpr ⟨hf, wordStalls_of_error h, Bool.eq_false_iff.mpr fun hu => ?_⟩
  obtain ⟨-, hnone⟩ := wordUnknown_iff.mp hu
  simp [hx] at hnone

theorem State.unknown_strict {s : State} (h : s.cfg.strictDecode = true) (w : Word) :
    s.unknown w = s.raise .illegalOpcode (w.setWidth 17) := by
  rw [State.unknown, if_pos h]

theorem State.unknown_lenient {s : State} (h : s.cfg.strictDecode = false) (w : Word) :
    s.unknown w = (s.diagnose w).advance 2#16 := by
  rw [State.unknown, if_neg (by simp [h])]

/-- The diagnostic registers after a decode error: the first since reset is recorded, a later one is not (R59). -/
theorem State.diagnose_eq (s : State) (w : Word) : ∃ p q,
    s.diagnose w = { s with diag := true, diagPc := p, diagWord := q } ∧ (s.diag = false → p = s.pc ∧ q = w) ∧
      (s.diag = true → p = s.diagPc ∧ q = s.diagWord) := by
  unfold State.diagnose
  cases h : s.diag with
  | true => exact ⟨s.diagPc, s.diagWord, by rw [if_pos rfl, ← h], nofun, fun _ => ⟨rfl, rfl⟩⟩
  | false => exact ⟨s.pc, w, rfl, fun _ => ⟨rfl, rfl⟩, nofun⟩

end Sys2Proof.Machine

namespace Sys2Proof.Claims

open Sys2Proof Sys2Proof.Machine

theorem fetches_iff {s : State} {i : Instr} :
    Fetches s i ↔ s.halted = false ∧ ∃ w, s.fetch = some w ∧ decode w = .ok i := by
  constructor
  · intro h
    exact ⟨h.not_halted, _, h.fetch_eq, h.decode_readWord⟩
  · rintro ⟨hh, w, hw, hd⟩
    obtain ⟨hpc, rfl⟩ := State.fetch_eq_some.mp hw
    exact ⟨s.not_halted_iff.mp hh, hpc, hd⟩

theorem fetchesUnknown_iff {s : State} {w : Word} :
    FetchesUnknown s w ↔ s.halted = false ∧ s.fetch = some w ∧ wordUnknown w s = true := by
  rw [wordUnknown_iff, decodeReadSound_eq_none, State.not_halted_iff, State.fetch_eq_some, and_assoc]
  rfl

/-- What is fetched depends on `FAULT`, `PC` and memory (R66). -/
theorem Fetches.congr {s t : State} {i : Instr} (h : Fetches s i) (hf : t.fault = s.fault) (hpc : t.pc = s.pc)
    (hm : t.mem = s.mem) : Fetches t i := by
  unfold Fetches
  rw [hf, hpc, hm]
  exact h

/-- The step at an unknown word and its label (R59, R70). -/
theorem FetchesUnknown.step_label {s : State} {w : Word} (h : FetchesUnknown s w) :
    step s = .next ((s.unknown w).afterDispatch (wordLabel w s (s.unknown w))) ∧
      s.label = wordLabel w s (s.unknown w) := by
  obtain ⟨hh, hw, hu⟩ := fetchesUnknown_iff.mp h
  obtain ⟨⟨e, he⟩, hnone⟩ := wordUnknown_iff.mp hu
  have hrun := runWord_unknown (s := s) he hnone
  exact ⟨step_of_fetch hh hw hrun, label_of_fetch hh hw hrun⟩

/-- Without `STRICT_DECODE` the word is skipped, with the label `DecodeError` (R59). -/
theorem FetchesUnknown.lenient {s : State} {w : Word} (h : FetchesUnknown s w) (hc : s.cfg.strictDecode = false) :
    step s = .next ((s.diagnose w).advance 2#16).finish ∧ s.label = .decodeError := by
  obtain ⟨hstep, hlabel⟩ := h.step_label
  obtain ⟨hh, -, hu⟩ := fetchesUnknown_iff.mp h
  obtain ⟨⟨e, he⟩, -⟩ := wordUnknown_iff.mp hu
  have hfault : (s.diagnose w).fault = .noFault := by
    obtain ⟨p, q, hd, -⟩ := s.diagnose_eq w
    rw [hd]
    exact s.not_halted_iff.mp hh
  have hword : wordLabel w s (s.unknown w) = .decodeError := by
    rw [s.unknown_lenient hc]
    exact wordLabel_eq_decodeError.mpr ⟨hfault, wordStalls_of_error he, hu⟩
  rw [hword] at hstep hlabel
  rw [hstep, State.afterDispatch_eq_finish _ (.inr rfl), s.unknown_lenient hc]
  exact ⟨rfl, hlabel⟩

/-- With `STRICT_DECODE` the word is a fault (R59). -/
theorem FetchesUnknown.strict {s : State} {w : Word} (h : FetchesUnknown s w) (hc : s.cfg.strictDecode = true) :
    step s = .next (s.raise .illegalOpcode (w.setWidth 17)).launched ∧ s.label = .faulted := by
  obtain ⟨hstep, hlabel⟩ := h.step_label
  rw [s.unknown_strict hc, wordLabel_of_fault (by simp)] at hstep hlabel
  exact ⟨hstep, hlabel⟩

/-- A step that records a fault is the effect `StepFaults` describes (R116, R71). -/
theorem stepFaults_raise (s : State) (cause : FaultCause) (info : BitVec 17) :
    StepFaults s (s.raise cause info).launched cause info := rfl

/-- Settles O30: the word decodes to no row and selects `LD Vx,ST`, whose dispatch reads `ST` before the tick. -/
theorem readSoundTimerWhenSelected : Obligations.ReadSoundTimerWhenSelected := by
  intro x sel s hfree hsel hf hpc hhigh hlow
  have hword : s.mem.readWord s.pc.toNat = (0xF#4 ++ x ++ sel : Word) := by
    rw [Memory.readWord, hhigh, hlow]
  have hfetch : s.fetch = some (0xF#4 ++ x ++ sel) := State.fetch_eq_some.mpr ⟨hpc, hword.symm⟩
  have hdecode := (decode_XF x sel).trans (decodeFamilyF_unknown hfree x)
  have hselected : decodeReadSound s.cfg.rdstSel (0xF#4 ++ x ++ sel) = some x :=
    decodeReadSound_eq_some.mpr ⟨⟨fieldOp_I _ x sel, by rw [hsel, fieldNN_I]⟩, fieldX_I _ x sel⟩
  have hstep := step_of_fetch (s.not_halted_iff.mpr hf) hfetch (runWord_readSound hdecode hselected)
  rw [wordLabel_readSound hf hdecode hselected, State.afterDispatch_eq_finish _ (.inl rfl)] at hstep
  let d : State := (s.setReg x s.st).advance 2#16
  have hread (r : Reg) : d.finish.reg r = (s.setReg x s.st).reg r := d.reg_finish r
  refine ⟨d.finish, hstep, ?frame, (hread x).trans (s.reg_setReg_same x _),
    fun r hr => (hread r).trans (s.reg_setReg_ne hr _), State.finish_timers_perStep (d := d),
    State.finish_timers_external (d := d)⟩
  case frame => rw [d.finish_frame]; rfl

/-- Settles O34: there is no word to fetch, so the step is the fault. -/
theorem fetchOutsideMemoryFaults : Obligations.FetchOutsideMemoryFaults := by
  intro s hf hpc
  refine ⟨_, step_of_fetch_none (s.not_halted_iff.mpr hf) (State.fetch_eq_none.mpr hpc), stepFaults_raise s _ _,
    fun heq => ?last, fun habove => boundsInfo_above habove⟩
  case last =>
    show boundsInfo s.pc = _
    rw [heq]
    rfl

/-- Settles O35: the step is the diagnostic and the advance, or the fault, by `STRICT_DECODE`. -/
theorem unknownOpcodeIsDiagnosed : Obligations.UnknownOpcodeIsDiagnosed := by
  intro s w h
  refine ⟨fun hc => ?lenient, fun hc => ?strict⟩
  case lenient =>
    obtain ⟨hstep, hlabel⟩ := h.lenient hc
    obtain ⟨p, q, hd, hfirst, hlater⟩ := s.diagnose_eq w
    let d : State := { s with diag := true, diagPc := p, diagWord := q, pc := s.pc + 2#16 }
    have hframe := d.finish_frame
    have hrecord : d.finish.diagPc = p ∧ d.finish.diagWord = q := by rw [hframe]; exact ⟨rfl, rfl⟩
    rw [hd] at hstep
    refine ⟨d.finish, hstep, hlabel, ?frame, fun hnew => hrecord.left ▸ hrecord.right ▸ hfirst hnew,
      fun hold => hrecord.left ▸ hrecord.right ▸ hlater hold, State.finish_timers_perStep (d := d),
      State.finish_timers_external (d := d)⟩
    case frame => rw [hrecord.left, hrecord.right]; exact hframe
  case strict =>
    obtain ⟨hstep, hlabel⟩ := h.strict hc
    rw [← setWidth17_word]
    exact ⟨_, hstep, hlabel, stepFaults_raise s _ _⟩

/-- Settles O36: the halted core, the failed fetch and every word have a next state. -/
theorem everyStepHasANextState : Obligations.EveryStepHasANextState := ⟨step_next, exec_next⟩

/-- Settles O45: the dispatch of a stall changes nothing, and the fetch does not see the timers. -/
theorem aStallChangesOnlyTimers : Obligations.AStallChangesOnlyTimers := by
  intro x s h hkey
  have hexec := exec_ldVxK_stall x hkey
  have hf : s.fault = .noFault := s.not_halted_iff.mp h.not_halted
  have hword : wordLabel (s.mem.readWord s.pc.toNat) s s = .stalled :=
    wordLabel_eq_stalled.mpr ⟨hf, wordStalls_iff.mpr ⟨x, h.decode_readWord, hkey⟩⟩
  have hstep := h.step_eq hexec
  have hlabel := label_of_fetch h.not_halted h.fetch_eq ((runWord_ok h.decode_readWord).trans hexec)
  rw [hword] at hstep hlabel
  have hframe := s.afterDispatch_frame .stalled
  refine ⟨_, hstep, hlabel, hframe, fun hm hticks => ?ticks, fun hquiet => ?quiet, ?waits⟩
  case ticks =>
    rw [State.afterDispatch_stalled hm, if_pos hticks]
    exact ⟨tickTimer_toNat s.dt, tickTimer_toNat s.st⟩
  case quiet =>
    cases hm : s.cfg.timerMode with
    | external => exact State.afterDispatch_external hm _
    | perStep =>
      have hno : s.cfg.stallTicks = false := hquiet.resolve_left (by simp [hm])
      rw [State.afterDispatch_stalled hm, if_neg (by simp [hno])]
  case waits =>
    rw [hframe]
    exact h.congr rfl rfl rfl

end Sys2Proof.Claims
end

section
/-! Faults, labels and the halt (spec/60_exceptions.md R115, R116, R120; spec/40_step.md R69, R70, R73;
spec/70_reset_and_hazards.md R146): the check that an instruction makes before it acts, the condition of each cause, and
the label of every step. -/

namespace Sys2Proof.Machine

/-! ### The check of an instruction (R115) -/

/-- The fault that an instruction's check finds, with its `FAULT_INFO` (R43, R45, R76, R78, R101, R102). -/
def State.faultCheck (s : State) : Instr → Option (FaultCause × BitVec 17)
  | .ret => if s.sp.val = 0 then some (.stackUnderflow, 0#17) else none
  | .call nnn => if s.sp.val = 16 then some (.stackOverflow, nnn.setWidth 17) else none
  | .drw _ _ n => s.boundsCheck n.toNat
  | .skp x => keyCheck (s.reg x)
  | .sknp x => keyCheck (s.reg x)
  | .ldB _ => s.storeCheck 3
  | .storeRegs x => s.storeCheck (x.toNat + 1)
  | .loadRegs x => s.boundsCheck (x.toNat + 1)
  | _ => none

theorem State.writeAlu_fault (s : State) (x : Reg) (out : AluOut) : (s.writeAlu x out).fault = s.fault := by
  rw [State.writeAlu_frame]

/-- Every instruction is its check, and where the check finds nothing an effect that leaves `FAULT` alone (R119). -/
theorem exec_eq_orFault (i : Instr) (s : State) :
    ∃ effect, exec i s = s.orFault (s.faultCheck i) effect ∧ effect.fault = s.fault := by
  cases i with
  | ret =>
    rcases Nat.eq_zero_or_pos s.sp.val with h | h
    · exact ⟨s, by rw [exec_ret_empty h, State.faultCheck, if_pos h, State.orFault_some], rfl⟩
    · have hlt := s.sp.isLt
      rw [State.faultCheck, if_neg (by omega)]
      exact ⟨_, exec_ret (k := ⟨s.sp.val - 1, by omega⟩) (Nat.sub_add_cancel h).symm, rfl⟩
  | call nnn =>
    rcases Nat.lt_or_ge s.sp.val 16 with h | h
    · rw [State.faultCheck, if_neg (by omega)]
      exact ⟨_, exec_call nnn (k := ⟨s.sp.val, h⟩) rfl, rfl⟩
    · have hlt := s.sp.isLt
      have hfull : s.sp.val = 16 := by omega
      exact ⟨s, by rw [exec_call_full nnn hfull, State.faultCheck, if_pos hfull, State.orFault_some], rfl⟩
  | addReg x y => exact ⟨_, rfl, State.writeAlu_fault s x _⟩
  | subReg x y => exact ⟨_, rfl, State.writeAlu_fault s x _⟩
  | shr x y => exact ⟨_, rfl, State.writeAlu_fault s x _⟩
  | subnReg x y => exact ⟨_, rfl, State.writeAlu_fault s x _⟩
  | shl x y => exact ⟨_, rfl, State.writeAlu_fault s x _⟩
  | ldVxK x =>
    refine ⟨_, rfl, ?_⟩
    split <;> rfl
  | loadRegs x =>
    refine ⟨(s.setRegs (s.loadAtI (x.toNat + 1))).advance 2#16, rfl, ?_⟩
    rw [State.advance_fault, State.setRegs_fault]
  | _ => exact ⟨_, rfl, rfl⟩

/-- An instruction records the fault its check found, or keeps `FAULT`. -/
theorem exec_faultCheck {i : Instr} {s d : State} (h : exec i s = .next d) :
    (∃ c n, s.faultCheck i = some (c, n) ∧ d = s.raise c n) ∨ (s.faultCheck i = none ∧ d.fault = s.fault) := by
  obtain ⟨effect, heq, heffect⟩ := exec_eq_orFault i s
  rw [heq] at h
  rcases s.orFault_cases h with hfault | ⟨hnone, rfl⟩
  · exact .inl hfault
  · exact .inr ⟨hnone, heffect⟩

/-- A word that records a fault changes nothing but the three fault registers (R116). -/
theorem runWord_fault {w : Word} {s d : State} (h : runWord w s = .next d) (hs : s.fault = .noFault)
    (hd : d.fault ≠ .noFault) : ∃ c n, d = s.raise c n := by
  rcases runWord_cases h with ⟨i, -, hx⟩ | ⟨e, x, -, -, rfl⟩ | ⟨e, -, -, rfl⟩
  · rcases exec_faultCheck hx with ⟨c, n, -, rfl⟩ | ⟨-, hkeep⟩
    · exact ⟨c, n, rfl⟩
    · exact absurd (hkeep.trans hs) hd
  · exact absurd hs hd
  · cases hc : s.cfg.strictDecode with
    | true => exact ⟨_, _, s.unknown_strict hc w⟩
    | false =>
      obtain ⟨p, q, hdiag, -⟩ := s.diagnose_eq w
      rw [s.unknown_lenient hc, hdiag] at hd
      exact absurd hs hd

end Sys2Proof.Machine

namespace Sys2Proof.Claims

open Sys2Proof Sys2Proof.Machine

/-! ### The condition of each cause (R115) -/

/-- The condition under which a step records a cause, by the table of R115. -/
def CauseCondition (s : State) : FaultCause → Prop
  | .noFault => True
  | .stackOverflow => ∃ nnn, Fetches s (.call nnn) ∧ s.sp.val = 16
  | .stackUnderflow => Fetches s .ret ∧ s.sp.val = 0
  | .fetchBounds => 0xFFE < s.pc.toNat
  | .dataBounds => ∃ i, Fetches s i ∧ 0 < dataLength i ∧ 0xFFF < s.i.toNat + dataLength i - 1
  | .glyphWrite => ∃ i, Fetches s i ∧ stores i = true ∧ s.i.toNat ≤ 0x04F
  | .keyIndex => ∃ x, (Fetches s (.skp x) ∨ Fetches s (.sknp x)) ∧ 15 < (s.reg x).toNat
  | .illegalOpcode => s.cfg.strictDecode = true ∧ ∃ w, FetchesUnknown s w

theorem causeCondition_boundsCheck {s : State} {i : Instr} {c : FaultCause} {n : BitVec 17} (h : Fetches s i)
    (hc : s.boundsCheck (dataLength i) = some (c, n)) : CauseCondition s c := by
  obtain ⟨hlen, hout, rfl, -⟩ := s.boundsCheck_eq_some hc
  exact ⟨i, h, hlen, hout⟩

theorem causeCondition_storeCheck {s : State} {i : Instr} {c : FaultCause} {n : BitVec 17} (h : Fetches s i)
    (hi : stores i = true) (hc : s.storeCheck (dataLength i) = some (c, n)) : CauseCondition s c := by
  rcases s.storeCheck_eq_some hc with ⟨hlen, hout, rfl, -⟩ | ⟨hglyph, -, -, rfl, -⟩
  · exact ⟨i, h, hlen, hout⟩
  · exact ⟨i, h, hi, hglyph⟩

theorem causeCondition_keyCheck {s : State} {x : Reg} {c : FaultCause} {n : BitVec 17}
    (h : Fetches s (.skp x) ∨ Fetches s (.sknp x)) (hc : keyCheck (s.reg x) = some (c, n)) : CauseCondition s c := by
  unfold keyCheck at hc
  split at hc <;> cases hc
  exact ⟨x, h, ‹_›⟩

/-- The check of a fetched instruction finds a cause under that cause's condition only. -/
theorem Fetches.causeCondition {s : State} {i : Instr} {c : FaultCause} {n : BitVec 17} (h : Fetches s i)
    (hc : s.faultCheck i = some (c, n)) : CauseCondition s c := by
  cases i with
  | ret =>
    simp only [State.faultCheck] at hc
    split at hc <;> cases hc
    exact ⟨h, ‹_›⟩
  | call nnn =>
    simp only [State.faultCheck] at hc
    split at hc <;> cases hc
    exact ⟨nnn, h, ‹_›⟩
  | drw x y n => exact causeCondition_boundsCheck h hc
  | loadRegs x => exact causeCondition_boundsCheck h hc
  | ldB x => exact causeCondition_storeCheck h rfl hc
  | storeRegs x => exact causeCondition_storeCheck h rfl hc
  | skp x => exact causeCondition_keyCheck (.inl h) hc
  | sknp x => exact causeCondition_keyCheck (.inr h) hc
  | _ => cases hc

/-- A step records a cause under that cause's condition only (R115). -/
theorem step_causeCondition {s t : State} (hs : s.fault = .noFault) (h : step s = .next t) :
    CauseCondition s t.fault := by
  rcases step_cases h with ⟨-, rfl⟩ | ⟨-, hf, rfl⟩ | ⟨w, d, hh, hw, hrun, rfl⟩
  · rw [hs]
    trivial
  · exact State.fetch_eq_none.mp hf
  · rw [State.afterDispatch_fault]
    rcases runWord_cases hrun with ⟨i, hd, hx⟩ | ⟨e, x, -, -, rfl⟩ | ⟨e, he, hnone, rfl⟩
    · rcases exec_faultCheck hx with ⟨c, n, hc, rfl⟩ | ⟨-, hkeep⟩
      · exact (fetches_iff.mpr ⟨hh, w, hw, hd⟩).causeCondition hc
      · rw [hkeep, hs]
        trivial
    · rw [State.advance_fault, State.setReg_fault, hs]
      trivial
    · cases hc : s.cfg.strictDecode with
      | true =>
        rw [s.unknown_strict hc]
        exact ⟨hc, w, fetchesUnknown_iff.mpr ⟨hh, hw, wordUnknown_iff.mpr ⟨⟨e, he⟩, hnone⟩⟩⟩
      | false =>
        obtain ⟨p, q, hdiag, -⟩ := s.diagnose_eq w
        rw [s.unknown_lenient hc, hdiag, State.advance_fault, hs]
        trivial

/-- The step at an instruction records what its check finds. -/
theorem Fetches.step_records {s t : State} {i : Instr} {c : FaultCause} {n : BitVec 17} (h : Fetches s i)
    (hc : s.faultCheck i = some (c, n)) (hstep : step s = .next t) : t.fault = c ∧ t.faultInfo = n := by
  obtain ⟨effect, heq, -⟩ := exec_eq_orFault i s
  rw [hc, State.orFault_some] at heq
  rw [h.step_eq heq] at hstep
  cases hstep
  rw [State.afterDispatch_frame]
  exact ⟨rfl, rfl⟩

/-- Data outside memory is what the check of the instruction finds first (R43, R118). -/
theorem faultCheck_dataBounds {s : State} {i : Instr} (hlen : 0 < dataLength i)
    (hout : 0xFFF < s.i.toNat + dataLength i - 1) : s.faultCheck i = some (.dataBounds, boundsInfo s.i) := by
  cases i with
  | drw x y n => exact s.boundsCheck_some hlen hout
  | loadRegs x => exact s.boundsCheck_some hlen hout
  | ldB x => exact s.storeCheck_bounds hlen hout
  | storeRegs x => exact s.storeCheck_bounds hlen hout
  | _ => exact absurd hlen (Nat.lt_irrefl 0)

theorem faultCheck_glyphWrite {s : State} {i : Instr} (hi : stores i = true) (hglyph : s.i.toNat ≤ 0x04F) :
    s.faultCheck i = some (.glyphWrite, s.i.setWidth 17) := by
  cases i with
  | ldB x => exact s.storeCheck_glyph (by decide) hglyph (by decide)
  | storeRegs x => exact s.storeCheck_glyph (Nat.succ_pos _) hglyph x.isLt
  | _ => cases hi

/-- Settles O40: a step records a cause under its condition only, and under the condition the check of the instruction
finds the cause with its `FAULT_INFO`. -/
theorem faultCausesAndConditions : Obligations.FaultCausesAndConditions := by
  refine ⟨⟨rfl, rfl, rfl, rfl, rfl, rfl, rfl, rfl⟩, fun s t hs hstep => ?_⟩
  have honly {c : FaultCause} (hc : t.fault = c) : CauseCondition s c := hc ▸ step_causeCondition hs hstep
  refine ⟨⟨fun nnn h hfull => ?stackOverflow, honly⟩, ⟨fun h hempty => ?stackUnderflow, honly⟩,
    ⟨fun hpc => ?fetchBounds, honly⟩, ⟨fun i h hlen hout => ?dataBounds, honly⟩,
    ⟨fun i h hi hglyph => ?glyphWrite, honly⟩, ⟨fun x h hkey => ?keyIndex, honly⟩,
    ⟨fun w hc h => ?illegalOpcode, honly⟩⟩
  case stackOverflow =>
    rw [← setWidth17_addr]
    exact h.step_records (by rw [State.faultCheck, if_pos hfull]) hstep
  case stackUnderflow => exact h.step_records (by rw [State.faultCheck, if_pos hempty]) hstep
  case fetchBounds =>
    rw [step_of_fetch_none (s.not_halted_iff.mpr hs) (State.fetch_eq_none.mpr hpc)] at hstep
    cases hstep
    exact ⟨rfl, rfl⟩
  case dataBounds => exact h.step_records (faultCheck_dataBounds hlen hout) hstep
  case glyphWrite =>
    rw [← setWidth17_word]
    exact h.step_records (faultCheck_glyphWrite hi hglyph) hstep
  case keyIndex =>
    rw [← setWidth17_byte]
    rcases h with h | h <;> exact h.step_records (keyCheck_some hkey) hstep
  case illegalOpcode =>
    rw [(h.strict hc).left] at hstep
    cases hstep
    exact ⟨rfl, setWidth17_word w⟩

/-! ### The label of a step (R70) -/

theorem label_eq_halted (s : State) : s.label = .halted ↔ s.fault ≠ .noFault := by
  rw [← State.halted_iff]
  rcases label_cases s with ⟨hh, hl⟩ | ⟨hh, -, hl⟩ | ⟨w, d, hh, -, -, hl⟩
  · simp [hh, hl]
  · simp [hh, hl]
  · simp [hh, hl, wordLabel_ne_halted]

theorem label_eq_faulted (s : State) :
    s.label = .faulted ↔ s.fault = .noFault ∧ ∃ t, step s = .next t ∧ t.fault ≠ .noFault := by
  rw [← State.not_halted_iff]
  rcases label_cases s with ⟨hh, hl⟩ | ⟨hh, hf, hl⟩ | ⟨w, d, hh, hf, hd, hl⟩
  · simp [hh, hl]
  · simp [hh, hl, step_of_fetch_none hh hf]
  · simp [hh, hl, step_of_fetch hh hf hd, wordLabel_eq_faulted]

theorem label_eq_stalled (s : State) : s.label = .stalled ↔ ∃ x, Fetches s (.ldVxK x) ∧ s.key = 0#16 := by
  constructor
  · intro h
    rcases label_cases s with ⟨-, hl⟩ | ⟨-, -, hl⟩ | ⟨w, d, hh, hf, -, hl⟩ <;> rw [hl] at h
    · cases h
    · cases h
    · obtain ⟨x, hx, hkey⟩ := wordStalls_iff.mp (wordLabel_eq_stalled.mp h).right
      exact ⟨x, fetches_iff.mpr ⟨hh, w, hf, hx⟩, hkey⟩
  · rintro ⟨x, h, hkey⟩
    obtain ⟨t, -, hl, -⟩ := aStallChangesOnlyTimers x s h hkey
    exact hl

theorem label_eq_decodeError (s : State) :
    s.label = .decodeError ↔ s.cfg.strictDecode = false ∧ ∃ w, FetchesUnknown s w := by
  constructor
  · intro h
    rcases label_cases s with ⟨-, hl⟩ | ⟨-, -, hl⟩ | ⟨w, d, hh, hf, -, hl⟩
    · cases hl.symm.trans h
    · cases hl.symm.trans h
    · obtain ⟨-, -, hu⟩ := wordLabel_eq_decodeError.mp (hl.symm.trans h)
      have hfetch : FetchesUnknown s w := fetchesUnknown_iff.mpr ⟨hh, hf, hu⟩
      refine ⟨Bool.eq_false_iff.mpr fun hc => ?_, w, hfetch⟩
      cases (hfetch.strict hc).right.symm.trans h
  · rintro ⟨hc, w, h⟩
    exact (h.lenient hc).right

/-- An executed step completed an instruction of the table, or read the sound timer (R70, R112). -/
theorem label_eq_executed (s : State) :
    s.label = .executed ↔
      (∃ i d, Fetches s i ∧ exec i s = .next d ∧ d.fault = .noFault ∧ ¬ (i.waitsForKey = true ∧ s.key = 0#16)) ∨
      ∃ w x, s.fault = .noFault ∧ s.fetch = some w ∧ (∃ e, decode w = .error e) ∧
        decodeReadSound s.cfg.rdstSel w = some x := by
  constructor
  · intro h
    rcases label_cases s with ⟨-, hl⟩ | ⟨-, -, hl⟩ | ⟨w, d, hh, hf, hrun, hl⟩
    · cases hl.symm.trans h
    · cases hl.symm.trans h
    · have hword := hl.symm.trans h
      obtain ⟨hd, -, hu⟩ := wordLabel_eq_executed.mp hword
      rcases runWord_cases hrun with ⟨i, hi, hx⟩ | ⟨e, x, he, hx, -⟩ | ⟨e, he, hnone, -⟩
      · refine .inl ⟨i, d, fetches_iff.mpr ⟨hh, w, hf, hi⟩, hx, hd, fun hstall => ?_⟩
        rw [wordLabel_ok hi hd, if_pos hstall] at hword
        cases hword
      · exact .inr ⟨w, x, s.not_halted_iff.mp hh, hf, ⟨e, he⟩, hx⟩
      · rw [wordUnknown_iff.mpr ⟨⟨e, he⟩, hnone⟩] at hu
        cases hu
  · rintro (⟨i, d, h, hx, hd, hstall⟩ | ⟨w, x, hs, hf, ⟨e, he⟩, hx⟩)
    · rw [label_of_fetch h.not_halted h.fetch_eq ((runWord_ok h.decode_readWord).trans hx),
        wordLabel_ok h.decode_readWord hd, if_neg hstall]
    · rw [label_of_fetch (s.not_halted_iff.mpr hs) hf (runWord_readSound he hx), wordLabel_readSound hs he hx]

/-- Settles O37: the five labels one by one. -/
theorem outcomeLabels : Obligations.OutcomeLabels := by
  intro s
  exact ⟨label_eq_halted s, label_eq_faulted s, label_eq_stalled s, label_eq_decodeError s, label_eq_executed s⟩

/-! ### The halt (R116, R120) -/

/-- Only `Reset` changes the fault registers of a halted core (R116). -/
theorem event_keeps_faultRegisters {e : Event} {t u : State} (h : event e t = .next u) (he : e ≠ .reset)
    (hf : t.fault ≠ .noFault) : u.fault = t.fault ∧ u.faultPc = t.faultPc ∧ u.faultInfo = t.faultInfo := by
  rcases event_cases h with ⟨hr, -⟩ | ⟨-, hstep⟩ | hu
  · exact absurd hr he
  · rw [step_of_halted (t.halted_iff.mpr hf)] at hstep
    cases hstep
    exact ⟨rfl, rfl, rfl⟩
  · rw [hu]
    exact ⟨rfl, rfl, rfl⟩

/-- A step that records a fault changes the fault registers and the launch sequence only (R116, R71). -/
theorem step_fault {s t : State} (hs : s.fault = .noFault) (h : step s = .next t) (ht : t.fault ≠ .noFault) :
    ∃ c n, t = (s.raise c n).launched := by
  rcases step_cases h with ⟨-, rfl⟩ | ⟨-, -, rfl⟩ | ⟨w, d, -, -, hrun, rfl⟩
  · exact absurd hs ht
  · exact ⟨_, _, rfl⟩
  · rw [State.afterDispatch_fault] at ht
    obtain ⟨c, n, rfl⟩ := runWord_fault hrun hs ht
    exact ⟨c, n, by rw [wordLabel_of_fault ht, State.afterDispatch_faulted]⟩

/-- Settles O41: a step that faults is a recorded fault and the end of the launch sequence. -/
theorem aFaultChangesOnlyTheFaultRegisters : Obligations.AFaultChangesOnlyTheFaultRegisters := by
  intro s t hs h ht
  refine ⟨(label_eq_faulted s).mpr ⟨hs, t, h, ht⟩, ?_, fun e u he hu => event_keeps_faultRegisters hu he ht⟩
  obtain ⟨c, n, rfl⟩ := step_fault hs h ht
  exact stepFaults_raise s c n

/-- Settles O42: the events one by one; those that are not `Reset` keep the fault. -/
theorem theHaltedCoreOnlyResets : Obligations.TheHaltedCoreOnlyResets := by
  intro s hf
  have hh := s.halted_iff.mpr hf
  refine ⟨step_of_halted hh, label_of_halted hh, fun hm => ?tick, fun _ => rfl, rfl, ⟨_, rfl, rfl⟩,
    fun e t h ht => ?onlyReset⟩
  case tick => simp [event, State.externalTick, hm, hh]
  case onlyReset =>
    by_contra he
    exact hf ((event_keeps_fault h he hf).symm.trans ht)

/-- Settles O43: the tick decrements each timer, and the event is the tick or is refused, by `TIMER_MODE`. -/
theorem tickDecrementsAndSaturates : Obligations.TickDecrementsAndSaturates := by
  intro s
  refine ⟨rfl, tickTimer_toNat s.dt, tickTimer_toNat s.st, fun hm hf => ?external, fun hm t => ?perStep⟩
  case external => simp [event, State.externalTick, hm, s.not_halted_iff.mpr hf]
  case perStep => simp [event, State.externalTick, hm]

/-- Settles O58: the event is the clearing of the flag in every state. -/
theorem ackDrawClearsTheDrawFlag : Obligations.AckDrawClearsTheDrawFlag := by
  intro s
  rfl

/-! ### The end of a run (R146) -/

theorem endedWell_iff {s : State} :
    Safety.endedWell s = true ↔ Fetches s (.jp (s.pc.setWidth 12)) ∧ s.pc.toNat < 4096 := by
  rw [fetches_iff, Safety.endedWell, Safety.atSelfJump]
  cases s.fetch <;> simp [and_assoc]

/-- A jump to the address it stands at changes nothing (R77). -/
theorem exec_selfJump {s : State} (h : s.pc.toNat < 4096) : exec (.jp (s.pc.setWidth 12)) s = .next s := by
  have hpc : address (s.pc.setWidth 12) = s.pc := by
    apply BitVec.eq_of_toNat_eq
    simp only [address, BitVec.toNat_setWidth]
    omega
  rw [exec_jp, hpc]
  rfl

/-- Settles O55: the dispatch of the self-jump changes nothing, so the step is its tick, and the jump is fetched again. -/
theorem aSelfJumpStays : Obligations.ASelfJumpStays := by
  intro s h
  obtain ⟨hfetch, hpc⟩ := endedWell_iff.mp h
  have hstep := hfetch.step_eq (exec_selfJump hpc)
  refine ⟨_, hstep, State.afterDispatch_frame _ _, endedWell_iff.mpr ?_⟩
  rw [State.afterDispatch_frame]
  exact ⟨hfetch.congr rfl rfl rfl, hpc⟩

end Sys2Proof.Claims
end

section
/-! The invariant (Sys2Proof/Safety.lean; spec/40_step.md R68 to R74; spec/70_reset_and_hazards.md R132, R133, R137): what
each event does to memory, the glyph table, the range of `PC` and the stack, and the records; and the launch. -/

namespace Sys2Proof.Machine

/-! ### What an event does (R9) -/

theorem State.loadImage_cases {s t : State} {image : List Byte} (h : s.loadImage image = .next t) :
    image.length ≤ 3584 ∧ t = { s with mem := s.mem.writeBytes 0x200 image, atLaunch := false } := by
  unfold State.loadImage at h
  split at h <;> cases h
  exact ⟨Nat.le_of_not_lt ‹_›, rfl⟩

/-- Everything an event can do (R9): `Reset`, `Step`, an admitted `Load`, or a change of the timers, the latch and the
draw flag alone. -/
theorem event_effects {e : Event} {s t : State} (h : event e s = .next t) :
    (e = .reset ∧ t = s.resetEvent) ∨ (e = .step ∧ step s = .next t) ∨
    (∃ image : List Byte, s.atLaunch = true ∧ image.length ≤ 3584 ∧
      t = { s with mem := s.mem.writeBytes 0x200 image, atLaunch := false }) ∨
    t = { s with dt := t.dt, st := t.st, key := t.key, draw := t.draw } := by
  cases e with
  | step => exact .inr (.inl ⟨rfl, h⟩)
  | reset => cases h; exact .inl ⟨rfl, rfl⟩
  | setKeys k => cases h; exact .inr (.inr (.inr rfl))
  | ackDraw => cases h; exact .inr (.inr (.inr rfl))
  | tick =>
    simp only [event, State.externalTick] at h
    split at h <;> cases h
    split <;> exact .inr (.inr (.inr rfl))
  | load image =>
    simp only [event] at h
    split at h
    · exact .inr (.inr (.inl ⟨image, ‹_›, s.loadImage_cases h⟩))
    · cases h

/-! ### What the dispatch of a word does -/

/-- Decode and dispatch of a word end in a recorded fault, in a completed instruction, or in the diagnostic of an
unknown word and an advance (R59, R65). -/
theorem runWord_ends {w : Word} {s d : State} (h : runWord w s = .next d) :
    Ends s d ∨ d = (s.diagnose w).advance 2#16 := by
  rcases runWord_cases h with ⟨i, -, hx⟩ | ⟨e, x, -, -, rfl⟩ | ⟨e, -, -, rfl⟩
  · exact .inl (exec_cases hx)
  · exact .inl (.inr (.of_advance rfl rfl rfl rfl rfl rfl rfl rfl rfl rfl rfl rfl rfl))
  · cases hc : s.cfg.strictDecode with
    | true => exact .inl (.inl ⟨_, _, by decide, s.unknown_strict hc w⟩)
    | false => exact .inr (s.unknown_lenient hc w)

/-- A store of a completed instruction lies above the glyph table (R45). -/
theorem Ends.read_glyph {s d : State} (h : Ends s d) {a : Nat} (ha : a < 80) : d.mem.read a = s.mem.read a := by
  rcases h with ⟨c, n, -, rfl⟩ | h
  · rfl
  · rcases h.mem with hm | ⟨bs, hm, hg, -⟩ <;> rw [hm]
    exact Memory.read_writeBytes_outside _ (.inl (by omega))

theorem Ends.cfg {s d : State} (h : Ends s d) : d.cfg = s.cfg := by
  rcases h with ⟨c, n, -, rfl⟩ | h
  · rfl
  · exact h.cfg

/-- No step writes the glyph table or the configuration. -/
theorem step_keeps_glyphs {s t : State} (h : step s = .next t) :
    (∀ a, a < 80 → t.mem.read a = s.mem.read a) ∧ t.cfg = s.cfg := by
  rcases step_cases h with ⟨-, rfl⟩ | ⟨-, -, rfl⟩ | ⟨w, d, -, -, hrun, rfl⟩
  · exact ⟨fun _ _ => rfl, rfl⟩
  · exact ⟨fun _ _ => rfl, rfl⟩
  · rw [State.afterDispatch_frame]
    rcases runWord_ends hrun with hd | rfl
    · exact ⟨fun _ ha => hd.read_glyph ha, hd.cfg⟩
    · obtain ⟨p, q, hdiag, -⟩ := s.diagnose_eq w
      rw [hdiag]
      exact ⟨fun _ _ => rfl, rfl⟩

theorem event_keeps_glyphs {e : Event} {s t : State} (he : e ≠ .reset) (h : event e s = .next t) {a : Nat}
    (ha : a < 80) : t.mem.read a = s.mem.read a := by
  rcases event_effects h with ⟨hr, -⟩ | ⟨-, hstep⟩ | ⟨image, -, -, rfl⟩ | ht
  · exact absurd hr he
  · exact (step_keeps_glyphs hstep).left a ha
  · exact Memory.read_writeBytes_outside _ (.inl (by omega))
  · rw [ht]

theorem event_cfg {e : Event} {s t : State} (h : event e s = .next t) : t.cfg = s.cfg := by
  rcases event_effects h with ⟨-, rfl⟩ | ⟨-, hstep⟩ | ⟨image, -, -, rfl⟩ | ht
  · rfl
  · exact (step_keeps_glyphs hstep).right
  · rfl
  · rw [ht]

end Sys2Proof.Machine

namespace Sys2Proof.Safety

open Sys2Proof Sys2Proof.Machine

/-! ### The parts of the invariant after a completed instruction -/

theorem Inv.memory_of_completes {s d : State} (hs : Inv s) (h : Completes s d) : d.mem.wf := by
  rcases h.mem with hm | ⟨bs, hm, -, hb⟩ <;> rw [hm]
  · exact hs.memory
  · exact Memory.writeBytes_wf hs.memory hb

/-- From a fetch inside memory an advance or a return stays below 0x10FE, and a pushed address is one fetched from
(R68, R78). -/
theorem Inv.range_of_completes {s d : State} (hs : Inv s) (hpc : s.pc.toNat ≤ 0xFFE) (h : Completes s d) :
    pcInRange d := by
  obtain ⟨-, hstack⟩ := hs.range
  refine ⟨?pc, fun k hk => ?stack⟩
  case pc =>
    rcases h.pc with hp | hp | hp | hp | ⟨k, hk, hp⟩
    · rw [hp]; omega
    · rw [hp, BitVec.toNat_add]; simp; omega
    · rw [hp, BitVec.toNat_add]; simp; omega
    · exact hp
    · have hentry := hstack k hk
      rw [hp, BitVec.toNat_add]; simp only [BitVec.toNat_ofNat]; omega
  case stack =>
    rcases h.stack with ⟨hst, hsp⟩ | ⟨hlt, hst, hsp⟩
    · rw [hst]
      exact hstack k (by omega)
    · simp only [hst, Fin.getElem_fin, Vector.getElem_set]
      split
      · exact hpc
      · exact hstack k (by omega)

theorem Inv.glyphs_of_read {s d : State} (hs : Inv s) (hread : ∀ a, a < 80 → d.mem.read a = s.mem.read a)
    (hc : d.cfg = s.cfg) : glyphsIntact d := by
  intro a ha
  rw [hread a ha, hc]
  exact hs.glyphs a ha

/-! ### The invariant is kept -/

/-- The end of a dispatch keeps the invariant when it came from a fetch inside memory. -/
theorem Inv.launched_of_ends {s d : State} (hs : Inv s) (hpc : s.pc.toNat ≤ 0xFFE) (h : Ends s d) :
    Inv d.launched := by
  obtain ⟨hfault, hdiag⟩ := hs.records
  rcases h with ⟨c, n, hc, rfl⟩ | h
  · exact ⟨hs.memory, hs.glyphs, hs.range, ⟨fun h0 => absurd h0 hc, hdiag⟩, hs.config, nofun⟩
  · have hmemory := hs.memory_of_completes h
    have hrange := hs.range_of_completes hpc h
    refine ⟨hmemory, hs.glyphs_of_read (fun _ ha => Ends.read_glyph (.inr h) ha) h.cfg, hrange, ⟨?fault, ?diag⟩,
      h.cfg ▸ hs.config, nofun⟩
    case fault =>
      show d.fault = _ → d.faultPc = _ ∧ d.faultInfo = _
      rw [h.fault, h.faultPc, h.faultInfo]
      exact hfault
    case diag =>
      show d.diag = _ → d.diagPc = _ ∧ d.diagWord = _
      rw [h.diag, h.diagPc, h.diagWord]
      exact hdiag

theorem Inv.launched_of_diagnose {s : State} (hs : Inv s) (hpc : s.pc.toNat ≤ 0xFFE) (w : Word) :
    Inv ((s.diagnose w).advance 2#16).launched := by
  obtain ⟨p, q, hdiag, -⟩ := s.diagnose_eq w
  have hadvance := hs.range_of_completes hpc (.of_skip s false)
  rw [hdiag]
  exact ⟨hs.memory, hs.glyphs, hadvance, ⟨hs.records.left, nofun⟩, hs.config, nofun⟩

/-- The invariant does not speak of the timers, the latch and the draw flag. -/
theorem Inv.of_host {s : State} (hs : Inv s) (dt st : Byte) (key : Word) (draw : Bool) :
    Inv { s with dt := dt, st := st, key := key, draw := draw } :=
  ⟨hs.memory, hs.glyphs, hs.range, hs.records, hs.config, hs.launch⟩

theorem Inv.afterDispatch {d : State} (h : Inv d.launched) (l : Label) : Inv (d.afterDispatch l) := by
  rcases d.afterDispatch_cases l with hd | hd <;> rw [hd]
  · exact h
  · exact h.of_host _ _ _ _

theorem Inv.step {s t : State} (hs : Inv s) (h : step s = .next t) : Inv t := by
  rcases step_cases h with ⟨-, rfl⟩ | ⟨-, -, rfl⟩ | ⟨w, d, -, hf, hrun, rfl⟩
  · exact hs
  · exact ⟨hs.memory, hs.glyphs, hs.range, ⟨nofun, hs.records.right⟩, hs.config, nofun⟩
  · obtain ⟨hpc, -⟩ := State.fetch_eq_some.mp hf
    refine Inv.afterDispatch ?_ _
    rcases runWord_ends hrun with hd | rfl
    · exact hs.launched_of_ends hpc hd
    · exact hs.launched_of_diagnose hpc w

/-- The reset state of a well-formed configuration meets the invariant (R32, R133). -/
theorem inv_resetFor {c : Config} (h : c.wf = true) (k : Nat) : Inv (State.resetFor c k) :=
  ⟨resetMemory_wf h, fun _ ha => read_resetMemory_glyph h ha,
    ⟨(by decide : State.reset.pc.toNat ≤ 0x10FE), fun _ hk => absurd hk (Nat.not_lt_zero _)⟩,
    ⟨fun _ => ⟨rfl, rfl⟩, fun _ => ⟨rfl, rfl⟩⟩, h, fun _ => rfl⟩

/-- An image of at most 3584 bytes ends inside memory (R71). -/
theorem Inv.load {s : State} (hs : Inv s) {image : List Byte} (h : image.length ≤ 3584) :
    Inv { s with mem := s.mem.writeBytes 0x200 image, atLaunch := false } :=
  ⟨Memory.writeBytes_wf hs.memory (by omega),
    hs.glyphs_of_read (fun _ ha => Memory.read_writeBytes_outside _ (.inl (by omega))) rfl, hs.range, hs.records,
    hs.config, nofun⟩

theorem Inv.event {e : Event} {s t : State} (hs : Inv s) (h : event e s = .next t) : Inv t := by
  rcases event_effects h with ⟨-, rfl⟩ | ⟨-, hstep⟩ | ⟨image, -, hlen, rfl⟩ | ht
  · exact inv_resetFor hs.config _
  · exact hs.step hstep
  · exact hs.load hlen
  · rw [ht]
    exact hs.of_host _ _ _ _

theorem Inv.run {es : List Event} {s t : State} (hs : Inv s) (h : run es s = .next t) : Inv t := by
  induction es generalizing s with
  | nil => cases h; exact hs
  | cons e es ih =>
    simp only [Machine.run] at h
    split at h
    · exact ih (hs.event ‹_›) h
    · cases h
    · cases h

end Sys2Proof.Safety

namespace Sys2Proof.Claims

open Sys2Proof Sys2Proof.Machine

/-- Settles O46: each part of the invariant survives a completed instruction, a recorded fault and a decode error, and
each event that is no step. -/
theorem stepKeepsTheInvariant : Obligations.StepKeepsTheInvariant :=
  ⟨fun _ _ hs h => hs.step h, fun _ _ _ hs h => hs.event h⟩

/-- Settles O47: `State.reset` lists no memory, so the glyph table reads as the background. -/
theorem resetMeetsTheInvariant : Obligations.ResetMeetsTheInvariant :=
  ⟨Memory.nil_wf, fun _ _ => rfl, ⟨by decide, fun _ hk => absurd hk (Nat.not_lt_zero _)⟩,
    ⟨fun _ => ⟨rfl, rfl⟩, fun _ => ⟨rfl, rfl⟩⟩, by decide, fun _ => rfl⟩

/-- Settles O48: the launch state is a reset state with an image loaded, and a run is event after event. -/
theorem runsFromLaunchKeepTheInvariant : Obligations.RunsFromLaunchKeepTheInvariant := by
  intro c image s hc h
  obtain ⟨hlen, rfl⟩ := State.loadImage_cases h
  have hlaunch := (Safety.inv_resetFor hc 0).load hlen
  exact ⟨hlaunch, fun _ _ hrun => hlaunch.run hrun⟩

/-- Settles O49: stores lie above the glyph table, and an image is loaded above it. -/
theorem glyphTableIsImmutable : Obligations.GlyphTableIsImmutable := by
  intro e s t a he h ha
  exact event_keeps_glyphs he h ha

/-- Settles O54: no dispatch and no event writes the configuration. -/
theorem noEventChangesTheConfiguration : Obligations.NoEventChangesTheConfiguration := by
  intro e s t h
  exact event_cfg h

/-- A step never admits a `Load`, halted or not (R71). -/
theorem step_keeps_launched {s t : State} (h : step s = .next t) (ht : t.atLaunch = true) : s.atLaunch = true := by
  cases hh : s.halted with
  | true => rw [step_of_halted hh] at h; cases h; exact ht
  | false => rw [step_atLaunch hh h] at ht; cases ht

/-- Settles O56: an admitted `Load` writes the image or is refused, by its length; the field `atLaunch` is set by `Reset`
alone. -/
theorem loadIsAllOrNothing : Obligations.LoadIsAllOrNothing := by
  intro s image
  refine ⟨fun hl hlong => ?refused, fun hl hfits => ⟨{ s with mem := s.mem.writeBytes 0x200 image, atLaunch := false },
    ?loaded, rfl, fun k hk => ?image, fun a ha => Memory.read_writeBytes_outside _ ha⟩, fun hl => ?outside,
    ⟨_, rfl, rfl⟩, fun hf t h => step_atLaunch (s.not_halted_iff.mpr hf) h, fun e t he h ht => ?again⟩
  case refused => simp [event, State.loadImage, maxImage, hl, hlong]
  case loaded => simp [event, State.loadImage, maxImage, hl, Nat.not_lt.mpr hfits]
  case image =>
    rw [Memory.read_writeBytes, if_pos ⟨Nat.le_add_right _ k, by omega⟩, Nat.add_sub_cancel_left,
      List.getD_eq_getElem _ _ hk, List.getElem?_eq_getElem hk]
  case outside => simp [event, hl]
  case again =>
    rcases event_effects h with ⟨hr, -⟩ | ⟨-, hstep⟩ | ⟨_, hl, -, -⟩ | hframe
    · exact absurd hr he
    · exact step_keeps_launched hstep ht
    · exact hl
    · rw [hframe] at ht
      exact ht

/-- Settles O60: the reset state evaluated, with memory that lists nothing and so reads as the glyph table. -/
theorem resetStateHoldsTheSpecsValues : Obligations.ResetStateHoldsTheSpecsValues :=
  ⟨by decide, rfl, rfl, rfl, rfl, rfl, fun c _ => Screen.cell_clear c, rfl, rfl, rfl, rfl, rfl, rfl, rfl, rfl, by decide,
    rfl, rfl, rfl, rfl, rfl, rfl, rfl, rfl, rfl⟩

end Sys2Proof.Claims
end

section
/-! What each instruction writes and reads (spec/10_state.md R14 to R26, R33; spec/20_memory.md access summary): the
footprint of every instruction, and the fields of the state that an instruction cannot observe (R17, R20, R22). -/

namespace Sys2Proof.Claims

open Sys2Proof Sys2Proof.Machine

/-! ### The footprint of an instruction -/

/-- `VF` is as before, or the instruction is one that writes it (R14). -/
def KeepsFlag (i : Instr) (s t : State) : Prop :=
  t.reg 0xF#4 = s.reg 0xF#4 ∨ writesFlag i = true ∨ destination i = some 0xF#4

/-- The states an instruction can end in, by the fields it may write: a recorded fault, or `PC` with one group of
fields that only the named instructions write. -/
inductive Footprint (i : Instr) (s : State) : State → Prop where
  | fault (c : FaultCause) (n : BitVec 17) : Footprint i s (s.raise c n)
  | registers (v : Vector Byte 16) (pc : Word) (hflag : KeepsFlag i s { s with v := v, pc := pc }) :
      Footprint i s { s with v := v, pc := pc }
  | sample (v : Vector Byte 16) (k : Nat) (pc : Word) (hi : ∃ x nn, i = .rnd x nn)
      (hflag : KeepsFlag i s { s with v := v, rndIndex := k, pc := pc }) :
      Footprint i s { s with v := v, rndIndex := k, pc := pc }
  | index (w pc : Word) (hi : (∃ nnn, i = .ldI nnn) ∨ (∃ x, i = .addI x) ∨ ∃ x, i = .ldF x) :
      Footprint i s { s with i := w, pc := pc }
  | pop (sp : Fin 17) (pc : Word) (hi : i = .ret) : Footprint i s { s with sp := sp, pc := pc }
  | push (sp : Fin 17) (stack : Vector Word 16) (pc : Word) (hi : ∃ nnn, i = .call nnn) :
      Footprint i s { s with sp := sp, stack := stack, pc := pc }
  | clear (fb : Screen) (draw : Bool) (pc : Word) (hi : i = .cls) :
      Footprint i s { s with fb := fb, draw := draw, pc := pc }
  | sprite (v : Vector Byte 16) (fb : Screen) (draw : Bool) (pc : Word) (hi : ∃ x y n, i = .drw x y n) :
      Footprint i s { s with v := v, fb := fb, draw := draw, pc := pc }
  | store (mem : Memory) (pc : Word) (hi : stores i = true) : Footprint i s { s with mem := mem, pc := pc }
  | delay (dt : Byte) (pc : Word) (hi : ∃ x, i = .ldDTVx x) : Footprint i s { s with dt := dt, pc := pc }
  | sound (st : Byte) (pc : Word) (hi : ∃ x, i = .ldSTVx x) : Footprint i s { s with st := st, pc := pc }

/-- An instruction that changes `PC` alone. -/
theorem Footprint.of_pc (i : Instr) (s : State) (pc : Word) : Footprint i s { s with pc := pc } :=
  .registers s.v pc (.inl rfl)

/-- A register write keeps `VF` unless its register is `VF`, which is then the destination. -/
theorem keepsFlag_setReg {i : Instr} {x : Reg} (hi : destination i = some x) (s : State) (b : Byte) :
    KeepsFlag i s (s.setReg x b) := by
  by_cases hx : x = 0xF#4
  · exact .inr (.inr (hx ▸ hi))
  · exact .inl (s.reg_setReg_ne (Ne.symm hx) b)

theorem Footprint.of_setReg {i : Instr} {x : Reg} (hi : destination i = some x) (s : State) (b : Byte) :
    Footprint i s ((s.setReg x b).advance 2#16) :=
  .registers _ _ (keepsFlag_setReg hi s b)

theorem Footprint.of_writeAlu {i : Instr} (hi : writesFlag i = true) (s : State) (x : Reg) (out : AluOut) :
    Footprint i s ((s.writeAlu x out).advance 2#16) := by
  rw [State.writeAlu_frame]
  exact .registers _ _ (.inr (.inl hi))

theorem Footprint.of_loadRegs (x : Reg) (s : State) :
    Footprint (.loadRegs x) s ((s.setRegs (s.loadAtI (x.toNat + 1))).advance 2#16) := by
  rw [State.setRegs_advance_frame]
  refine .registers _ _ ?_
  by_cases hx : x = 0xF#4
  · exact .inr (.inr (congrArg some hx))
  · have hlt : x.toNat < (0xF#4 : Reg).toNat := by
      have hne : x.toNat ≠ 15 := fun h => hx (BitVec.eq_of_toNat_eq h)
      have := x.isLt
      simp only [BitVec.toNat_ofNat]
      omega
    exact .inl (s.reg_setRegs_loadAtI_above hlt)

/-- An instruction with a check ends in the fault or in its effect. -/
theorem Footprint.of_check {i : Instr} {s t effect : State} {check : Option (FaultCause × BitVec 17)}
    (he : Footprint i s effect) (h : s.orFault check effect = .next t) : Footprint i s t := by
  rcases s.orFault_cases h with ⟨c, n, -, rfl⟩ | ⟨-, rfl⟩
  · exact .fault c n
  · exact he

/-- What `RET` can do, by the count of entries in use (R76). -/
theorem exec_ret_cases {s t : State} (h : exec .ret s = .next t) :
    (∃ k : Fin 16, s.sp.val = k.val + 1 ∧ t = { s with sp := k.castSucc, pc := s.stack[k] + 2#16 }) ∨
    (s.sp.val = 0 ∧ t = s.raise .stackUnderflow 0#17) := by
  rcases Nat.eq_zero_or_pos s.sp.val with hsp | hsp
  · rw [exec_ret_empty hsp] at h
    cases h
    exact .inr ⟨hsp, rfl⟩
  · have hlt := s.sp.isLt
    have hk : s.sp.val = (⟨s.sp.val - 1, by omega⟩ : Fin 16).val + 1 := (Nat.sub_add_cancel hsp).symm
    rw [exec_ret hk] at h
    cases h
    exact .inl ⟨_, hk, rfl⟩

/-- What `CALL` can do, by the count of entries in use (R78). -/
theorem exec_call_cases {nnn : Addr} {s t : State} (h : exec (.call nnn) s = .next t) :
    (∃ k : Fin 16, s.sp.val = k.val ∧
      t = { s with stack := s.stack.set k s.pc, sp := k.succ, pc := address nnn }) ∨
    (s.sp.val = 16 ∧ t = s.raise .stackOverflow (nnn.setWidth 17)) := by
  have hlt := s.sp.isLt
  rcases Nat.lt_or_ge s.sp.val 16 with hsp | hsp
  · rw [exec_call nnn (k := ⟨s.sp.val, hsp⟩) rfl] at h
    cases h
    exact .inl ⟨_, rfl, rfl⟩
  · have hfull : s.sp.val = 16 := by omega
    rw [exec_call_full nnn hfull] at h
    cases h
    exact .inr ⟨hfull, rfl⟩

/-- Every instruction stays inside its footprint. -/
theorem exec_footprint {i : Instr} {s t : State} (h : exec i s = .next t) : Footprint i s t := by
  cases i with
  | cls => cases h; exact .clear _ _ _ rfl
  | ret =>
    rcases exec_ret_cases h with ⟨k, -, rfl⟩ | ⟨-, rfl⟩
    · exact .pop _ _ rfl
    · exact .fault _ _
  | call nnn =>
    rcases exec_call_cases h with ⟨k, -, rfl⟩ | ⟨-, rfl⟩
    · exact .push _ _ _ ⟨nnn, rfl⟩
    · exact .fault _ _
  | jp nnn => cases h; exact .of_pc _ s _
  | jpV0 nnn => cases h; exact .of_pc _ s _
  | seImm x nn => cases h; exact .of_pc _ s _
  | sneImm x nn => cases h; exact .of_pc _ s _
  | seReg x y => cases h; exact .of_pc _ s _
  | sneReg x y => cases h; exact .of_pc _ s _
  | skp x => exact .of_check (.of_pc _ s _) h
  | sknp x => exact .of_check (.of_pc _ s _) h
  | ldImm x nn => cases h; exact .of_setReg rfl s _
  | addImm x nn => cases h; exact .of_setReg rfl s _
  | ldReg x y => cases h; exact .of_setReg rfl s _
  | orReg x y => cases h; exact .of_setReg rfl s _
  | andReg x y => cases h; exact .of_setReg rfl s _
  | xorReg x y => cases h; exact .of_setReg rfl s _
  | ldVxDT x => cases h; exact .of_setReg rfl s _
  | ldVxK x =>
    cases h
    split
    · exact .of_pc _ s s.pc
    · exact .of_setReg rfl s _
  | addReg x y => cases h; exact .of_writeAlu rfl s x _
  | subReg x y => cases h; exact .of_writeAlu rfl s x _
  | shr x y => cases h; exact .of_writeAlu rfl s x _
  | subnReg x y => cases h; exact .of_writeAlu rfl s x _
  | shl x y => cases h; exact .of_writeAlu rfl s x _
  | ldI nnn => cases h; exact .index _ _ (.inl ⟨nnn, rfl⟩)
  | addI x => cases h; exact .index _ _ (.inr (.inl ⟨x, rfl⟩))
  | ldF x => cases h; exact .index _ _ (.inr (.inr ⟨x, rfl⟩))
  | rnd x nn => cases h; exact .sample _ _ _ ⟨x, nn, rfl⟩ (keepsFlag_setReg rfl s _)
  | drw x y n => exact .of_check (.sprite _ _ _ _ ⟨x, y, n, rfl⟩ : Footprint _ s (s.drawn x y n)) h
  | ldDTVx x => cases h; exact .delay _ _ ⟨x, rfl⟩
  | ldSTVx x => cases h; exact .sound _ _ ⟨x, rfl⟩
  | ldB x => exact .of_check (.store _ _ rfl) h
  | storeRegs x => exact .of_check (.store _ _ rfl) h
  | loadRegs x => exact .of_check (.of_loadRegs x s) h

/-- The clause on `VF` follows from the footprint's own. -/
theorem KeepsFlag.clause {i : Instr} {s t : State} (h : KeepsFlag i s t) :
    t.reg 0xF#4 ≠ s.reg 0xF#4 → writesFlag i = true ∨ destination i = some 0xF#4 :=
  fun hne => h.resolve_left hne

/-- Settles O50: in each form of the footprint every field that it does not name is as before. -/
theorem onlyTheNamedInstructionsWrite : Obligations.OnlyTheNamedInstructionsWrite := by
  intro i s t h
  cases exec_footprint h with
  | fault c n => simp
  | registers v pc hflag => simpa using hflag.clause
  | sample v k pc hi hflag => simpa [hi] using hflag.clause
  | index w pc hi => simp [hi, State.reg]
  | pop sp pc hi => simp [hi, State.reg]
  | push sp stack pc hi => simp [hi, State.reg]
  | clear fb draw pc hi => simp [hi, State.reg]
  | sprite v fb draw pc hi =>
    have hflag : writesFlag i = true := by obtain ⟨x, y, n, rfl⟩ := hi; rfl
    simp [hi, hflag]
  | store mem pc hi => simp [hi, State.reg]
  | delay dt pc hi => simp [hi, State.reg]
  | sound st pc hi => simp [hi, State.reg]

/-! ### The timers in a step (R69) -/

theorem exec_timers {i : Instr} {s t : State} (h : exec i s = .next t) :
    (t.dt = s.dt ∨ ∃ x, i = .ldDTVx x) ∧ (t.st = s.st ∨ ∃ x, i = .ldSTVx x) := by
  obtain ⟨-, -, -, hdt, hst, -⟩ := onlyTheNamedInstructionsWrite i s t h
  exact ⟨or_iff_not_imp_left.mpr hdt, or_iff_not_imp_left.mpr hst⟩

/-- The end of a step does not raise a timer (R69). -/
theorem afterDispatch_timers_le (d : State) (l : Label) :
    (d.afterDispatch l).dt.toNat ≤ d.dt.toNat ∧ (d.afterDispatch l).st.toNat ≤ d.st.toNat := by
  rcases d.afterDispatch_cases l with h | h <;> rw [h]
  · exact ⟨le_refl _, le_refl _⟩
  · exact ⟨(tickTimer_toNat d.dt).trans_le (Nat.sub_le _ _), (tickTimer_toNat d.st).trans_le (Nat.sub_le _ _)⟩

/-- Settles O44: the dispatch writes a timer by its own instruction only, and the tick lowers or keeps it. -/
theorem timersIncreaseOnlyByTheirWrite : Obligations.TimersIncreaseOnlyByTheirWrite := by
  intro s t h
  rcases step_cases h with ⟨-, rfl⟩ | ⟨-, -, rfl⟩ | ⟨w, d, hh, hf, hrun, rfl⟩
  · exact ⟨.inl (le_refl _), .inl (le_refl _)⟩
  · exact ⟨.inl (le_refl _), .inl (le_refl _)⟩
  · obtain ⟨hdt, hst⟩ := afterDispatch_timers_le d (wordLabel w s d)
    rcases runWord_cases hrun with ⟨i, hi, hx⟩ | ⟨e, x, -, -, rfl⟩ | ⟨e, -, -, rfl⟩
    · have hfetch : Fetches s i := fetches_iff.mpr ⟨hh, w, hf, hi⟩
      obtain ⟨hdt', hst'⟩ := exec_timers hx
      refine ⟨hdt'.imp (fun heq => hdt.trans_eq (congrArg _ heq)) ?_,
        hst'.imp (fun heq => hst.trans_eq (congrArg _ heq)) ?_⟩
      · rintro ⟨x, rfl⟩
        exact ⟨x, hfetch⟩
      · rintro ⟨x, rfl⟩
        exact ⟨x, hfetch⟩
    · exact ⟨.inl hdt, .inl hst⟩
    · have hsame : (s.unknown w).dt = s.dt ∧ (s.unknown w).st = s.st := by
        unfold State.unknown State.diagnose
        split_ifs <;> exact ⟨rfl, rfl⟩
      exact ⟨.inl (hdt.trans_eq (congrArg _ hsame.left)), .inl (hst.trans_eq (congrArg _ hsame.right))⟩

end Sys2Proof.Claims
end

section
/-! What an instruction cannot observe (spec/10_state.md R17, R20, R22): the latch is read by SKP, SKNP and LD Vx,K, the
sound timer by no instruction of the table, and a stack entry that is not in use by none. -/

namespace Sys2Proof.Machine

/-- The state with other values in the latch, the sound timer and the stack, which most instructions do not touch. -/
def State.withHidden (s : State) (key : Word) (st : Byte) (stack : Vector Word 16) : State :=
  { s with key := key, st := st, stack := stack }

/-- The instructions that read or write one of the three: `KEY` (R101, R102, R104), `ST` (R106), the stack (R76, R78). -/
def touchesHidden : Instr → Bool
  | .ret | .call _ | .skp _ | .sknp _ | .ldVxK _ | .ldSTVx _ => true
  | _ => false

/-- A change `f` of the state that a recorded fault does not see and the check does not read goes through the end of a
checked instruction. -/
theorem orFault_map {f : State → State} {s e t : State} {check : Option (FaultCause × BitVec 17)}
    (hraise : ∀ c n, f (s.raise c n) = (f s).raise c n) (h : s.orFault check e = .next t) :
    (f s).orFault check (f e) = .next (f t) := by
  rcases s.orFault_cases h with ⟨c, n, hc, rfl⟩ | ⟨hc, rfl⟩ <;> rw [hc]
  · rw [State.orFault_some, hraise]
  · rw [State.orFault_none]

theorem orFault_withHidden {s e t : State} {check : Option (FaultCause × BitVec 17)} (h : s.orFault check e = .next t)
    (key : Word) (st : Byte) (stack : Vector Word 16) :
    (s.withHidden key st stack).orFault check (e.withHidden key st stack) = .next (t.withHidden key st stack) :=
  orFault_map (f := fun u => u.withHidden key st stack) (fun _ _ => rfl) h

theorem State.writeAlu_withHidden (s : State) (x : Reg) (out : AluOut) (key : Word) (st : Byte)
    (stack : Vector Word 16) :
    (s.withHidden key st stack).writeAlu x out = (s.writeAlu x out).withHidden key st stack := by
  obtain ⟨r, f⟩ := out
  unfold State.writeAlu
  cases f with
  | none => rfl
  | some f =>
    have horder : (s.withHidden key st stack).cfg.vfOrder = s.cfg.vfOrder := rfl
    rw [horder]
    cases s.cfg.vfOrder <;> rfl

theorem State.advance_withHidden (s : State) (k key : Word) (st : Byte) (stack : Vector Word 16) :
    (s.withHidden key st stack).advance k = (s.advance k).withHidden key st stack := rfl

theorem State.setRegs_withHidden (s : State) (bs : List Byte) (key : Word) (st : Byte) (stack : Vector Word 16) :
    (s.withHidden key st stack).setRegs bs = (s.setRegs bs).withHidden key st stack := by
  simp only [State.setRegs, State.withHidden]

/-- The other instructions have the same effect whatever the three hold. -/
theorem exec_withHidden {i : Instr} {s t : State} (hi : touchesHidden i = false) (h : exec i s = .next t) (key : Word)
    (st : Byte) (stack : Vector Word 16) :
    exec i (s.withHidden key st stack) = .next (t.withHidden key st stack) := by
  have halu (x : Reg) (out : AluOut) : ((s.withHidden key st stack).writeAlu x out).advance 2#16 =
      ((s.writeAlu x out).advance 2#16).withHidden key st stack := by
    rw [State.writeAlu_withHidden, State.advance_withHidden]
  cases i with
  | ret => cases hi
  | call nnn => cases hi
  | skp x => cases hi
  | sknp x => cases hi
  | ldVxK x => cases hi
  | ldSTVx x => cases hi
  | addReg x y => cases h; exact congrArg _ (halu x _)
  | subReg x y => cases h; exact congrArg _ (halu x _)
  | shr x y => cases h; exact congrArg _ (halu x _)
  | subnReg x y => cases h; exact congrArg _ (halu x _)
  | shl x y => cases h; exact congrArg _ (halu x _)
  | drw x y n => exact orFault_withHidden h key st stack
  | ldB x => exact orFault_withHidden h key st stack
  | storeRegs x => exact orFault_withHidden h key st stack
  | loadRegs x =>
    show (s.withHidden key st stack).orFault (s.boundsCheck _)
      (((s.withHidden key st stack).setRegs (s.loadAtI _)).advance 2#16) = _
    rw [State.setRegs_withHidden, State.advance_withHidden]
    exact orFault_withHidden h key st stack
  | _ => cases h; rfl

end Sys2Proof.Machine

namespace Sys2Proof.Claims

open Sys2Proof Sys2Proof.Machine

/-- An instruction that touches none of the latch, the sound timer and the stack leaves them as they were. -/
theorem exec_keeps_hidden {i : Instr} {s t : State} (hi : touchesHidden i = false) (h : exec i s = .next t) :
    t.key = s.key ∧ t.st = s.st ∧ t.sp = s.sp ∧ t.stack = s.stack := by
  obtain ⟨-, hsp, hstack, -, hst, -, -, -, -, -, hkey, -⟩ := onlyTheNamedInstructionsWrite i s t h
  refine ⟨hkey, not_not.mp fun hne => ?_, not_not.mp fun hne => ?_, not_not.mp fun hne => ?_⟩
  · obtain ⟨x, rfl⟩ := hst hne
    cases hi
  · rcases hsp hne with ⟨nnn, rfl⟩ | rfl <;> cases hi
  · obtain ⟨nnn, rfl⟩ := hstack hne
    cases hi

/-! ### The latch (R22) -/

/-- Settles O51: the instructions that do not touch the latch, the sound timer or the stack, and the three that touch
only the others. -/
theorem onlyKeyInstructionsReadTheLatch : Obligations.OnlyKeyInstructionsReadTheLatch := by
  intro i s t k hi h
  cases hidden : touchesHidden i with
  | false =>
    obtain ⟨-, hst, -, hstack⟩ := exec_keeps_hidden hidden h
    have hexec := exec_withHidden hidden h k t.st t.stack
    rw [hst, hstack] at hexec
    rw [show ({ t with key := k } : State) = t.withHidden k s.st s.stack by rw [← hst, ← hstack]; rfl]
    exact hexec
  | true =>
    cases i with
    | ret =>
      rcases exec_ret_cases h with ⟨j, hj, rfl⟩ | ⟨hsp, rfl⟩
      · exact exec_ret (s := { s with key := k }) hj
      · exact exec_ret_empty (s := { s with key := k }) hsp
    | call nnn =>
      rcases exec_call_cases h with ⟨j, hj, rfl⟩ | ⟨hsp, rfl⟩
      · exact exec_call nnn (s := { s with key := k }) hj
      · exact exec_call_full nnn (s := { s with key := k }) hsp
    | ldSTVx x => cases h; rfl
    | skp x => exact absurd rfl (hi x).left
    | sknp x => exact absurd rfl (hi x).right.left
    | ldVxK x => exact absurd rfl (hi x).right.right
    | _ => cases hidden

/-! ### The sound timer (R20) -/

/-- Settles O52: the instructions that do not touch the latch, the sound timer or the stack, and the six that do, of
which `LD ST,Vx` only writes the sound timer. -/
theorem noTableInstructionReadsST : Obligations.NoTableInstructionReadsST := by
  intro i s t b h
  cases hidden : touchesHidden i with
  | false =>
    obtain ⟨hkey, -, -, hstack⟩ := exec_keeps_hidden hidden h
    have hexec := exec_withHidden hidden h t.key b t.stack
    rw [show s.withHidden t.key b t.stack = { s with st := b } by rw [hkey, hstack]; rfl] at hexec
    exact ⟨_, hexec, rfl⟩
  | true =>
    cases i with
    | ret =>
      rcases exec_ret_cases h with ⟨j, hj, rfl⟩ | ⟨hsp, rfl⟩
      · exact ⟨_, exec_ret (s := { s with st := b }) hj, rfl⟩
      · exact ⟨_, exec_ret_empty (s := { s with st := b }) hsp, rfl⟩
    | call nnn =>
      rcases exec_call_cases h with ⟨j, hj, rfl⟩ | ⟨hsp, rfl⟩
      · exact ⟨_, exec_call nnn (s := { s with st := b }) hj, rfl⟩
      · exact ⟨_, exec_call_full nnn (s := { s with st := b }) hsp, rfl⟩
    | skp x => exact ⟨_, orFault_map (f := fun u => { u with st := b }) (fun _ _ => rfl) h, rfl⟩
    | sknp x => exact ⟨_, orFault_map (f := fun u => { u with st := b }) (fun _ _ => rfl) h, rfl⟩
    | ldVxK x =>
      cases h
      by_cases hkey : s.key = 0#16
      · exact ⟨_, exec_ldVxK_stall x (s := { s with st := b }) hkey, by rw [if_pos hkey]⟩
      · exact ⟨_, exec_ldVxK_pressed x (s := { s with st := b }) hkey, by rw [if_neg hkey]; rfl⟩
    | ldSTVx x => cases h; exact ⟨_, rfl, rfl⟩
    | _ => cases hidden

/-! ### Stack entries not in use (R17) -/

/-- The entries in use of a state are those of another stack. -/
def StackAgrees (s : State) (stack : Vector Word 16) : Prop := ∀ k : Fin 16, k.val < s.sp.val → stack[k] = s.stack[k]

theorem agreeOnStackInUse_iff {s u : State} :
    AgreeOnStackInUse s u ↔ ∃ stack, u = { s with stack := stack } ∧ StackAgrees s stack := by
  constructor
  · rintro ⟨hu, hstack⟩
    exact ⟨u.stack, hu, hstack⟩
  · rintro ⟨stack, rfl, hstack⟩
    exact ⟨rfl, hstack⟩

/-- A checked instruction that leaves the stack alone cannot tell two stacks apart. -/
theorem agrees_of_check {s e t : State} {check : Option (FaultCause × BitVec 17)} {stack : Vector Word 16}
    (ha : StackAgrees s stack) (hsp : e.sp = s.sp) (hstack : e.stack = s.stack) (h : s.orFault check e = .next t) :
    ∃ stack', State.orFault { s with stack := stack } check { e with stack := stack } =
      .next { t with stack := stack' } ∧ StackAgrees t stack' := by
  refine ⟨stack, orFault_map (f := fun u => { u with stack := stack }) (fun _ _ => rfl) h, ?_⟩
  rcases s.orFault_cases h with ⟨c, n, -, rfl⟩ | ⟨-, rfl⟩
  · exact ha
  · intro k hk
    rw [hstack]
    exact ha k (hsp ▸ hk)

/-- An instruction reads an entry in use at most (`RET`) and writes the entry that it puts in use (`CALL`). -/
theorem exec_withStack {i : Instr} {s t : State} {stack : Vector Word 16} (ha : StackAgrees s stack)
    (h : exec i s = .next t) :
    ∃ stack', exec i { s with stack := stack } = .next { t with stack := stack' } ∧ StackAgrees t stack' := by
  cases hidden : touchesHidden i with
  | false =>
    obtain ⟨hkey, hst, hsp, hstack⟩ := exec_keeps_hidden hidden h
    have hexec := exec_withHidden hidden h t.key t.st stack
    rw [show s.withHidden t.key t.st stack = { s with stack := stack } by rw [hkey, hst]; rfl] at hexec
    refine ⟨stack, hexec, fun k hk => ?_⟩
    rw [hstack]
    exact ha k (hsp ▸ hk)
  | true =>
    cases i with
    | ret =>
      rcases exec_ret_cases h with ⟨k, hk, rfl⟩ | ⟨hsp, rfl⟩
      · have hentry : stack[k] = s.stack[k] := ha k (by omega)
        refine ⟨stack, ?_, fun j hj => ha j (Nat.lt_trans hj (by rw [hk]; exact Nat.lt_succ_self _))⟩
        rw [exec_ret (s := { s with stack := stack }) hk, ← hentry]
      · exact ⟨stack, exec_ret_empty (s := { s with stack := stack }) hsp, ha⟩
    | call nnn =>
      rcases exec_call_cases h with ⟨k, hk, rfl⟩ | ⟨hsp, rfl⟩
      · refine ⟨stack.set k s.pc, exec_call nnn (s := { s with stack := stack }) hk, fun j hj => ?_⟩
        simp only [Fin.getElem_fin, Vector.getElem_set]
        split
        · rfl
        · have hlt : j.val < k.val + 1 := hj
          exact ha j (by omega)
      · exact ⟨stack, exec_call_full nnn (s := { s with stack := stack }) hsp, ha⟩
    | skp x => exact agrees_of_check (e := s.skipIf (s.keyDown (s.reg x).toNat)) ha rfl rfl h
    | sknp x => exact agrees_of_check (e := s.skipIf (!s.keyDown (s.reg x).toNat)) ha rfl rfl h
    | ldVxK x =>
      cases h
      by_cases hkey : s.key = 0#16
      · rw [if_pos hkey]
        exact ⟨stack, exec_ldVxK_stall x (s := { s with stack := stack }) hkey, ha⟩
      · rw [if_neg hkey]
        exact ⟨stack, exec_ldVxK_pressed x (s := { s with stack := stack }) hkey, ha⟩
    | ldSTVx x => cases h; exact ⟨stack, rfl, ha⟩
    | _ => cases hidden

theorem unknown_withStack (s : State) (w : Word) (stack : Vector Word 16) :
    State.unknown { s with stack := stack } w = { s.unknown w with stack := stack } := by
  unfold State.unknown State.diagnose
  split_ifs <;> rfl

theorem unknown_stack (s : State) (w : Word) : (s.unknown w).sp = s.sp ∧ (s.unknown w).stack = s.stack := by
  unfold State.unknown State.diagnose
  split_ifs <;> exact ⟨rfl, rfl⟩

theorem runWord_withStack {w : Word} {s d : State} {stack : Vector Word 16} (ha : StackAgrees s stack)
    (h : runWord w s = .next d) :
    ∃ stack', runWord w { s with stack := stack } = .next { d with stack := stack' } ∧ StackAgrees d stack' := by
  rcases runWord_cases h with ⟨i, hi, hx⟩ | ⟨e, x, he, hx, rfl⟩ | ⟨e, he, hnone, rfl⟩
  · rw [runWord_ok hi]
    exact exec_withStack ha hx
  · exact ⟨stack, runWord_readSound (s := { s with stack := stack }) he hx, ha⟩
  · refine ⟨stack, ?_, fun k hk => ?_⟩
    · rw [runWord_unknown (s := { s with stack := stack }) he hnone, unknown_withStack]
    · obtain ⟨hsp, hstack⟩ := unknown_stack s w
      rw [hstack]
      exact ha k (hsp ▸ hk)

theorem afterDispatch_withStack (d : State) (l : Label) (stack : Vector Word 16) :
    State.afterDispatch { d with stack := stack } l = { d.afterDispatch l with stack := stack } := by
  unfold State.afterDispatch
  split <;> rfl

/-- Settles O53: the dispatch keeps the agreement, and the label and the tick do not see the stack. -/
theorem unusedStackEntriesAreUnobservable : Obligations.UnusedStackEntriesAreUnobservable := by
  intro s t u hagree h
  obtain ⟨stack, rfl, ha⟩ := agreeOnStackInUse_iff.mp hagree
  simp only [agreeOnStackInUse_iff]
  rcases step_cases h with ⟨hh, rfl⟩ | ⟨hh, hf, rfl⟩ | ⟨w, d, hh, hf, hrun, rfl⟩
  · exact ⟨_, step_of_halted (s := { t with stack := stack }) hh, stack, rfl, ha⟩
  · exact ⟨_, step_of_fetch_none (s := { s with stack := stack }) hh hf, stack, rfl, ha⟩
  · obtain ⟨stack', hrun', ha'⟩ := runWord_withStack ha hrun
    have hstep := step_of_fetch (s := { s with stack := stack }) hh hf hrun'
    refine ⟨_, hstep, stack', afterDispatch_withStack d _ stack', ?_⟩
    rw [State.afterDispatch_frame]
    exact ha'

end Sys2Proof.Claims
end
